-- ==== Sys2Proof/Word.lean ====
section
/-! DEFINITION. The word types of HUFFCORE: bytes, 32-bit words, node indices. -/

namespace Sys2Proof

/-- One byte: a command word, the data of a beat, a symbol (R9: "A byte is 8 bits"). -/
abbrev Byte := BitVec 8

/-- A 32-bit word: counts, weights, inspection words (R23, R37, R39, R64). -/
abbrev Word := BitVec 32

/-- A node index, IDX_BITS = 9 bits wide (R7). -/
abbrev Index := BitVec 9

/-- One bit of a code or of a payload; `true` is 1 (R42, R46). -/
abbrev Bit := Bool

end Sys2Proof
end

