-- ==== Sys2Proof/Config.lean ====
section
/-! DEFINITION. The parameters the spec leaves open (R8) and the one free value (R65). -/

namespace Sys2Proof

/-- ENDIAN: the byte order of the two `int32` fields of the container (R8, R67). -/
inductive Endian where
  | little
  | big
deriving DecidableEq, Repr

/-- The open parameters of R8, each with the default that rule gives.
A depth of `none` is "unbounded". -/
structure Config where
  endian   : Endian := .little
  maxLen   : Nat := 2147483647
  inDepth  : Option Nat := none
  outDepth : Option Nat := none
  idValue  : Word := 0x48554631#32
deriving DecidableEq, Repr

/-- The parameters at the defaults of R8. -/
def Config.default : Config := {}

/-- FREE VALUE (log 5). What the inspection port returns while BUSY = 1 at an address other than ID and
STATUS: "a draw: any 32-bit value, possibly different on each read" (R65, U17).
The argument is the number of draws made so far, so each read has a value of its own.
It has no body: nothing can be proved about the value. -/
opaque Config.inspectDraw : Nat → Word

end Sys2Proof
end

