-- ==== Sys2Proof/Syntax.lean ====
section
/-! DEFINITION. The command set: one constructor for each row of spec/opcode_table.json (R92).
A command has no operand fields (R91). -/

namespace Sys2Proof

/-- The ten commands of R92. -/
inductive Instr where
  | clear
  | scan
  | build
  | gencode
  | wrhdr
  | encode
  | rdhdr
  | decode
  | halt
  | drain
deriving DecidableEq, Repr

end Sys2Proof
end

