-- ==== Sys2Proof/WellFormed.lean ====
section
/-! DEFINITION. What makes a command word, a command and a configuration well formed. -/

namespace Sys2Proof

/-- Bits 7:4 of a command word are 0b0000 (R91, R105). -/
def upperBitsZero (w : Byte) : Bool := w.extractLsb' 4 4 == 0#4

/-- The opcode in bits 3:0 is one of 1..10; 0 and 11..15 are reserved (R92, R105). -/
def opAssigned (w : Byte) : Bool :=
  let op := (w.extractLsb' 0 4).toNat
  1 ≤ op && op ≤ 10

/-- A legal command word (R93, R105). -/
def wordWf (w : Byte) : Bool := upperBitsZero w && opAssigned w

/-- A command has no register field, no immediate and no address (R91), so every term of `Instr` is
well formed. -/
def Instr.wf : Instr → Bool
  | .clear | .scan | .build | .gencode | .wrhdr | .encode | .rdhdr | .decode | .halt | .drain => true

/-- The parameter range the spec requires: "1 <= MAX_LEN <= 2^31 - 1" (92_eei_decisions.md, section 2).
The other parameters are unrestricted. -/
def Config.wf (c : Config) : Bool := 1 ≤ c.maxLen && c.maxLen ≤ 2147483647

end Sys2Proof
end

