-- ==== Sys2Proof/Decode.lean ====
section
/-! DEFINITION. Decoding and encoding command words (R90 to R93). -/

namespace Sys2Proof

/-- Why a word is no command (R105). -/
inductive DecodeError where
  /-- bits 7:4 are not zero -/
  | upperBitsSet
  /-- the opcode is 0 or 11..15 -/
  | reservedOpcode
deriving DecidableEq, Repr

/-- The opcode of each command, bits 3:0 of its word (R92). -/
def opcode : Instr → BitVec 4
  | .clear   => 1#4
  | .scan    => 2#4
  | .build   => 3#4
  | .gencode => 4#4
  | .wrhdr   => 5#4
  | .encode  => 6#4
  | .rdhdr   => 7#4
  | .decode  => 8#4
  | .halt    => 9#4
  | .drain   => 10#4

/-- R93: if `w[7:4] != 0` the word is illegal, else `w[3:0]` is looked up in R92. Total on all 256 words. -/
def decode (w : Byte) : Except DecodeError Instr :=
  if w.extractLsb' 4 4 ≠ 0#4 then .error .upperBitsSet
  else match (w.extractLsb' 0 4).toNat with
    | 1  => .ok .clear
    | 2  => .ok .scan
    | 3  => .ok .build
    | 4  => .ok .gencode
    | 5  => .ok .wrhdr
    | 6  => .ok .encode
    | 7  => .ok .rdhdr
    | 8  => .ok .decode
    | 9  => .ok .halt
    | 10 => .ok .drain
    | _  => .error .reservedOpcode

/-- The word of a command, format C of R91: four zero bits above the opcode. -/
def encode (i : Instr) : Byte := 0#4 ++ opcode i

/-- The one command byte of a table word: its low `nbits` bits, at most 8 (there is one command length,
8 bits, R90); the bits above `nbits` are 0. -/
def tableByte (nbits w : Nat) : Byte := BitVec.ofNat 8 (w % 2 ^ nbits)

/-- What the decoder reads from a word numbered as spec/opcode_table.json numbers it. -/
def decodeTableWord (nbits w : Nat) : Option Instr := (decode (tableByte nbits w)).toOption

end Sys2Proof
end

