-- ==== Sys2Proof/Machine/State.lean ====
section
/-! DEFINITION. The state of HUFFCORE (10_state.md), the host's side of its ports (R83), and reset (R52). -/

namespace Sys2Proof.Machine

open Sys2Proof

/-- PHASE, where the block is in an operation (R30). Values 7..14 are never taken, so they are left out
(U14: "A model may use an enumeration without these values"). -/
inductive Phase where
  | idle
  | scanned
  | hdrRead
  | builtC
  | builtD
  | coded
  | hdrWritten
  | halted
deriving DecidableEq, Repr

/-- CUR, the stream command in progress or none (R31). -/
inductive Cur where
  | none
  | scan
  | encode
  | rdhdr
  | decode
  | drain
deriving DecidableEq, Repr

/-- The codes ERR can hold (R260); 8..15 are reserved and never written. -/
inductive Err where
  | ok
  | io
  | empty
  | illegal
  | malformed
  | sequence
  | overflow
  | noCode
deriving DecidableEq, Repr

/-- A beat: one flag and 8 data bits (R94). On IN the data bits of an end-of-stream beat may be anything. -/
structure Beat where
  eos  : Bool
  data : Byte
deriving DecidableEq, Repr

/-- One entry of NODE (R39). A link of 0 means "no node" (R40). -/
structure Node where
  sym    : Byte
  weight : Word
  parent : Index
  left   : Index
  right  : Index
deriving DecidableEq, Repr

/-- The all-zero node: the reset value of every entry (R38) and what NODE[0] is at all times (R40). -/
def Node.zero : Node := ⟨0#8, 0#32, 0#9, 0#9, 0#9⟩

/-- One entry of CODE: `len` (8 bits) and a sequence of exactly `len` bits, first bit first (R42). -/
structure Code where
  len  : BitVec 8
  bits : List Bit
deriving DecidableEq, Repr

/-- "len = 0 means this byte value has no code" (R42); the reset value of every entry. -/
def Code.absent : Code := ⟨0#8, []⟩

/-- A table held by index: pairs (index, entry), indices strictly rising, no entry equal to the table's
cleared entry. An index that is not listed holds the cleared entry. `Table.wf` of Ops.lean says the form holds. -/
abbrev Table (α : Type) := List (Nat × α)

/-- The actions of R83: the host's five, and the block's own step. -/
inductive Action where
  /-- the host offers a command word at CMD (R61) -/
  | issue (w : Byte)
  /-- the host pushes a beat onto IN (R62) -/
  | pushIn (b : Beat)
  /-- the host pops the head of OUT (R63) -/
  | popOut
  /-- the host reads an inspection word (R64) -/
  | inspect (addr : BitVec 16)
  /-- the host asserts RST (R290) -/
  | reset
  /-- the block's turn: its step, if one is enabled (R74) -/
  | beatStep
deriving DecidableEq, Repr

/-- The MODEL's own record of the host, not the spec's (log 1): what the host is still going to do, in which order and at
which point of the block's work, and what it has received. -/
structure HostSide where
  /-- the actions to come, first one first; together with `beatStep` any interleaving of R79 can be written -/
  script : List Action
  /-- the beats popped from OUT so far, in order (R310) -/
  popped : List Beat
  /-- the inspection words read so far, in order (R64) -/
  reads  : List (BitVec 16 × Word)
  /-- how many of those reads were draws (R65); the argument of the free value `Config.inspectDraw` -/
  draws  : Nat
deriving DecidableEq, Repr

/-- The whole state. Each field's docstring names the rule that gives it and its width. -/
structure State where
  /-- the parameters of R8, fixed for the machine: no step writes them (log 4) -/
  cfg    : Config
  /-- the host's side of the ports (log 1) -/
  host   : HostSide
  /-- PHASE (R30) -/
  phase  : Phase
  /-- CUR (R31) -/
  cur    : Cur
  /-- ERR (R34) -/
  err    : Err
  /-- FAULTS, 8 bits, sticky (R35) -/
  faults : BitVec 8
  /-- K, the symbol count, 9 bits (R21) -/
  k      : BitVec 9
  /-- NN, the number of nodes in use, 10 bits (R22) -/
  nn     : BitVec 10
  /-- TOTAL, the number of bytes of the operation, 32 bits (R23) -/
  total  : Word
  /-- REMAIN, the bytes DECODE has still to emit, 32 bits (R24) -/
  remain : Word
  /-- PTR, the current tree pointer of DECODE, 9 bits (R25) -/
  ptr    : Index
  /-- FREQ[0..255], 32 bits each, indexed by byte value (R37) -/
  freq   : Table Word
  /-- NODE[0..511], indexed by node index (R38, R39) -/
  node   : Table Node
  /-- CODE[0..255], indexed by byte value (R42) -/
  code   : Table Code
  /-- ACC, the pending bits of the Bit Packer, first bit first (R46) -/
  acc    : List Bit
  /-- HSTAGE, 1 bit: 0 = reading the K field, 1 = reading records (R47) -/
  hstage : BitVec 1
  /-- HI, the index of the record being read, 9 bits (R47) -/
  hi     : BitVec 9
  /-- HBUF, the bytes of the field or record read so far (R47) -/
  hbuf   : List Byte
  /-- HPREV, the last byte value accepted, 256 for none, 9 bits (R47) -/
  hprev  : BitVec 9
  /-- INQ, the queue of IN, head first (R49) -/
  inq    : List Beat
  /-- OUTQ, the queue of OUT, head first (R49) -/
  outq   : List Beat
  /-- The MODEL's own, not the spec's (log 6): how many beats of a WRHDR that is split "into one push per step" (R73) are
  pushed already, while its word is still with the host; 0 when there is no such WRHDR. -/
  sent   : Nat
deriving DecidableEq, Repr

/-- Why the machine stops. No fault of the BLOCK is here: those are effects on ERR and FAULTS (R260, R273). -/
inductive Fault where
  /-- raised by GENCODE (SAFE, log 8): the leaf-to-root walk of R162 never meets a node without a parent, so its loop does
  not end. No well-formed tree (R43) has such a leaf; it can only happen in states no run reaches. -/
  | walkDoesNotEnd
deriving DecidableEq, Repr

/-- Why a command is given no meaning in a state. -/
inductive Refusal where
  /-- raised by `exec` for an instruction without a meaning yet (SAFE); no arm uses it -/
  | notModelled (mnemonic : String)
  /-- raised by every meaning when BUSY = 1 or PHASE = HALTED (SAFE, log 9): CMD "does not accept the word" (R61, U12).
  `step` never gets here: it leaves the word with the host (R304). -/
  | portClosed
deriving DecidableEq, Repr

/-- A host that has nothing left to do and has received nothing. -/
def HostSide.quiet : HostSide := ⟨[], [], [], 0⟩

/-- The machine right after reset (R52), at the default parameters (R8), with no host action to come. -/
def State.reset : State where
  cfg    := Config.default
  host   := HostSide.quiet
  phase  := .idle
  cur    := .none
  err    := .ok
  faults := 0#8
  k      := 0#9
  nn     := 0#10
  total  := 0#32
  remain := 0#32
  ptr    := 0#9
  freq   := []
  node   := []
  code   := []
  acc    := []
  hstage := 0#1
  hi     := 0#9
  hbuf   := []
  hprev  := 0#9
  inq    := []
  outq   := []
  sent   := 0

end Sys2Proof.Machine
end

