-- ==== Sys2Proof/Machine/Flags.lean ====
section
/-! DEFINITION. The status flags: the codes of PHASE, CUR and ERR, BUSY and HALTED, the fault record, STATUS. -/

namespace Sys2Proof.Machine

open Sys2Proof

/-- The 4-bit value of PHASE (R30). -/
def Phase.val : Phase → BitVec 4
  | .idle       => 0#4
  | .scanned    => 1#4
  | .hdrRead    => 2#4
  | .builtC     => 3#4
  | .builtD     => 4#4
  | .coded      => 5#4
  | .hdrWritten => 6#4
  | .halted     => 15#4

/-- The 4-bit value of CUR (R31): "the values are the commands' opcodes". -/
def Cur.val : Cur → BitVec 4
  | .none   => 0#4
  | .scan   => 2#4
  | .encode => 6#4
  | .rdhdr  => 7#4
  | .decode => 8#4
  | .drain  => 10#4

/-- The 4-bit code of ERR (R260). -/
def Err.val : Err → BitVec 4
  | .ok        => 0#4
  | .io        => 1#4
  | .empty     => 2#4
  | .illegal   => 3#4
  | .malformed => 4#4
  | .sequence  => 5#4
  | .overflow  => 6#4
  | .noCode    => 7#4

/-- BUSY: "1 exactly when CUR is not NONE" (R33). -/
def State.busy (s : State) : Bool := s.cur != .none

/-- HALTED: "1 exactly when PHASE = 15" (R33). -/
def State.halted (s : State) : Bool := s.phase == .halted

/-- CMD takes a word: "only when BUSY = 0 and PHASE is not HALTED" (R61, R240). -/
def State.ready (s : State) : Bool := !s.busy && !s.halted

/-- FAULTS with the bit of one code set (R35). -/
def setFaultBit (f : BitVec 8) (e : Err) : BitVec 8 := f ||| (1#8 <<< e.val.toNat)

/-- What every fault records: "the code in ERR and the bit in FAULTS, nothing else" (R268). -/
def recordFault (e : Err) (s : State) : State :=
  { s with err := e, faults := setFaultBit s.faults e }

/-- The STATUS word (R109). -/
def statusWord (s : State) : Word :=
  0#8 ++ s.faults ++ 0#2 ++ BitVec.ofBool s.halted ++ BitVec.ofBool s.busy
    ++ s.err.val ++ s.cur.val ++ s.phase.val

end Sys2Proof.Machine
end

