-- ==== Sys2Proof/Machine/Operands.lean ====
section
/-! DEFINITION. The operand forms: beats (R94), the container's integer fields (R67, R100), bits in bytes (R68, R102, R103). -/

namespace Sys2Proof.Machine

open Sys2Proof

/-- `D(x)`, the data beat carrying byte x (R94). -/
def dataBeat (x : Byte) : Beat := ⟨false, x⟩

/-- EOS as the block pushes it: "The block pushes EOS to OUT with data = 0" (R94). -/
def eosBeat : Beat := ⟨true, 0#8⟩

/-- The data beats of a byte sequence, in order. -/
def dataBeats (bs : List Byte) : List Beat := bs.map dataBeat

/-- `le32(v)`, least significant byte first; the four bytes reversed when ENDIAN = big (R10, R67). -/
def intBytes (e : Endian) (v : Word) : List Byte :=
  let le := [v.extractLsb' 0 8, v.extractLsb' 8 8, v.extractLsb' 16 8, v.extractLsb' 24 8]
  match e with
  | .little => le
  | .big    => le.reverse

/-- The unsigned number of a byte sequence, least significant byte first. -/
def leNat : List Byte → Nat
  | []      => 0
  | b :: bs => b.toNat + 256 * leNat bs

/-- `u32(b)`, the inverse of `le32`, as a 32-bit word (R10). -/
def fieldWord (e : Endian) (bs : List Byte) : Word :=
  match e with
  | .little => BitVec.ofNat 32 (leNat bs)
  | .big    => BitVec.ofNat 32 (leNat bs.reverse)

/-- `s32(b)`, the two's-complement reading of an `int32` field (R10, R100, G2). -/
def s32 (e : Endian) (bs : List Byte) : Int := (fieldWord e bs).toInt

/-- The number a bit sequence spells, first bit most significant. -/
def bitsNat (bits : List Bit) : Nat := bits.foldl (fun v b => 2 * v + b.toNat) 0

/-- `pack8(s)`: the first bit becomes bit 7 of the byte (R10, R102). -/
def pack8 (bits : List Bit) : Byte := BitVec.ofNat 8 (bitsNat bits)

/-- The bits of a payload byte in stream order, bit 7 first (R103). -/
def byteBits (d : Byte) : List Bit :=
  [d.getLsbD 7, d.getLsbD 6, d.getLsbD 5, d.getLsbD 4, d.getLsbD 3, d.getLsbD 2, d.getLsbD 1, d.getLsbD 0]

/-- A final group of fewer than 8 bits, extended with zeros on the right to 8 (R102, R180). -/
def padZeros (bits : List Bit) : List Bit := bits ++ List.replicate (8 - bits.length) false

/-- The packing loop of R178, at most `fuel` rounds: while 8 or more bits are pending, the first 8 become a byte.
The bytes, and the bits left. -/
def packWhole : Nat → List Bit → List Byte × List Bit
  | 0,        acc => ([], acc)
  | fuel + 1, acc =>
    if 8 ≤ acc.length then
      let r := packWhole fuel (acc.drop 8)
      (pack8 (acc.take 8) :: r.1, r.2)
    else ([], acc)

/-- The whole packing loop: every group of 8 pending bits (R178). One round per bit is more than enough rounds. -/
def packPending (acc : List Bit) : List Byte × List Bit := packWhole acc.length acc

end Sys2Proof.Machine
end

