-- ==== Sys2Proof/Machine/Ops.lean ====
section
/-! DEFINITION. The shared operations: tables, queues, CLEARSTATE, the fault procedure, command acceptance. -/

namespace Sys2Proof.Machine

open Sys2Proof

/-! ## Tables -/

/-- The entry at an index; `d` is the cleared entry, held by every index that is not listed. -/
def Table.read {α : Type} (d : α) : Table α → Nat → α
  | [],           _ => d
  | (j, v) :: t,  i => if i = j then v else Table.read d t i

/-- One entry replaced. The form is kept: indices rising, no entry equal to the cleared one. -/
def Table.write {α : Type} [DecidableEq α] (d : α) : Table α → Nat → α → Table α
  | [],          i, v => if v = d then [] else [(i, v)]
  | (j, w) :: t, i, v =>
    if i < j then (if v = d then (j, w) :: t else (i, v) :: (j, w) :: t)
    else if i = j then (if v = d then t else (i, v) :: t)
    else (j, w) :: Table.write d t i v

/-- The canonical form of a table whose indices are `lo` .. `size - 1`. -/
def Table.wf {α : Type} [DecidableEq α] (d : α) (lo size : Nat) : Table α → Bool
  | []          => true
  | (j, v) :: t => decide (lo ≤ j) && decide (j < size) && decide (v ≠ d) && Table.wf d (j + 1) size t

/-- FREQ[b] (R37). -/
def State.freqAt (s : State) (b : Byte) : Word := Table.read 0#32 s.freq b.toNat

/-- FREQ[b] <- v (R37). -/
def State.setFreq (b : Byte) (v : Word) (s : State) : State :=
  { s with freq := Table.write 0#32 s.freq b.toNat v }

/-- CODE[b] (R42). -/
def State.codeAt (s : State) (b : Byte) : Code := Table.read Code.absent s.code b.toNat

/-- NODE[i] of a node table. NODE[0] is hard-wired: "all its fields are 0 at all times" (R40). -/
def nodeIn (t : Table Node) (i : Nat) : Node := if i = 0 then Node.zero else Table.read Node.zero t i

/-- NODE[i] <- n. NODE[0] "is never written" (R40), and there are 512 entries (R38). -/
def putNode (t : Table Node) (i : Nat) (n : Node) : Table Node :=
  if i = 0 ∨ 512 ≤ i then t else Table.write Node.zero t i n

/-- NODE[i] of the state (R38). -/
def State.nodeAt (s : State) (i : Nat) : Node := nodeIn s.node i

/-- The three tables are in canonical form: 256 entries in FREQ and CODE, entries 1..511 of NODE. -/
def State.tablesWf (s : State) : Bool :=
  Table.wf 0#32 0 256 s.freq && Table.wf Node.zero 1 512 s.node && Table.wf Code.absent 0 256 s.code

/-- A leaf as SCAN and RDHDR seed it: no parent and no children (R125, R227). -/
def leafNode (sym : Byte) (weight : Word) : Node := ⟨sym, weight, 0#9, 0#9, 0#9⟩

/-- The leaf indices 1..K, ascending (R41). -/
def leafIndices (k : Nat) : List Nat := List.range' 1 k

/-- The root index 2K - 1 (R11). -/
def rootIndex (k : Nat) : Nat := 2 * k - 1

/-! ## Queues -/

/-- `OutPush` of each beat of a list, in order (R10). -/
def pushOut (bs : List Beat) (s : State) : State := { s with outq := s.outq ++ bs }

/-- OUTQ has room for n more beats; without a finite OUT_DEPTH always (R84 (b)). -/
def State.room (s : State) (n : Nat) : Bool :=
  match s.cfg.outDepth with
  | none   => true
  | some d => n ≤ d - s.outq.length

/-- OUTQ could hold n beats at one time: n is at most OUT_DEPTH. -/
def State.fits (s : State) (n : Nat) : Bool :=
  match s.cfg.outDepth with
  | none   => true
  | some d => n ≤ d

/-- How many of `n` beats find no place in an empty OUTQ: those beyond OUT_DEPTH. -/
def State.excess (s : State) (n : Nat) : Nat :=
  match s.cfg.outDepth with
  | none   => 0
  | some d => n - d

/-- The beats a step from `s` to `t` pushes: those `t` has at the tail of OUTQ after what `s` has there. -/
def pushedBeats (s t : State) : List Beat := t.outq.drop s.outq.length

/-- The step from `s` to `t`, whole and indivisible (R74); `none` while OUTQ has no room for the beats it pushes: "the step
waits" (R84 (b)). -/
def whenRoom (s t : State) : Option State := if s.room (pushedBeats s t).length then some t else none

/-- INQ has room for one more beat: |INQ| < IN_DEPTH (R62). -/
def State.inRoom (s : State) : Bool :=
  match s.cfg.inDepth with
  | none   => true
  | some d => s.inq.length < d

/-! ## Clearing and faults -/

/-- CLEARSTATE (R50): the per-operation state, and nothing else. NODE[0] is hard-wired, so clearing entries 1..511
clears the table. -/
def clearState (s : State) : State :=
  { s with
    freq := [], node := [], code := [],
    k := 0#9, nn := 0#10, total := 0#32, remain := 0#32, ptr := 0#9,
    acc := [], hstage := 0#1, hi := 0#9, hbuf := [], hprev := 0#9 }

/-- `raise E_X` inside a stream command (R273): the fault is recorded, the operation dropped, PHASE is IDLE again, and
with `draining` the rest of the input frame is discarded next. -/
def raiseFault (e : Err) (draining : Bool) (s : State) : State :=
  { clearState (recordFault e s) with
    phase := .idle
    cur   := if draining then .drain else .none }

/-! ## Acceptance -/

/-- The legal phases of each command (R242). -/
def legalIn : Instr → Phase → Bool
  | .clear,   p => p != .halted
  | .scan,    p => p == .idle
  | .rdhdr,   p => p == .idle
  | .build,   p => p == .scanned || p == .hdrRead
  | .gencode, p => p == .builtC
  | .wrhdr,   p => p == .coded
  | .encode,  p => p == .hdrWritten
  | .decode,  p => p == .builtD
  | .halt,    p => p != .halted
  | .drain,   p => p != .halted

/-- A legal word in a wrong phase: E_SEQUENCE, "no other state changes" (R243, R275). -/
def sequenceError (s : State) : State := recordFault .sequence s

/-- An illegal word: E_ILLEGAL, "no other state changes" (R241, R275). -/
def illegalWord (s : State) : State := recordFault .illegal s

/-- The part of R240 that every command shares: the port must be open, then the phase must be legal, and only
then is the command performed. -/
def accept (i : Instr) (s : State) (perform : State → Host.Outcome State Fault Refusal) :
    Host.Outcome State Fault Refusal :=
  if s.ready then
    if legalIn i s.phase then perform s else .next (sequenceError s)
  else .refused .portClosed

end Sys2Proof.Machine
end

