-- ==== Sys2Proof/Machine/Build.lean ====
section
/-! DEFINITION. BUILD, the Tree Builder (41_build.md). -/

namespace Sys2Proof.Machine

open Sys2Proof

/-- What the linear scan of R145 tracks: the least weight seen (m1, at s1) and the least among the others (m2, at s2).
An index of 0 is "none yet". -/
structure Minima where
  s1 : Nat
  m1 : Word
  s2 : Nat
  m2 : Word
deriving DecidableEq, Repr

/-- One round of the scan of R145: replaces only on a strict `<`. -/
def seeNode (t : Table Node) (p : Minima) (i : Nat) : Minima :=
  let n := nodeIn t i
  if n.parent ≠ 0#9 then p
  else if p.s1 = 0 ∨ n.weight < p.m1 then ⟨i, n.weight, p.s1, p.m1⟩
  else if p.s2 = 0 ∨ n.weight < p.m2 then ⟨p.s1, p.m1, i, n.weight⟩
  else p

/-- The two minima x and y among the unmerged nodes below `num` (R144), by the scan of R145. -/
def selectTwo (t : Table Node) (num : Nat) : Nat × Nat :=
  let p := (List.range' 1 (num - 1)).foldl (seeNode t) ⟨0, 0#32, 0, 0#32⟩
  (p.s1, p.s2)

/-- NODE[i].parent <- p. -/
def setParent (t : Table Node) (i : Nat) (p : Index) : Table Node :=
  putNode t i { nodeIn t i with parent := p }

/-- Creation of node `num` from x and y (R146): the sum of the weights, x to the left, y to the right. -/
def createNode (t : Table Node) (num x y : Nat) : Table Node :=
  let t1 := putNode t num
    ⟨0#8, (nodeIn t x).weight + (nodeIn t y).weight, 0#9, BitVec.ofNat 9 x, BitVec.ofNat 9 y⟩
  let t2 := setParent t1 x (BitVec.ofNat 9 num)
  setParent t2 y (BitVec.ofNat 9 num)

/-- One iteration of the merge loop (R141, R143). -/
def mergeStep (t : Table Node) (num : Nat) : Table Node :=
  let xy := selectTwo t num
  createNode t num xy.1 xy.2

/-- The merge loop, num = K+1 .. 2K-1 (R143), then the root's parent fixed to 0 (R147). -/
def mergeAll (t : Table Node) (k : Nat) : Table Node :=
  setParent ((List.range' (k + 1) (k - 1)).foldl mergeStep t) (rootIndex k) 0#9

/-- K = 1: the single node becomes its own left and right child (R142). -/
def selfLoop (t : Table Node) : Table Node :=
  putNode t 1 { nodeIn t 1 with left := 1#9, right := 1#9 }

/-- The nodes BUILD leaves, a function of K and the leaves alone (R140). -/
def buildTree (t : Table Node) (k : Nat) : Table Node := if k = 1 then selfLoop t else mergeAll t k

/-- BUILD (R141). -/
def execBuild (s : State) : Host.Outcome State Fault Refusal :=
  accept .build s fun s =>
    .next { s with
      node  := buildTree s.node s.k.toNat
      nn    := BitVec.ofNat 10 (rootIndex s.k.toNat)
      phase := if s.phase = .scanned then .builtC else .builtD
      err   := .ok }

end Sys2Proof.Machine
end

