-- ==== Sys2Proof/Machine/Container.lean ====
section
/-! DEFINITION. WRHDR and RDHDR, the Container (De)serializer (45_container.md). -/

namespace Sys2Proof.Machine

open Sys2Proof

/-- The bytes of record i: the leaf's byte value, then its frequency (R98, R216). -/
def recordBytes (s : State) (i : Nat) : List Byte :=
  (s.nodeAt i).sym :: intBytes s.cfg.endian (s.nodeAt i).weight

/-- The header: the K field, then the K records in leaf order (R96, R97, R216). -/
def headerBytes (s : State) : List Byte :=
  intBytes s.cfg.endian (s.k.setWidth 32) ++ (leafIndices s.k.toNat).flatMap (recordBytes s)

/-- The effect of WRHDR as a whole (R216). -/
def writeHeader (s : State) : State :=
  { pushOut (dataBeats (headerBytes s)) s with phase := .hdrWritten, err := .ok }

/-- One push of a WRHDR that is split "into one push per step" (R73); with its last push it ends. -/
def pushHeaderBeat (s : State) : State :=
  let beats := dataBeats (headerBytes s)
  if beats.length ≤ s.sent + 1 then
    { pushOut (beats.drop s.sent) s with phase := .hdrWritten, err := .ok, sent := 0 }
  else { pushOut ((beats.drop s.sent).take 1) s with sent := s.sent + 1 }

/-- The step of WRHDR as OUTQ lets it happen: whole if there is room for all its beats (R73); else it waits (R84 (b)), and
`none` says so; but a header that no OUTQ of this depth could take whole is split, "one push per step" (R73, log 6). -/
def headerStep (s : State) : Option State :=
  if s.room (headerBytes s).length then some (writeHeader s)
  else if s.fits (headerBytes s).length then none
  else if s.room 1 then some (pushHeaderBeat s)
  else none

/-- WRHDR (R216). A step that is not enabled changes nothing. -/
def execWrhdr (s : State) : Host.Outcome State Fault Refusal :=
  accept .wrhdr s fun s => .next ((headerStep s).getD s)

/-- HPREV = 256: "no record accepted yet" (R47, R223). -/
def noRecordYet : BitVec 9 := 256#9

/-- RDHDR, acceptance step (R223). -/
def execRdhdr (s : State) : Host.Outcome State Fault Refusal :=
  accept .rdhdr s fun s =>
    .next { s with cur := .rdhdr, hstage := 0#1, hbuf := [], hi := 0#9, hprev := noRecordYet }

/-- RDHDR, the K field is complete (R225). -/
def rdhdrCount (s : State) : State :=
  let k := s32 s.cfg.endian s.hbuf
  if k < 1 ∨ 256 < k then raiseFault .malformed true s
  else { s with k := BitVec.ofInt 9 k, hstage := 1#1, hi := 1#9, hbuf := [] }

/-- RDHDR, record accepted: leaf HI is seeded; after record K the header is complete (R227). -/
def seedRecord (sym : Byte) (f : Word) (s : State) : State :=
  let t := { s with
    node  := putNode s.node s.hi.toNat (leafNode sym f)
    total := s.total + f
    hprev := sym.setWidth 9
    hbuf  := [] }
  if s.hi = s.k then
    { t with
      nn := s.k.setWidth 10, hstage := 0#1, hi := 0#9, hprev := 0#9,
      phase := .hdrRead, cur := .none, err := .ok }
  else { t with hi := s.hi + 1 }

/-- The three checks of R226, in the order written: frequency below 1; byte value not above the previous one; sum
above MAX_LEN. -/
def recordRefused (sym : Byte) (f : Int) (s : State) : Bool :=
  decide (f < 1)
    || (s.hprev != noRecordYet && decide (sym.toNat ≤ s.hprev.toNat))
    || decide ((s.cfg.maxLen : Int) < s.total.toNat + f)

/-- RDHDR, record HI is complete (R226). -/
def rdhdrRecord (s : State) : State :=
  let sym := s.hbuf.headD 0#8
  let f := s32 s.cfg.endian s.hbuf.tail
  if recordRefused sym f s then raiseFault .malformed true s
  else seedRecord sym (BitVec.ofInt 32 f) s

/-- RDHDR, data beat: the byte is taken up, then the field or record is used if it is complete (R224). -/
def rdhdrData (d : Byte) (s : State) : State :=
  let t := { s with hbuf := s.hbuf ++ [d] }
  if t.hstage = 0#1 ∧ t.hbuf.length = 4 then rdhdrCount t
  else if t.hstage = 1#1 ∧ t.hbuf.length = 5 then rdhdrRecord t
  else t

/-- RDHDR, per-beat step (R224): an EOS inside the header is E_MALFORMED, not draining. -/
def rdhdrBeat (s : State) (b : Beat) : State :=
  if b.eos then raiseFault .malformed false s else rdhdrData b.data s

end Sys2Proof.Machine
end

