-- ==== Sys2Proof/Machine/Control.lean ====
section
/-! DEFINITION. CLEAR, HALT and DRAIN, the sequencer's own commands (46_control.md). -/

namespace Sys2Proof.Machine

open Sys2Proof

/-- CLEAR (R248). -/
def execClear (s : State) : Host.Outcome State Fault Refusal :=
  accept .clear s fun s => .next { clearState s with phase := .idle, err := .ok }

/-- HALT (R250). -/
def execHalt (s : State) : Host.Outcome State Fault Refusal :=
  accept .halt s fun s => .next { s with phase := .halted, err := .ok }

/-- DRAIN, acceptance step (R252). -/
def execDrain (s : State) : Host.Outcome State Fault Refusal :=
  accept .drain s fun s => .next { s with cur := .drain, err := .ok }

/-- Draining, per-beat step (R253): data is discarded, EOS ends it; neither ERR nor PHASE is written. -/
def drainBeat (s : State) (b : Beat) : State :=
  if b.eos then { s with cur := .none } else s

end Sys2Proof.Machine
end

