-- ==== Sys2Proof/Machine/Encode.lean ====
section
/-! DEFINITION. ENCODE, the Bit Packer (43_encode.md). -/

namespace Sys2Proof.Machine

open Sys2Proof

/-- ENCODE, acceptance step (R176). -/
def execEncode (s : State) : Host.Outcome State Fault Refusal :=
  accept .encode s fun s => .next { s with cur := .encode, acc := [] }

/-- ENCODE, data beat: the code's bits are appended and whole bytes pushed (R178); a byte without a code closes the
OUT frame and is E_NOCODE, draining (R179). -/
def encodeData (d : Byte) (s : State) : State :=
  if (s.codeAt d).len = 0#8 then raiseFault .noCode true (pushOut [eosBeat] s)
  else
    let r := packPending (s.acc ++ (s.codeAt d).bits)
    { pushOut (dataBeats r.1) s with acc := r.2 }

/-- The bytes of the final flush: one zero-padded byte if bits are pending, else none (R180). -/
def flushBytes (acc : List Bit) : List Byte := if acc = [] then [] else [pack8 (padZeros acc)]

/-- ENCODE, EOS beat: flush, close the frame, end the operation (R180). -/
def encodeEos (s : State) : State :=
  { clearState (pushOut (dataBeats (flushBytes s.acc) ++ [eosBeat]) s) with
    phase := .idle, cur := .none, err := .ok }

/-- ENCODE, per-beat step (R177). -/
def encodeBeat (s : State) (b : Beat) : State :=
  if b.eos then encodeEos s else encodeData b.data s

end Sys2Proof.Machine
end

