-- ==== Sys2Proof/Machine/GenCode.lean ====
section
/-! DEFINITION. GENCODE, the Code Table Generator (42_gencode.md). -/

namespace Sys2Proof.Machine

open Sys2Proof

/-- The bit of one upward move from `cur` to its parent `p`: 0 if `cur` is the left child, else 1 (R162). -/
def branchBit (t : Table Node) (p cur : Index) : Bit :=
  if (nodeIn t p.toNat).left = cur then false else true

/-- The loop of `code_of_leaf` (R162): each bit goes in at the front. `none` if `fuel` moves do not reach a node
without a parent. -/
def walkUp (t : Table Node) : Nat → Index → List Bit → Option (List Bit)
  | 0,        _,   _ => none
  | fuel + 1, cur, c =>
    let p := (nodeIn t cur.toNat).parent
    if p = 0#9 then some c else walkUp t fuel p (branchBit t p cur :: c)

/-- `code_of_leaf(i)` (R162). 512 nodes exist, so a walk that ends visits at most 512 of them; one that goes on longer
runs in a circle for ever. -/
def codeOfLeaf (t : Table Node) (i : Nat) : Option (List Bit) := walkUp t 512 (BitVec.ofNat 9 i) []

/-- CODE[b] <- (|c|, c) (R161, R164). -/
def putCode (ct : Table Code) (b : Byte) (c : List Bit) : Table Code :=
  Table.write Code.absent ct b.toNat ⟨BitVec.ofNat 8 c.length, c⟩

/-- The codes of the listed leaves entered one after another (R161); `none` if the walk of one does not end. -/
def enterCodes (t : Table Node) : List Nat → Table Code → Option (Table Code)
  | [],      ct => some ct
  | i :: is, ct =>
    match codeOfLeaf t i with
    | none   => none
    | some c => enterCodes t is (putCode ct (nodeIn t i).sym c)

/-- The code table: [1] for the only symbol when K = 1 (R163), else the walk of every leaf (R161). -/
def genCodes (s : State) : Option (Table Code) :=
  if s.k.toNat = 1 then some (putCode s.code (s.nodeAt 1).sym [true])
  else enterCodes s.node (leafIndices s.k.toNat) s.code

/-- GENCODE (R161). -/
def execGencode (s : State) : Host.Outcome State Fault Refusal :=
  accept .gencode s fun s =>
    match genCodes s with
    | none    => .fault .walkDoesNotEnd
    | some ct => .next { s with code := ct, phase := .coded, err := .ok }

end Sys2Proof.Machine
end

