-- ==== Sys2Proof/Machine/Scan.lean ====
section
/-! DEFINITION. SCAN, the Frequency Scanner (40_scan.md). -/

namespace Sys2Proof.Machine

open Sys2Proof

/-- SCAN, acceptance step (R121). -/
def execScan (s : State) : Host.Outcome State Fault Refusal :=
  accept .scan s fun s => .next { s with cur := .scan }

/-- The 256 byte values, ascending (R125). -/
def byteValues : List Byte := (List.range 256).map (BitVec.ofNat 8)

/-- One round of the seeding loop of R125: a byte value that occurred becomes the next leaf. -/
def seedByte (s : State) (b : Byte) : State :=
  if s.freqAt b = 0#32 then s
  else
    let k := s.k + 1
    { s with k := k, node := putNode s.node k.toNat (leafNode b (s.freqAt b)) }

/-- SCAN, EOS beat: the leaves are seeded in ascending byte value (R125); an empty frame is E_EMPTY (R126). -/
def scanEos (s : State) : State :=
  let t := byteValues.foldl seedByte { s with k := 0#9 }
  let t := { t with nn := t.k.setWidth 10 }
  if t.k = 0#9 then raiseFault .empty false t
  else { t with phase := .scanned, cur := .none, err := .ok }

/-- SCAN, data beat (R123); one beat too many is E_OVERFLOW, draining (R124). -/
def scanData (d : Byte) (s : State) : State :=
  if s.total.toNat = s.cfg.maxLen then raiseFault .overflow true s
  else { s.setFreq d (s.freqAt d + 1) with total := s.total + 1 }

/-- SCAN, per-beat step (R122); the beat has been popped. -/
def scanBeat (s : State) (b : Beat) : State :=
  if b.eos then scanEos s else scanData b.data s

end Sys2Proof.Machine
end

