-- ==== Sys2Proof/Machine/Unpack.lean ====
section
/-! DEFINITION. DECODE, the Bit Unpacker (44_decode.md). -/

namespace Sys2Proof.Machine

open Sys2Proof

/-- The root as a value of PTR: 2K - 1 (R197). -/
def rootPtr (s : State) : Index := BitVec.ofNat 9 (rootIndex s.k.toNat)

/-- DECODE, acceptance step (R196, R197). -/
def execDecode (s : State) : Host.Outcome State Fault Refusal :=
  accept .decode s fun s =>
    .next { s with cur := .decode, remain := s.total, ptr := rootPtr s }

/-- The child a bit leads to: 1 goes right, 0 goes left (R200). -/
def childOf (n : Node) (b : Bit) : Index := if b then n.right else n.left

/-- DECODE, last byte produced (R201): the OUT frame is closed, the operation ends, the rest of the input frame is
drained. -/
def finishDecode (s : State) : State :=
  { clearState (pushOut [eosBeat] s) with err := .ok, phase := .idle, cur := .drain }

/-- One byte is produced at leaf PTR (R200). -/
def emitSymbol (s : State) : State :=
  { pushOut [dataBeat (s.nodeAt s.ptr.toNat).sym] s with remain := s.remain - 1 }

/-- The loop of R200 over the bits not yet looked at. A leaf is told by PTR <= K; when REMAIN reaches 0 the rest of the
bits is not looked at. -/
def walkBits : List Bit → State → State
  | [],      s => s
  | b :: bs, s =>
    let t := { s with ptr := childOf (s.nodeAt s.ptr.toNat) b }
    if t.ptr.toNat ≤ t.k.toNat then
      let u := emitSymbol t
      if u.remain = 0#32 then finishDecode u
      else walkBits bs { u with ptr := rootPtr u }
    else walkBits bs t

/-- DECODE, data beat: bits 7 down to 0 (R200). -/
def decodeData (d : Byte) (s : State) : State := walkBits (byteBits d) s

/-- DECODE, EOS beat while bytes are still to be produced (R202): E_MALFORMED, not draining. -/
def decodeEos (s : State) : State := raiseFault .malformed false (pushOut [eosBeat] s)

/-- DECODE, per-beat step (R198). -/
def decodeBeat (s : State) (b : Beat) : State :=
  if b.eos then decodeEos s else decodeData b.data s

end Sys2Proof.Machine
end

