-- ==== Sys2Proof/Machine/Inspect.lean ====
section
/-! DEFINITION. The inspection port (R64 to R66, R108 to R113). -/

namespace Sys2Proof.Machine

open Sys2Proof

/-- NODE_LINK[i] (R111): parent in bits 8:0, left in 17:9, right in 26:18, bits 31:27 zero. -/
def linkWord (n : Node) : Word := 0#5 ++ n.right ++ n.left ++ n.parent

/-- CODE_BITS[b][j] (R112): bit (31 - t) is bit 32j + t of the code, 0 past its length. -/
def codeBitsWord (c : Code) (j : Nat) : Word :=
  BitVec.ofNat 32 (bitsNat ((List.range 32).map fun t =>
    if 32 * j + t < c.len.toNat then c.bits.getD (32 * j + t) false else false))

/-- The architected word at an address (R108 to R113); an address the map does not assign reads 0 (R66). -/
def architectedWord (s : State) (addr : BitVec 16) : Word :=
  let a := addr.toNat
  if a = 0x0000 then s.cfg.idValue
  else if a = 0x0001 then statusWord s
  else if a = 0x0002 then s.k.setWidth 32
  else if a = 0x0003 then s.nn.setWidth 32
  else if a = 0x0004 then s.total
  else if 0x0100 ≤ a ∧ a < 0x0200 then s.freqAt (BitVec.ofNat 8 (a - 0x0100))
  else if 0x0200 ≤ a ∧ a < 0x0400 then (s.nodeAt (a - 0x0200)).weight
  else if 0x0400 ≤ a ∧ a < 0x0600 then linkWord (s.nodeAt (a - 0x0400))
  else if 0x0600 ≤ a ∧ a < 0x0800 then (s.nodeAt (a - 0x0600)).sym.setWidth 32
  else if 0x0800 ≤ a ∧ a < 0x0900 then (s.codeAt (BitVec.ofNat 8 (a - 0x0800))).len.setWidth 32
  else if 0x1000 ≤ a ∧ a < 0x1800 then
    codeBitsWord (s.codeAt (BitVec.ofNat 8 ((a - 0x1000) / 8))) ((a - 0x1000) % 8)
  else 0#32

/-- An address that is architected while BUSY = 1: only ID and STATUS (R65). -/
def alwaysArchitected (addr : BitVec 16) : Bool := addr == 0#16 || addr == 1#16

/-- The read is a draw (R65, U17). -/
def isDraw (s : State) (addr : BitVec 16) : Bool := s.busy && !alwaysArchitected addr

/-- `inspect(addr)` (R64 to R66): the word the host receives. A draw is the free value. -/
def inspectWord (s : State) (addr : BitVec 16) : Word :=
  if isDraw s addr then Config.inspectDraw s.host.draws else architectedWord s addr

end Sys2Proof.Machine
end

