-- ==== Sys2Proof/Machine/Stream.lean ====
section
/-! DEFINITION. The block's own step: one beat of the stream command in progress (R74, R83). -/

namespace Sys2Proof.Machine

open Sys2Proof

/-- The per-beat rule of the command in progress, applied to a beat that has been popped (R122, R177, R198, R224, R253). -/
def beatEffect (s : State) (b : Beat) : State :=
  match s.cur with
  | .none   => s
  | .scan   => scanBeat s b
  | .encode => encodeBeat s b
  | .rdhdr  => rdhdrBeat s b
  | .decode => decodeBeat s b
  | .drain  => drainBeat s b

/-- `beat_step` (R74, R83): enabled "exactly when CUR is not NONE and INQ is not empty", and when OUTQ has room for
the beats it pushes (R84 (b)). `none` when it is not enabled. -/
def beatStep (s : State) : Option State :=
  if s.busy then
    match s.inq with
    | []        => none
    | b :: rest => whenRoom s (beatEffect { s with inq := rest } b)
  else none

/-- The block's turn: its step if one is enabled, else it waits and nothing changes (R84, log 2). -/
def blockTurn (s : State) : State := (beatStep s).getD s

end Sys2Proof.Machine
end

