-- ==== Sys2Proof/Machine/HostPort.lean ====
section
/-! DEFINITION. The actions of R83: when each is enabled and what it does. -/

namespace Sys2Proof.Machine

open Sys2Proof

/-- `issue(w)`, the acceptance step (R240): an illegal word is E_ILLEGAL (R241); a command goes to `exec`, which checks
the phase. -/
def issueWord (w : Byte) (s : State) : Host.Outcome State Fault Refusal :=
  match decode w with
  | .error _ => .next (illegalWord s)
  | .ok i    => exec i s

/-- When an action is enabled (R83). The block's turn is always its own to take or to pass. -/
def enabled (a : Action) (s : State) : Bool :=
  match a with
  | .issue _   => s.ready
  | .pushIn _  => s.inRoom
  | .popOut    => s.outq != []
  | .inspect _ => true
  | .reset     => true
  | .beatStep  => true

/-- The first `n` beats of OUTQ go to the host, "in the order pushed" (R63). -/
def takeOut (n : Nat) (s : State) : State :=
  { s with outq := s.outq.drop n, host := { s.host with popped := s.host.popped ++ s.outq.take n } }

/-- `pop_out()` (R63, R83): the head of OUTQ goes to the host. -/
def popOut (s : State) : State := takeOut 1 s

/-- `inspect(addr)` (R64): the host has one more word; the block does not change. A draw uses up one free value. -/
def inspectPort (addr : BitVec 16) (s : State) : State :=
  { s with host := { s.host with
      reads := s.host.reads ++ [(addr, inspectWord s addr)]
      draws := if isDraw s addr then s.host.draws + 1 else s.host.draws } }

/-- `reset()` (R290): every element of the block's state takes its reset value. What the host has received stays with
the host (R291), and the parameters are not state (R8). -/
def resetBlock (s : State) : State := { State.reset with cfg := s.cfg, host := s.host }

/-- The state with the rest of the host's script. -/
def withScript (as : List Action) (s : State) : State := { s with host := { s.host with script := as } }

/-- The host holds a WRHDR word at CMD whose step waits for room in OUTQ (R61, R84 (b)). The word is not accepted yet. -/
def State.headerWaits (s : State) : Bool :=
  match s.host.script with
  | .issue w :: _ => w == encode .wrhdr && s.ready && s.phase == .coded && !s.room (headerBytes s).length
  | _             => false

/-- The host's next action, and its script once the action is taken: the head of the script, which is all the host does until it
is enabled. That a host which waits at one port (a word while BUSY or HALTED, a push at a full INQ, a pop at an empty OUTQ) takes
nothing behind the held action, not even a reset, is the model's DESIGN CHOICE (log 19). While a WRHDR word waits for room the host holds it and
goes on at the other ports, since "lifted by host `pop_out`" (R84 (b), log 6); a reset takes the word back. -/
def hostTurn (s : State) : Option (Action × List Action) :=
  match s.host.script with
  | []      => none
  | a :: as =>
    if s.headerWaits then
      match as with
      | []           => none
      | .issue _ :: _ => none
      | .reset :: bs => some (.reset, bs)
      | b :: bs      => some (b, a :: bs)
    else some (a, as)

/-- The step of a WRHDR word that waits at CMD, if it is enabled; the word is accepted when the header is written. -/
def headerTurn (s : State) : State :=
  match headerStep s with
  | none   => s
  | some t => if t.phase = .coded then t else withScript t.host.script.tail t

/-- What happens when the host does nothing else, its script being `as` from then on: the block has its turn, or the word at
CMD has its step if it waits for room. -/
def turn (as : List Action) (s : State) : State :=
  if s.headerWaits then headerTurn (withScript as s) else blockTurn (withScript as s)

/-- The host's script without its next `n` pops, everything else in order; `none` if the host does not pop so often before its
next word or reset. -/
def afterPops : Nat → List Action → Option (List Action)
  | 0,     as                 => some as
  | _ + 1, []                 => none
  | n + 1, .popOut :: as      => afterPops n as
  | _ + 1, .issue _ :: _      => none
  | _ + 1, .reset :: _        => none
  | n + 1, .pushIn b :: as    => (afterPops (n + 1) as).map (.pushIn b :: ·)
  | n + 1, .inspect addr :: as => (afterPops (n + 1) as).map (.inspect addr :: ·)
  | n + 1, .beatStep :: as    => (afterPops (n + 1) as).map (.beatStep :: ·)

/-- A beat that pushes more beats than OUT_DEPTH, while the host stands at an empty OUTQ to pop: no OUTQ of this depth takes
them all, so the wait is lifted by the host's pops themselves (R84 (b), R309, log 6). The host takes as many of the first beats
as do not find a place, the others stay in OUTQ, and all of it is one indivisible step (R74). `none` if the host does not pop
often enough, or the beat needs no such help. -/
def handOver (s : State) : Option State :=
  match s.inq with
  | []        => none
  | b :: rest =>
    let t := beatEffect { s with inq := rest } b
    let excess := s.excess t.outq.length
    if s.busy && s.outq == [] && s.room 1 && excess != 0 then
      (afterPops excess s.host.script).map fun as => takeOut excess (withScript as t)
    else none

/-- What happens while the host holds `a` (R61, R84): the block has its turn; a host that stands at OUT takes beats that
find no place in OUTQ. -/
def heldTurn (a : Action) (s : State) : State :=
  match a with
  | .popOut => (handOver s).getD (turn s.host.script s)
  | .issue _ | .pushIn _ | .inspect _ | .reset | .beatStep => turn s.host.script s

/-- The effect of an enabled action (R83); `as` is the script after it. -/
def performAction (a : Action) (as : List Action) (s : State) : Host.Outcome State Fault Refusal :=
  match a with
  | .issue w      => issueWord w (withScript as s)
  | .pushIn b     => .next { withScript as s with inq := s.inq ++ [b] }
  | .popOut       => .next (popOut (withScript as s))
  | .inspect addr => .next (inspectPort addr (withScript as s))
  | .reset        => .next (resetBlock (withScript as s))
  | .beatStep     => .next (turn as s)

/-- One step (R83, log 1, log 2). The host's next action is performed if it is enabled. If it is not, the host holds it
(R61, R84), takes nothing that stands behind it (log 19), and the block has its turn (`heldTurn`), as it has when the host has no action to take. -/
def stepOnce (s : State) : Host.Outcome State Fault Refusal :=
  match hostTurn s with
  | none         => .next (turn s.host.script s)
  | some (a, as) => if enabled a s then performAction a as s else .next (heldTurn a s)

/-- The word at the head of the script, before what was there (log 3). -/
def offerWord (w : Byte) (s : State) : State := withScript (.issue w :: s.host.script) s

end Sys2Proof.Machine
end

