-- ==== Sys2Proof/Machine/Step.lean ====
section
/-! DEFINITION. One step of the machine, and how a word comes to be the next one it takes. -/

namespace Sys2Proof.Machine

open Sys2Proof

/-- One step (R83). -/
def step (s : State) : Host.Outcome State Fault Refusal := stepOnce s

/-- The command word placed where the block takes its next one: offered at CMD by the host (R61, log 3).
The block has no program memory (R32). -/
def State.withFetchWord (s : State) (nbits w : Nat) : State := offerWord (tableByte nbits w) s

end Sys2Proof.Machine
end

