-- ==== Sys2Proof/Safety.lean ====
section
/-! DEFINITION. What the spec says of every state of a run: the notions the claims are stated in. -/

namespace Sys2Proof.Safety

open Sys2Proof Sys2Proof.Machine

/-! ## Runs -/

/-- `n` steps lead from `s` to `t`, none of them a fault or a refusal. -/
def runs (n : Nat) (s t : State) : Prop := Host.Core.run Sys2Proof.core n s = .next t

/-- The run is over (R310). -/
def runOver (s : State) : Prop := s.phase = .halted ∧ s.cur = .none

/-- The two queues are unbounded, the default of R8. -/
def unbounded (c : Config) : Prop := c.inDepth = none ∧ c.outDepth = none

/-- A queue is within its depth (R49). -/
def withinDepth (depth : Option Nat) (q : List Beat) : Prop :=
  match depth with
  | none   => True
  | some d => q.length ≤ d

/-! ## Commands and phases -/

/-- The (command, phase) pairs of the table of R242, row by row. -/
def legalPairs : List (Instr × Phase) :=
  [(.clear, .idle), (.clear, .scanned), (.clear, .hdrRead), (.clear, .builtC), (.clear, .builtD), (.clear, .coded),
   (.clear, .hdrWritten),
   (.scan, .idle), (.rdhdr, .idle),
   (.build, .scanned), (.build, .hdrRead),
   (.gencode, .builtC), (.wrhdr, .coded), (.encode, .hdrWritten), (.decode, .builtD),
   (.halt, .idle), (.halt, .scanned), (.halt, .hdrRead), (.halt, .builtC), (.halt, .builtD), (.halt, .coded),
   (.halt, .hdrWritten),
   (.drain, .idle), (.drain, .scanned), (.drain, .hdrRead), (.drain, .builtC), (.drain, .builtD), (.drain, .coded),
   (.drain, .hdrWritten)]

/-- The moves of PHASE in the graph of R244 that are neither CLEAR, HALT nor a fault: the two paths. -/
def pathMoves : List (Phase × Phase) :=
  [(.idle, .scanned), (.scanned, .builtC), (.builtC, .coded), (.coded, .hdrWritten), (.hdrWritten, .idle),
   (.idle, .hdrRead), (.hdrRead, .builtD), (.builtD, .idle)]

/-! ## Frames -/

/-- A whole frame of data bytes, ended by an end-of-stream beat whose data bits are `junk` (R95, U18). -/
def frame (bytes : List Byte) (junk : Byte) : List Beat := dataBeats bytes ++ [⟨true, junk⟩]

/-- The distinct byte values of a sequence, ascending: what the Symbol list holds (R120, C3). -/
def distinctAscending (bytes : List Byte) : List Byte := byteValues.filter fun b => decide (b ∈ bytes)

/-! ## The per-operation state -/

/-- The per-operation state is the cleared state of R50: clearing would change nothing. -/
abbrev Cleared (s : State) : Prop := clearState s = s

/-- REMAIN, PTR, ACC and the header-parse state have their cleared values (R48). -/
abbrev HiddenCleared (s : State) : Prop :=
  s.remain = 0#32 ∧ s.ptr = 0#9 ∧ s.acc = [] ∧ s.hstage = 0#1 ∧ s.hi = 0#9 ∧ s.hbuf = [] ∧ s.hprev = 0#9

/-- The sum of the weights of leaves 1..k. -/
def weightSum (t : Table Node) (k : Nat) : Nat :=
  ((leafIndices k).map fun i => (nodeIn t i).weight.toNat).sum

/-- The sum of all entries of FREQ. -/
def freqSum (s : State) : Nat := (byteValues.map fun b => (s.freqAt b).toNat).sum

/-- Entries 1..k of a node table are a Symbol list: ascending byte values, weights at least 1 (R41). -/
structure SymbolList (t : Table Node) (k : Nat) : Prop where
  ascending : ∀ i j, 1 ≤ i → i < j → j ≤ k → (nodeIn t i).sym.toNat < (nodeIn t j).sym.toNat
  positive  : ∀ i, 1 ≤ i → i ≤ k → 1 ≤ (nodeIn t i).weight.toNat

/-- K symbols are recorded, 1 <= K <= 256, and TOTAL is the sum of their weights, at most MAX_LEN (R41, R23). -/
structure Symbols (s : State) : Prop where
  kPos     : 1 ≤ s.k.toNat
  kMax     : s.k.toNat ≤ 256
  list     : SymbolList s.node s.k.toNat
  total    : s.total.toNat = weightSum s.node s.k.toNat
  totalMax : s.total.toNat ≤ s.cfg.maxLen

/-- The nodes as SCAN and RDHDR leave them: leaves without links, nothing above them, NN = K (R125, R227, R22). -/
structure LeavesOnly (s : State) : Prop where
  nn     : s.nn.toNat = s.k.toNat
  leaves : ∀ i, 1 ≤ i → i ≤ s.k.toNat → s.nodeAt i = leafNode (s.nodeAt i).sym (s.nodeAt i).weight
  above  : ∀ i, s.k.toNat < i → s.nodeAt i = Node.zero

/-- The well-formed built tree of R43, (a) to (g). -/
structure TreeBuilt (s : State) : Prop where
  /-- (a) -/
  nn       : s.nn.toNat = rootIndex s.k.toNat
  /-- (b) -/
  children : 2 ≤ s.k.toNat → ∀ i, s.k.toNat < i → i ≤ rootIndex s.k.toNat →
    (s.nodeAt i).left ≠ (s.nodeAt i).right ∧
    1 ≤ (s.nodeAt i).left.toNat ∧ (s.nodeAt i).left.toNat < i ∧
    1 ≤ (s.nodeAt i).right.toNat ∧ (s.nodeAt i).right.toNat < i ∧
    (s.nodeAt (s.nodeAt i).left.toNat).parent.toNat = i ∧
    (s.nodeAt (s.nodeAt i).right.toNat).parent.toNat = i
  /-- (c) -/
  parents  : 2 ≤ s.k.toNat → ∀ i, 1 ≤ i → i < rootIndex s.k.toNat →
    s.k.toNat < (s.nodeAt i).parent.toNat ∧ i < (s.nodeAt i).parent.toNat ∧
    (s.nodeAt i).parent.toNat ≤ rootIndex s.k.toNat ∧
    (∀ p, s.k.toNat < p → p ≤ rootIndex s.k.toNat →
      ((s.nodeAt p).left.toNat = i ∨ (s.nodeAt p).right.toNat = i ↔ p = (s.nodeAt i).parent.toNat))
  root     : 2 ≤ s.k.toNat → (s.nodeAt (rootIndex s.k.toNat)).parent = 0#9
  /-- (d) -/
  weights  : 2 ≤ s.k.toNat → ∀ i, s.k.toNat < i → i ≤ rootIndex s.k.toNat →
    (s.nodeAt i).weight.toNat
      = (s.nodeAt (s.nodeAt i).left.toNat).weight.toNat + (s.nodeAt (s.nodeAt i).right.toNat).weight.toNat
  rootSum  : 2 ≤ s.k.toNat → (s.nodeAt (rootIndex s.k.toNat)).weight = s.total
  /-- (e) -/
  leaves   : 2 ≤ s.k.toNat → ∀ i, 1 ≤ i → i ≤ s.k.toNat → (s.nodeAt i).left = 0#9 ∧ (s.nodeAt i).right = 0#9
  /-- (f) -/
  single   : s.k.toNat = 1 → (s.nodeAt 1).left = 1#9 ∧ (s.nodeAt 1).right = 1#9 ∧ (s.nodeAt 1).parent = 0#9
  /-- (g) -/
  above    : ∀ i, s.nn.toNat < i → s.nodeAt i = Node.zero

/-- The code-table invariant of R44. A code's `bits` has exactly `len` bits (R42). -/
structure CodesFilled (s : State) : Prop where
  exact      : ∀ b, (s.codeAt b).bits.length = (s.codeAt b).len.toNat
  leaves     : ∀ i, 1 ≤ i → i ≤ s.k.toNat → 1 ≤ (s.codeAt (s.nodeAt i).sym).len.toNat
  walks      : 2 ≤ s.k.toNat → ∀ i, 1 ≤ i → i ≤ s.k.toNat →
    codeOfLeaf s.node i = some (s.codeAt (s.nodeAt i).sym).bits
  others     : ∀ b, (∀ i, 1 ≤ i → i ≤ s.k.toNat → (s.nodeAt i).sym ≠ b) → s.codeAt b = Code.absent
  noExtension : 2 ≤ s.k.toNat → ∀ i j, 1 ≤ i → i ≤ s.k.toNat → 1 ≤ j → j ≤ s.k.toNat → i ≠ j →
    ¬ (s.codeAt (s.nodeAt i).sym).bits <+: (s.codeAt (s.nodeAt j).sym).bits
  single     : s.k.toNat = 1 → (s.codeAt (s.nodeAt 1).sym).bits = [true]

/-! ## What holds in each phase -/

/-- SCAN is running: FREQ and TOTAL count, everything else is cleared (R121, R123). -/
structure Scanning (s : State) : Prop where
  cleared  : Cleared { s with freq := [], total := 0#32 }
  counts   : s.total.toNat = freqSum s
  totalMax : s.total.toNat ≤ s.cfg.maxLen

/-- RDHDR is running (R223 to R227): K is not read yet, or records 1 .. HI-1 have been accepted. -/
structure Parsing (s : State) : Prop where
  rest     : s.freq = [] ∧ s.code = [] ∧ s.nn = 0#10 ∧ s.remain = 0#32 ∧ s.ptr = 0#9 ∧ s.acc = []
  total    : s.total.toNat = weightSum s.node (s.hi.toNat - 1)
  totalMax : s.total.toNat ≤ s.cfg.maxLen
  count    : s.hstage = 0#1 → s.k = 0#9 ∧ s.hi = 0#9 ∧ s.hprev = noRecordYet ∧ s.node = [] ∧ s.hbuf.length < 4
  records  : s.hstage = 1#1 →
    s.k.toNat ≤ 256 ∧ 1 ≤ s.hi.toNat ∧ s.hi.toNat ≤ s.k.toNat ∧ s.hbuf.length < 5 ∧
    SymbolList s.node (s.hi.toNat - 1) ∧
    (∀ i, 1 ≤ i → i < s.hi.toNat → s.nodeAt i = leafNode (s.nodeAt i).sym (s.nodeAt i).weight) ∧
    (∀ i, s.hi.toNat ≤ i → s.nodeAt i = Node.zero) ∧
    (s.hi.toNat = 1 → s.hprev = noRecordYet) ∧
    (2 ≤ s.hi.toNat → s.hprev.toNat = (s.nodeAt (s.hi.toNat - 1)).sym.toNat)

/-- DECODE is running: at least one byte is still to come, and PTR is the root or an internal node (R200, R203). -/
structure Unpacking (s : State) : Prop where
  remainPos : 1 ≤ s.remain.toNat
  remainMax : s.remain.toNat ≤ s.total.toNat
  single    : s.k.toNat = 1 → s.ptr = 1#9
  inside    : 2 ≤ s.k.toNat → s.k.toNat < s.ptr.toNat ∧ s.ptr.toNat ≤ rootIndex s.k.toNat
  rest      : s.acc = [] ∧ s.hstage = 0#1 ∧ s.hi = 0#9 ∧ s.hbuf = [] ∧ s.hprev = 0#9

/-- The tables in a phase between two commands, or while a frame is drained (R51, R41, R43, R44). -/
def tablesIn (p : Phase) (s : State) : Prop :=
  match p with
  | .idle       => Cleared s
  | .scanned    => Symbols s ∧ LeavesOnly s ∧ s.code = []
  | .hdrRead    => Symbols s ∧ LeavesOnly s ∧ s.code = [] ∧ s.freq = []
  | .builtC     => Symbols s ∧ TreeBuilt s ∧ s.code = []
  | .builtD     => Symbols s ∧ TreeBuilt s ∧ s.code = [] ∧ s.freq = []
  | .coded      => Symbols s ∧ TreeBuilt s ∧ CodesFilled s
  | .hdrWritten => Symbols s ∧ TreeBuilt s ∧ CodesFilled s
  | .halted     => True

/-- What PHASE and CUR say of the rest of the state. A stream command runs only in its own phase (R242), and in HALTED none
does (R251). -/
def operation (s : State) : Prop :=
  match s.cur with
  | .none   => tablesIn s.phase s ∧ (s.phase ≠ .halted → HiddenCleared s)
  | .drain  => s.phase ≠ .halted ∧ tablesIn s.phase s ∧ HiddenCleared s
  | .scan   => s.phase = .idle ∧ Scanning s
  | .rdhdr  => s.phase = .idle ∧ Parsing s
  | .encode => s.phase = .hdrWritten ∧ tablesIn .hdrWritten s ∧ s.acc.length ≤ 7 ∧ HiddenCleared { s with acc := [] }
  | .decode => s.phase = .builtD ∧ tablesIn .builtD s ∧ Unpacking s

/-- E_IO is never raised and FAULTS bits 0 and 1 are never set (R260, R261). -/
abbrev FaultRecordLegal (s : State) : Prop :=
  s.err ≠ .io ∧ s.faults.getLsbD 0 = false ∧ s.faults.getLsbD 1 = false

/-- What the model's own field `sent` says (log 6): beats of a header are pushed only while its WRHDR word is at CMD, and
only of a header that no OUTQ of this depth could take whole. -/
def partSent (s : State) : Prop :=
  s.sent ≠ 0 →
    (∃ as, s.host.script = .issue (encode .wrhdr) :: as) ∧ s.cur = .none ∧ s.phase = .coded ∧
    s.fits (headerBytes s).length = false ∧ s.sent < (headerBytes s).length

/-- The invariant of every run: parameters in range, tables in canonical form, queues within their depths, a legal fault
record, what PHASE and CUR say, and what a split WRHDR says. -/
structure Sound (s : State) : Prop where
  cfg       : s.cfg.wf = true
  tables    : s.tablesWf = true
  inDepth   : withinDepth s.cfg.inDepth s.inq
  outDepth  : withinDepth s.cfg.outDepth s.outq
  record    : FaultRecordLegal s
  operation : operation s
  partSent  : partSent s

/-! ## The host's actions -/

/-- The host's next action is `a`, not a command word and not reset, and its script is `as` once it is taken: `a` is the head
of the script, or stands behind a WRHDR word that the host holds at CMD while its step waits for room (R84 (b)). -/
def HostGoesOn (s : State) (a : Action) (as : List Action) : Prop :=
  (∀ w, a ≠ .issue w) ∧ a ≠ .reset ∧
  ((s.headerWaits = false ∧ s.host.script = a :: as) ∨
    (s.headerWaits = true ∧ ∃ w bs, s.host.script = w :: a :: bs ∧ as = w :: bs))

/-- The host resets next, and its script is `as` from then on; a WRHDR word that waits for room is taken back. -/
def HostResets (s : State) (as : List Action) : Prop :=
  s.host.script = .reset :: as ∨ (s.headerWaits = true ∧ ∃ w, s.host.script = w :: .reset :: as)

/-! ## Room in OUTQ -/

/-- R74 and R84 (b) for a beat of state `s` that pushes the beats `out` and leads to `t`: with room in OUTQ for all of them it
is one step, else it waits. -/
structure BeatPushes (s : State) (out : List Beat) (t : State) : Prop where
  whole : s.room out.length = true → beatStep s = some t
  waits : s.room out.length = false → beatStep s = none

/-- `P` holds of some state of the run from `s` in which the host issues `words` and then does nothing but pop OUT, once it pops
often enough. -/
def WhileTheHostPops (s : State) (words : List Byte) (P : State → Prop) : Prop :=
  ∃ enough, ∀ m, enough ≤ m →
    ∃ n u, runs n (withScript (words.map .issue ++ List.replicate m .popOut) s) u ∧ P u

/-! ## Codes and payloads -/

/-- The node reached from `i` by following bits downwards, 0 to the left, 1 to the right (R200). -/
def descend (t : Table Node) (i : Index) (bits : List Bit) : Index :=
  bits.foldl (fun p b => childOf (nodeIn t p.toNat) b) i

/-- The walk of R200 as the spec tells it: `Reads s p bits symbols q` says that the bits, followed from node `p`, give
these symbols and stop at node `q`. Every node met on the way to a leaf is above K; at a leaf, told by its index being at
most K, its symbol is given and the walk starts again at the root; the bits after the last leaf meet nodes above K only. -/
inductive Reads (s : State) : Index → List Bit → List Byte → Index → Prop where
  | stop (p : Index) (bits : List Bit)
      (above : ∀ path, path <+: bits → path ≠ [] → s.k.toNat < (descend s.node p path).toNat) :
      Reads s p bits [] (descend s.node p bits)
  | leaf (p : Index) (path bits : List Bit) (symbols : List Byte) (q : Index) (moves : path ≠ [])
      (above : ∀ before, before <+: path → before ≠ [] → before ≠ path → s.k.toNat < (descend s.node p before).toNat)
      (atLeaf : (descend s.node p path).toNat ≤ s.k.toNat)
      (again : Reads s (rootPtr s) bits symbols q) :
      Reads s p (path ++ bits) ((s.nodeAt (descend s.node p path).toNat).sym :: symbols) q

/-- The concatenated codes of a byte sequence (R99, R181). -/
def codeBits (s : State) (bytes : List Byte) : List Bit := bytes.flatMap fun b => (s.codeAt b).bits

/-- A bit sequence cut into bytes, the last one zero-padded (R99): floor(B / 8) bytes and one more if bits are left. -/
def packAll (bits : List Bit) : List Byte :=
  (List.range ((bits.length + 7) / 8)).map fun j => pack8 (padZeros ((bits.drop (8 * j)).take 8))

/-! ## The host's scripts -/

/-- `push_in` of a whole frame (R114: `.in`, `.eos`). -/
def pushFrame (bytes : List Byte) : List Action := (dataBeats bytes ++ [eosBeat]).map Action.pushIn

/-- COMPRESS F of R115; each command waits until BUSY = 0, as the script notation has it. -/
def compressScript (bytes : List Byte) : List Action :=
  .issue 0x02 :: pushFrame bytes
    ++ [.issue 0x03, .issue 0x04, .issue 0x05, .issue 0x06] ++ pushFrame bytes

/-- DECOMPRESS C of R115. -/
def decompressScript (bytes : List Byte) : List Action :=
  .issue 0x07 :: pushFrame bytes ++ [.issue 0x03, .issue 0x08]

end Sys2Proof.Safety
end

