-- ==== Sys2Proof/Certificates/Slice0/Obligations.lean ====
section
/-! DEFINITION. The statements for the provers. Each docstring names the rules of spec/ it formalises.

`host` is the model's own record of the host (log 1, log 12): a statement that mentions its script, or that speaks of `step`
or of a run, rests on the model's choice of when a host action is taken and when the block has its turn (log 1, log 2), and
its basis is 'derived'. -/

open Sys2Proof Sys2Proof.Machine Sys2Proof.Safety

/-! ## Command words and acceptance -/

/-- R92, R93: every command has exactly one word, and no other word decodes to it. -/
def Obligations.EachCommandHasExactlyOneWord : Prop :=
  ∀ w i, decode w = .ok i ↔ w = encode i

/-- R92: the ten words of the opcode map, written out bit by bit. -/
def Obligations.OpcodeMapWordsDecode : Prop :=
  decode 0b00000001#8 = .ok .clear ∧ decode 0b00000010#8 = .ok .scan ∧ decode 0b00000011#8 = .ok .build ∧
  decode 0b00000100#8 = .ok .gencode ∧ decode 0b00000101#8 = .ok .wrhdr ∧ decode 0b00000110#8 = .ok .encode ∧
  decode 0b00000111#8 = .ok .rdhdr ∧ decode 0b00001000#8 = .ok .decode ∧ decode 0b00001001#8 = .ok .halt ∧
  decode 0b00001010#8 = .ok .drain

/-- R105, R241: which words are illegal, that they are 246, and that an accepted one records E_ILLEGAL and changes
nothing else, in every phase, so that the next word is accepted normally. The host's script is the model's (log 1). -/
def Obligations.IllegalWordOnlyRecordsItsFault : Prop :=
  (∀ w : Byte, (∃ e, decode w = .error e) ↔
      (w.extractLsb' 4 4 ≠ 0#4 ∨ w = 0x00#8 ∨ (0x0B#8 ≤ w ∧ w ≤ 0x0F#8))) ∧
  ((List.range 256).filter fun n => (decode (BitVec.ofNat 8 n)).toOption.isNone).length = 246 ∧
  (∀ s w as, (∃ e, decode w = .error e) → s.ready = true → s.host.script = .issue w :: as →
      step s = .next { withScript as s with err := .illegal, faults := s.faults ||| 0x08#8 } ∧
      ({ withScript as s with err := .illegal, faults := s.faults ||| 0x08#8 } : State).ready = true)

/-- R242, R243: a legal word in a phase the table does not list for it records E_SEQUENCE and changes nothing else. -/
def Obligations.WrongPhaseOnlyRecordsItsFault : Prop :=
  ∀ i s, s.ready = true → (i, s.phase) ∉ legalPairs →
    exec i s = .next { s with err := .sequence, faults := s.faults ||| 0x20#8 }

/-- R61, R240: when the host offers a word, the block is ready and the word is a command, the step is that command's
`exec` at the state in which the host's script has moved on (log 1); it is so too for a word placed by `withFetchWord` (log 3).
R73, R84 (b): only a WRHDR word can find no room for its step; the host holds it, and its step is still WRHDR's `exec`, taken when
the host takes no other action, with the word given up once the header is written (log 2, log 6). -/
def Obligations.StepRunsTheOfferedCommand : Prop :=
  (∀ s w as i, s.host.script = .issue w :: as → s.ready = true → s.headerWaits = false → decode w = .ok i →
      step s = exec i (withScript as s)) ∧
  (∀ s n i, s.ready = true → (s.withFetchWord 8 n).headerWaits = false → decode (BitVec.ofNat 8 n) = .ok i →
      step (s.withFetchWord 8 n) = exec i s) ∧
  (∀ s : State, s.headerWaits = true ↔ (∃ as, s.host.script = .issue 0x05#8 :: as) ∧ s.ready = true ∧ s.phase = .coded ∧
      s.room (4 + 5 * s.k.toNat) = false) ∧
  (∀ s w as, s.host.script = .issue w :: as → s.headerWaits = true →
      (∀ a bs, HostGoesOn s a bs → enabled a s = false) → (∀ bs, ¬ HostResets s bs) →
      ∃ t, exec .wrhdr s = .next t ∧ step s = .next (if t.phase = .coded then t else withScript as t)) ∧
  (∀ s w as, s.host.script = .issue w :: .beatStep :: as → s.headerWaits = true →
      ∃ t, exec .wrhdr s = .next t ∧
        step s = .next (if t.phase = .coded then withScript (.issue w :: as) t else withScript as t))

/-- R304, R61: a word offered while BUSY = 1 or in HALTED stays with the host: it is not queued, not dropped and not an
error. The block takes its own turn if it has one; with CUR = NONE nothing happens at all. That the word is held at the head of
the script and the block has its turn is the model's form of it (log 2).
R74, R83, R84 (a), R300: the block's step is enabled only while CUR is not NONE and INQ is not empty; otherwise its turn
changes nothing, in every phase. -/
def Obligations.WordIsHeldWhenNotAccepted : Prop :=
  (∀ s w as, s.host.script = .issue w :: as → s.ready = false →
    step s = .next (blockTurn s) ∧ (blockTurn s).host = s.host ∧ (s.cur = .none → step s = .next s)) ∧
  (∀ s, s.cur = .none ∨ s.inq = [] → beatStep s = none ∧ blockTurn s = s)

/-- R73, R74: an atomic command never leaves BUSY set, and a stream command in its phase sets CUR to itself. -/
def Obligations.AtomicCommandsNeverShowBusy : Prop :=
  (∀ i s t, i ∈ [Instr.clear, .build, .gencode, .wrhdr, .halt] → exec i s = .next t → t.busy = false) ∧
  (∀ s t, exec .scan s = .next t → legalIn .scan s.phase = true → t.cur = .scan) ∧
  (∀ s t, exec .encode s = .next t → legalIn .encode s.phase = true → t.cur = .encode) ∧
  (∀ s t, exec .rdhdr s = .next t → legalIn .rdhdr s.phase = true → t.cur = .rdhdr) ∧
  (∀ s t, exec .decode s = .next t → legalIn .decode s.phase = true → t.cur = .decode) ∧
  (∀ s t, exec .drain s = .next t → legalIn .drain s.phase = true → t.cur = .drain)

/-! ## CLEAR, HALT, DRAIN -/

/-- R248, R50: CLEAR, with its whole frame. -/
def Obligations.ClearDropsTheOperation : Prop :=
  ∀ s, s.ready = true →
    ∃ t, exec .clear s = .next t ∧
      t = { s with
        freq := t.freq, node := t.node, code := t.code, k := 0#9, nn := 0#10, total := 0#32, remain := 0#32, ptr := 0#9, acc := [],
        hstage := 0#1, hi := 0#9, hbuf := [], hprev := 0#9, phase := .idle, err := .ok } ∧
      (∀ b, t.freqAt b = 0#32) ∧ (∀ i, t.nodeAt i = Node.zero) ∧ (∀ b, t.codeAt b = Code.absent)

/-- R250: HALT, with its whole frame. -/
def Obligations.HaltKeepsEverythingElse : Prop :=
  ∀ s, s.ready = true → exec .halt s = .next { s with phase := .halted, err := .ok }

/-- R250, R251: in HALTED no step but reset changes PHASE, CUR, ERR, FAULTS, a scalar or a table; beats pushed to IN stay.
Reset is told by the head of the script (log 1). -/
def Obligations.OnlyResetLeavesHalted : Prop :=
  ∀ s t, runOver s → (∀ as, s.host.script ≠ .reset :: as) → step s = .next t →
    runOver t ∧ t = { s with host := t.host, inq := t.inq, outq := t.outq } ∧ (∃ more, t.inq = s.inq ++ more)

/-- R252: DRAIN's acceptance step, with its whole frame. -/
def Obligations.DrainIsAccepted : Prop :=
  ∀ s, s.ready = true → exec .drain s = .next { s with cur := .drain, err := .ok }

/-- R253: one beat is discarded, whatever set CUR to DRAIN; an EOS ends it; neither ERR nor PHASE is written. -/
def Obligations.DrainingDiscardsOneBeat : Prop :=
  ∀ s b rest, s.cur = .drain → s.inq = b :: rest →
    beatStep s = some { s with inq := rest, cur := if b.eos = true then .none else .drain }

/-- R95, R252 to R254: DRAIN consumes exactly one frame, through its EOS, and changes nothing but ERR and INQ. With an empty
script every step is the block's turn (log 2). -/
def Obligations.DrainConsumesOneFrame : Prop :=
  ∀ s bytes junk rest, s.ready = true → s.host.script = [] → s.inq = frame bytes junk ++ rest →
    ∃ t, exec .drain s = .next t ∧ runs (bytes.length + 1) t { s with err := .ok, inq := rest }

/-! ## SCAN -/

/-- R121: SCAN's acceptance step, with its whole frame. -/
def Obligations.ScanIsAccepted : Prop :=
  ∀ s, s.ready = true → s.phase = .idle → exec .scan s = .next { s with cur := .scan }

/-- R123: a data beat adds one to the byte's count and to TOTAL, and changes nothing else. -/
def Obligations.ScanCountsOneByte : Prop :=
  ∀ s d rest, s.cur = .scan → s.inq = dataBeat d :: rest → s.total.toNat ≠ s.cfg.maxLen → s.tablesWf = true →
    ∃ t, beatStep s = some t ∧
      t = { s with inq := rest, freq := t.freq, total := s.total + 1 } ∧
      t.freqAt d = s.freqAt d + 1 ∧ (∀ b, b ≠ d → t.freqAt b = s.freqAt b)

/-- R124: a data beat when TOTAL = MAX_LEN is E_OVERFLOW, draining; the beat is consumed and not counted. -/
def Obligations.ScanOverflowDrains : Prop :=
  ∀ s d rest, s.cur = .scan → s.inq = dataBeat d :: rest → s.total.toNat = s.cfg.maxLen →
    beatStep s = some { clearState s with
      inq := rest, err := .overflow, faults := s.faults ||| 0x40#8, phase := .idle, cur := .drain }

/-- R125, R126: at the EOS the byte values that occurred become leaves 1..K, ascending, with their counts; if none
occurred the frame is E_EMPTY, not draining. FREQ and TOTAL keep their values. -/
def Obligations.ScanSeedsTheLeavesInOrder : Prop :=
  ∀ s e rest, s.cur = .scan → s.inq = e :: rest → e.eos = true → s.tablesWf = true → s.node = [] →
    ((∃ b, s.freqAt b ≠ 0#32) →
      ∃ t, beatStep s = some t ∧
        t = { s with
          inq := rest, k := t.k, nn := t.nn, node := t.node, phase := .scanned, cur := .none, err := .ok } ∧
        t.nn.toNat = t.k.toNat ∧
        (leafIndices t.k.toNat).map t.nodeAt
          = (byteValues.filter fun b => decide (s.freqAt b ≠ 0#32)).map (fun b => leafNode b (s.freqAt b)) ∧
        (∀ i, t.k.toNat < i → t.nodeAt i = Node.zero)) ∧
    ((∀ b, s.freqAt b = 0#32) →
      beatStep s = some { clearState s with
        inq := rest, err := .empty, faults := s.faults ||| 0x04#8, phase := .idle, cur := .none })

/-- R129: SCAN over a whole frame. With an empty script every step is the block's turn (log 2). -/
def Obligations.ScanOfAFrameCountsIt : Prop :=
  ∀ s bytes junk rest, s.ready = true → s.phase = .idle → Cleared s → s.cfg.wf = true → s.host.script = [] →
    1 ≤ bytes.length → bytes.length ≤ s.cfg.maxLen → s.inq = frame bytes junk ++ rest →
    ∃ s1 t, exec .scan s = .next s1 ∧ runs (bytes.length + 1) s1 t ∧
      t = { s with
        inq := rest, freq := t.freq, total := t.total, k := t.k, nn := t.nn, node := t.node,
        phase := .scanned, err := .ok } ∧
      (∀ b, (t.freqAt b).toNat = bytes.count b) ∧ t.total.toNat = bytes.length ∧
      t.nn.toNat = t.k.toNat ∧
      (leafIndices t.k.toNat).map t.nodeAt
        = (distinctAscending bytes).map (fun b => leafNode b (BitVec.ofNat 32 (bytes.count b))) ∧
      (∀ i, t.k.toNat < i → t.nodeAt i = Node.zero)

/-! ## BUILD -/

/-- R142, R141: K = 1, the self-loop, with its whole frame. -/
def Obligations.BuildOfOneSymbolIsASelfLoop : Prop :=
  ∀ s, s.ready = true → s.phase = .scanned ∨ s.phase = .hdrRead → s.k = 1#9 → s.tablesWf = true →
    ∃ t, exec .build s = .next t ∧
      t = { s with
        node := t.node, nn := 1#10, phase := if s.phase = .scanned then .builtC else .builtD, err := .ok } ∧
      t.nodeAt 1 = { s.nodeAt 1 with left := 1#9, right := 1#9 } ∧ (∀ i, i ≠ 1 → t.nodeAt i = s.nodeAt i)

/-- R141, R149: BUILD completes for every K; NN is 2K - 1; PHASE says which path it is; it writes NODE 1..2K-1 only, and a
leaf keeps its symbol and weight (R41). -/
def Obligations.BuildWritesTheTreeOnly : Prop :=
  ∀ s, s.ready = true → s.phase = .scanned ∨ s.phase = .hdrRead → 1 ≤ s.k.toNat → s.k.toNat ≤ 256 →
    s.tablesWf = true →
    ∃ t, exec .build s = .next t ∧
      t = { s with
        node := t.node, nn := t.nn, phase := if s.phase = .scanned then .builtC else .builtD, err := .ok } ∧
      t.nn.toNat = 2 * s.k.toNat - 1 ∧
      (∀ i, 1 ≤ i → i ≤ s.k.toNat →
        (t.nodeAt i).sym = (s.nodeAt i).sym ∧ (t.nodeAt i).weight = (s.nodeAt i).weight) ∧
      (∀ i, 2 * s.k.toNat - 1 < i → t.nodeAt i = s.nodeAt i)

/-- R144, by the scan of R145: of the unmerged nodes below `num`, x is the least and y the second least in the order
(weight, index). -/
def Obligations.SelectionFindsTheTwoLeast : Prop :=
  ∀ (t : Table Node) (num i j : Nat), 1 ≤ i → i < j → j < num → (nodeIn t i).parent = 0#9 → (nodeIn t j).parent = 0#9 →
    ∃ x y, selectTwo t num = (x, y) ∧ x ≠ y ∧
      1 ≤ x ∧ x < num ∧ (nodeIn t x).parent = 0#9 ∧ 1 ≤ y ∧ y < num ∧ (nodeIn t y).parent = 0#9 ∧
      (∀ u, 1 ≤ u → u < num → (nodeIn t u).parent = 0#9 →
        ((nodeIn t x).weight < (nodeIn t u).weight ∨ ((nodeIn t x).weight = (nodeIn t u).weight ∧ x ≤ u)) ∧
        (u ≠ x →
          (nodeIn t y).weight < (nodeIn t u).weight ∨ ((nodeIn t y).weight = (nodeIn t u).weight ∧ y ≤ u)))

/-- R146: the node one iteration creates, and that it changes no node but that one and the parents of x and y. -/
def Obligations.MergeCreatesOneNode : Prop :=
  ∀ (t : Table Node) (num x y : Nat), Table.wf Node.zero 1 512 t = true → selectTwo t num = (x, y) →
    1 ≤ x → x < num → 1 ≤ y → y < num → x ≠ y → num < 512 →
    nodeIn (mergeStep t num) num
      = ⟨0#8, (nodeIn t x).weight + (nodeIn t y).weight, 0#9, BitVec.ofNat 9 x, BitVec.ofNat 9 y⟩ ∧
    nodeIn (mergeStep t num) x = { nodeIn t x with parent := BitVec.ofNat 9 num } ∧
    nodeIn (mergeStep t num) y = { nodeIn t y with parent := BitVec.ofNat 9 num } ∧
    (∀ i, i ≠ num → i ≠ x → i ≠ y → nodeIn (mergeStep t num) i = nodeIn t i)

/-- R150, R43: from seeded leaves BUILD makes a well-formed tree, with the same symbols. -/
def Obligations.BuildGrowsAWellFormedTree : Prop :=
  ∀ s, s.ready = true → s.phase = .scanned ∨ s.phase = .hdrRead → s.cfg.wf = true → s.tablesWf = true →
    Symbols s → LeavesOnly s →
    ∃ t, exec .build s = .next t ∧ TreeBuilt t ∧ Symbols t ∧ t.tablesWf = true

/-! ## GENCODE -/

/-- R161, R162, R164 to R166 for K >= 2: every leaf's walk ends, its code has 1 to K - 1 bits and stands in the entry of its
byte value; no other entry is written. -/
def Obligations.GencodeEntersEveryWalk : Prop :=
  ∀ s, s.ready = true → s.phase = .builtC → s.tablesWf = true → Symbols s → TreeBuilt s → 2 ≤ s.k.toNat →
    ∃ t, exec .gencode s = .next t ∧
      t = { s with code := t.code, phase := .coded, err := .ok } ∧
      (∀ i, 1 ≤ i → i ≤ s.k.toNat →
        ∃ c, codeOfLeaf s.node i = some c ∧ t.codeAt (s.nodeAt i).sym = ⟨BitVec.ofNat 8 c.length, c⟩ ∧
          1 ≤ c.length ∧ c.length ≤ s.k.toNat - 1) ∧
      (∀ b, (∀ i, 1 ≤ i → i ≤ s.k.toNat → (s.nodeAt i).sym ≠ b) → t.codeAt b = s.codeAt b)

/-- R163: for K = 1 the code of the only symbol is the single bit 1. -/
def Obligations.GencodeOfOneSymbolIsOne : Prop :=
  ∀ s, s.ready = true → s.phase = .builtC → s.tablesWf = true → s.k = 1#9 →
    ∃ t, exec .gencode s = .next t ∧
      t = { s with code := t.code, phase := .coded, err := .ok } ∧
      t.codeAt (s.nodeAt 1).sym = ⟨1#8, [true]⟩ ∧ (∀ b, b ≠ (s.nodeAt 1).sym → t.codeAt b = s.codeAt b)

/-- R160, R42: a code reads from root to leaf. Followed from the root it ends at its leaf, and before its last bit it has
met internal nodes only. -/
def Obligations.CodesLeadFromRootToLeaf : Prop :=
  ∀ s i c, s.tablesWf = true → Symbols s → TreeBuilt s → 2 ≤ s.k.toNat → 1 ≤ i → i ≤ s.k.toNat →
    codeOfLeaf s.node i = some c →
    (descend s.node (rootPtr s) c).toNat = i ∧
    (∀ p, p <+: c → p ≠ c → s.k.toNat < (descend s.node (rootPtr s) p).toNat)

/-- R167: for K >= 2 no code of the table is a beginning of another. -/
def Obligations.CodesAreBeginningFree : Prop :=
  ∀ s, s.ready = true → s.phase = .builtC → s.tablesWf = true → Symbols s → TreeBuilt s → 2 ≤ s.k.toNat →
    ∃ t, exec .gencode s = .next t ∧
      ∀ i j, 1 ≤ i → i ≤ s.k.toNat → 1 ≤ j → j ≤ s.k.toNat → i ≠ j →
        ¬ (t.codeAt (s.nodeAt i).sym).bits <+: (t.codeAt (s.nodeAt j).sym).bits

/-! ## The container -/

/-- R216, R218, R100: WRHDR pushes the K field and K records of five bytes, 4 + 5K data beats in all, and no EOS. With the
default ENDIAN each field is least significant byte first; with big the four bytes are reversed (R67).
R84 (b): while a finite OUTQ could hold the header but has no room for it, WRHDR waits; so does it while OUTQ is full. R73: a
header of more beats than OUT_DEPTH is split, one push a step, in order; only the last push writes PHASE and ERR (log 6). -/
def Obligations.WrhdrPushesTheHeader : Prop :=
  (∀ s, headerBytes s = intBytes s.cfg.endian (s.k.setWidth 32) ++
      (List.range' 1 s.k.toNat).flatMap
        (fun i => (s.nodeAt i).sym :: intBytes s.cfg.endian (s.nodeAt i).weight) ∧
    (headerBytes s).length = 4 + 5 * s.k.toNat) ∧
  (∀ v : Word, intBytes .little v = [v.extractLsb' 0 8, v.extractLsb' 8 8, v.extractLsb' 16 8, v.extractLsb' 24 8] ∧
    intBytes .big v = (intBytes .little v).reverse) ∧
  (∀ s, s.ready = true → s.phase = .coded →
    (s.room (4 + 5 * s.k.toNat) = true →
      exec .wrhdr s = .next { s with
        outq := s.outq ++ dataBeats (headerBytes s), phase := .hdrWritten, err := .ok }) ∧
    (s.room (4 + 5 * s.k.toNat) = false → s.fits (4 + 5 * s.k.toNat) = true → exec .wrhdr s = .next s) ∧
    (s.room 1 = false → exec .wrhdr s = .next s) ∧
    (s.fits (4 + 5 * s.k.toNat) = false → s.room 1 = true →
      (s.sent + 1 < 4 + 5 * s.k.toNat →
        exec .wrhdr s = .next { s with
          outq := s.outq ++ ((dataBeats (headerBytes s)).drop s.sent).take 1, sent := s.sent + 1 }) ∧
      (s.sent + 1 = 4 + 5 * s.k.toNat →
        exec .wrhdr s = .next { s with
          outq := s.outq ++ (dataBeats (headerBytes s)).drop s.sent, phase := .hdrWritten, err := .ok, sent := 0 })))

/-- R67, R100: reading a field gives back what was written, for either byte order; the signed reading is the two's-complement
one. -/
def Obligations.FieldReadsBackAsWritten : Prop :=
  ∀ (e : Endian) (v : Word), fieldWord e (intBytes e v) = v ∧ s32 e (intBytes e v) = v.toInt ∧
    (intBytes e v).length = 4

/-- R223: RDHDR's acceptance step, with its whole frame. -/
def Obligations.RdhdrIsAccepted : Prop :=
  ∀ s, s.ready = true → s.phase = .idle →
    exec .rdhdr s = .next { s with cur := .rdhdr, hstage := 0#1, hbuf := [], hi := 0#9, hprev := 256#9 }

/-- R224: an EOS inside the header is E_MALFORMED, not draining; a byte that completes nothing is only taken up. -/
def Obligations.RdhdrTakesUpBytes : Prop :=
  (∀ s e rest, s.cur = .rdhdr → s.inq = e :: rest → e.eos = true →
    beatStep s = some { clearState s with
      inq := rest, err := .malformed, faults := s.faults ||| 0x10#8, phase := .idle, cur := .none }) ∧
  (∀ s d rest, s.cur = .rdhdr → s.inq = dataBeat d :: rest →
    (s.hstage = 0#1 ∧ s.hbuf.length < 3) ∨ (s.hstage = 1#1 ∧ s.hbuf.length < 4) →
    beatStep s = some { s with inq := rest, hbuf := s.hbuf ++ [d] })

/-- R225, R228: the K field is complete. -/
def Obligations.RdhdrReadsTheCount : Prop :=
  ∀ s d rest, s.cur = .rdhdr → s.hstage = 0#1 → s.hbuf.length = 3 → s.inq = dataBeat d :: rest →
    ((s32 s.cfg.endian (s.hbuf ++ [d]) < 1 ∨ 256 < s32 s.cfg.endian (s.hbuf ++ [d])) →
      beatStep s = some { clearState s with
        inq := rest, err := .malformed, faults := s.faults ||| 0x10#8, phase := .idle, cur := .drain }) ∧
    (1 ≤ s32 s.cfg.endian (s.hbuf ++ [d]) → s32 s.cfg.endian (s.hbuf ++ [d]) ≤ 256 →
      ∃ t, beatStep s = some t ∧ (t.k.toNat : Int) = s32 s.cfg.endian (s.hbuf ++ [d]) ∧
        t = { s with inq := rest, k := t.k, hstage := 1#1, hi := 1#9, hbuf := [] })

/-- R226, R227, R228: record HI is complete. It is refused when its frequency is below 1, its byte value not above the
previous one, or the sum above MAX_LEN; else it becomes leaf HI, and after record K the header is complete. -/
def Obligations.RdhdrTakesARecord : Prop :=
  ∀ s sym field d rest f, s.cur = .rdhdr → s.hstage = 1#1 → s.hbuf = sym :: field → field.length = 3 →
    s.inq = dataBeat d :: rest → s.tablesWf = true → 1 ≤ s.hi.toNat → s.cfg.wf = true →
    f = s32 s.cfg.endian (field ++ [d]) →
    ((f < 1 ∨ (s.hprev ≠ 256#9 ∧ sym.toNat ≤ s.hprev.toNat) ∨ (s.cfg.maxLen : Int) < s.total.toNat + f) →
      beatStep s = some { clearState s with
        inq := rest, err := .malformed, faults := s.faults ||| 0x10#8, phase := .idle, cur := .drain }) ∧
    (1 ≤ f → (s.hprev = 256#9 ∨ s.hprev.toNat < sym.toNat) → (s.total.toNat : Int) + f ≤ s.cfg.maxLen →
      ∃ t w, beatStep s = some t ∧ (w.toNat : Int) = f ∧
        t.nodeAt s.hi.toNat = leafNode sym w ∧ (∀ i, i ≠ s.hi.toNat → t.nodeAt i = s.nodeAt i) ∧
        (t.total.toNat : Int) = s.total.toNat + f ∧
        (s.hi ≠ s.k →
          t = { s with
            inq := rest, node := t.node, total := t.total, hprev := sym.setWidth 9, hbuf := [], hi := s.hi + 1 }) ∧
        (s.hi = s.k →
          t = { s with
            inq := rest, node := t.node, total := t.total, hprev := 0#9, hbuf := [], hi := 0#9, hstage := 0#1,
            nn := s.k.setWidth 10, phase := .hdrRead, cur := .none, err := .ok }))

/-- R229, R227, R215: a header the block writes is accepted by RDHDR, after exactly 4 + 5K beats, and seeds the same leaves
with the same K and TOTAL; the rest of the frame is left in INQ and OUT is untouched. -/
def Obligations.WrittenHeaderIsReadBack : Prop :=
  ∀ w s rest, Symbols w → w.cfg.wf = true → s.cfg = w.cfg →
    s.ready = true → s.phase = .idle → Cleared s → s.host.script = [] →
    s.inq = dataBeats (headerBytes w) ++ rest →
    ∃ s1 t, exec .rdhdr s = .next s1 ∧ runs (4 + 5 * w.k.toNat) s1 t ∧
      t = { s with
        inq := rest, node := t.node, k := w.k, nn := t.nn, total := w.total, phase := .hdrRead, err := .ok } ∧
      t.nn.toNat = w.k.toNat ∧
      (∀ i, 1 ≤ i → i ≤ w.k.toNat → t.nodeAt i = leafNode (w.nodeAt i).sym (w.nodeAt i).weight) ∧
      (∀ i, w.k.toNat < i → t.nodeAt i = Node.zero)

/-! ## ENCODE -/

/-- R176: ENCODE's acceptance step, with its whole frame. -/
def Obligations.EncodeIsAccepted : Prop :=
  ∀ s, s.ready = true → s.phase = .hdrWritten → exec .encode s = .next { s with cur := .encode, acc := [] }

/-- R178, R84 (b): the code's bits join the pending bits; the whole bytes, first bit most significant, are pushed and fewer
than 8 bits stay. With too little room in a finite OUTQ the step waits (`BeatPushes`). -/
def Obligations.EncodePacksOneByte : Prop :=
  ∀ s d rest, s.cur = .encode → s.inq = dataBeat d :: rest → (s.codeAt d).len ≠ 0#8 →
    ∃ bytes left, s.acc ++ (s.codeAt d).bits = bytes.flatMap byteBits ++ left ∧ left.length < 8 ∧
      bytes.length = (s.acc.length + (s.codeAt d).bits.length) / 8 ∧
      BeatPushes s (dataBeats bytes) { s with inq := rest, acc := left, outq := s.outq ++ dataBeats bytes }

/-- R179, R84 (b): a byte without a code closes the OUT frame and is E_NOCODE, draining; pending bits are dropped. Without
room for the EOS beat the step waits (`BeatPushes`). -/
def Obligations.EncodeByteWithoutCodeDrains : Prop :=
  ∀ s d rest, s.cur = .encode → s.inq = dataBeat d :: rest → (s.codeAt d).len = 0#8 →
    BeatPushes s [⟨true, 0#8⟩] { clearState s with
      inq := rest, outq := s.outq ++ [⟨true, 0#8⟩], err := .noCode, faults := s.faults ||| 0x80#8,
      phase := .idle, cur := .drain }

/-- R180, R84 (b): at the EOS the pending bits are flushed as one zero-padded byte, or nothing if there are none; the OUT
frame is closed and the operation ends. Without room for these beats the step waits (`BeatPushes`). -/
def Obligations.EncodeFlushesAtTheEnd : Prop :=
  (∀ s e rest, s.cur = .encode → s.inq = e :: rest → e.eos = true → s.acc = [] →
    BeatPushes s [⟨true, 0#8⟩] { clearState s with
      inq := rest, outq := s.outq ++ [⟨true, 0#8⟩], phase := .idle, cur := .none, err := .ok }) ∧
  (∀ s e rest, s.cur = .encode → s.inq = e :: rest → e.eos = true → 1 ≤ s.acc.length → s.acc.length ≤ 7 →
    ∃ last, byteBits last = s.acc ++ List.replicate (8 - s.acc.length) false ∧
      BeatPushes s [dataBeat last, ⟨true, 0#8⟩] { clearState s with
        inq := rest, outq := s.outq ++ [dataBeat last, ⟨true, 0#8⟩], phase := .idle, cur := .none, err := .ok })

/-- R181: ENCODE over a whole frame whose bytes all have codes pushes the concatenated codes packed into bytes, and EOS;
OUTQ has room for the payload and EOS, as it always has without a finite OUT_DEPTH. -/
def Obligations.EncodePacksAWholeFrame : Prop :=
  ∀ s bytes junk rest, s.ready = true → s.phase = .hdrWritten → s.host.script = [] →
    s.room ((packAll (codeBits s bytes)).length + 1) = true →
    s.inq = frame bytes junk ++ rest → (∀ b, b ∈ bytes → (s.codeAt b).len ≠ 0#8) →
    ∃ s1, exec .encode s = .next s1 ∧
      runs (bytes.length + 1) s1
        { clearState s with
          inq := rest, outq := s.outq ++ dataBeats (packAll (codeBits s bytes)) ++ [eosBeat],
          phase := .idle, err := .ok }

/-! ## DECODE -/

/-- R197: DECODE's acceptance step, with its whole frame. -/
def Obligations.DecodeIsAccepted : Prop :=
  ∀ s, s.ready = true → s.phase = .builtD →
    exec .decode s = .next { s with cur := .decode, remain := s.total, ptr := BitVec.ofNat 9 (2 * s.k.toNat - 1) }

/-- R204, R84 (b): with K = 1 every bit, whatever its value, produces the symbol once, until REMAIN is 0 (R201). Without room
for the beats the step waits (`BeatPushes`). -/
def Obligations.DecodeOfOneSymbolRepeatsIt : Prop :=
  ∀ s d rest, s.cur = .decode → s.inq = dataBeat d :: rest → s.k = 1#9 → s.ptr = 1#9 →
    (s.nodeAt 1).left = 1#9 → (s.nodeAt 1).right = 1#9 →
    (8 < s.remain.toNat →
      BeatPushes s (List.replicate 8 (dataBeat (s.nodeAt 1).sym)) { s with
        inq := rest, outq := s.outq ++ List.replicate 8 (dataBeat (s.nodeAt 1).sym), remain := s.remain - 8 }) ∧
    (1 ≤ s.remain.toNat → s.remain.toNat ≤ 8 →
      BeatPushes s (List.replicate s.remain.toNat (dataBeat (s.nodeAt 1).sym) ++ [eosBeat]) { clearState s with
        inq := rest, outq := s.outq ++ List.replicate s.remain.toNat (dataBeat (s.nodeAt 1).sym) ++ [eosBeat],
        err := .ok, phase := .idle, cur := .drain })

/-- R200, R201, R203, R84 (b): one payload byte, whatever its bits, in a state of a run. The bytes pushed are the symbols of the
leaves that its bits reach from PTR (`Reads`), at most REMAIN of them; each takes one from REMAIN, and PTR stays inside the
tree. When REMAIN reaches 0 the operation ends at once, with EOS, and the rest of the frame is drained. Without room for the
beats the step waits (`BeatPushes`). -/
def Obligations.DecodeStaysInsideTheTree : Prop :=
  ∀ s d rest, Sound s → s.cur = .decode → s.inq = dataBeat d :: rest →
    ∃ bytes p, Reads s s.ptr (byteBits d) bytes p ∧ bytes.length ≤ 8 ∧
      (bytes.length < s.remain.toNat →
        ∃ t, Unpacking t ∧ t.remain.toNat + bytes.length = s.remain.toNat ∧
          t = { s with inq := rest, outq := s.outq ++ dataBeats bytes, ptr := p, remain := t.remain } ∧
          BeatPushes s (dataBeats bytes) t) ∧
      (s.remain.toNat ≤ bytes.length →
        BeatPushes s (dataBeats (bytes.take s.remain.toNat) ++ [eosBeat]) { clearState s with
          inq := rest, outq := s.outq ++ dataBeats (bytes.take s.remain.toNat) ++ [eosBeat],
          err := .ok, phase := .idle, cur := .drain })

/-- R202, R84 (b): an EOS while bytes are still to be produced closes the OUT frame and is E_MALFORMED, not draining. Without
room for the EOS beat the step waits (`BeatPushes`). -/
def Obligations.DecodePayloadTooShort : Prop :=
  ∀ s e rest, s.cur = .decode → s.inq = e :: rest → e.eos = true →
    BeatPushes s [⟨true, 0#8⟩] { clearState s with
      inq := rest, outq := s.outq ++ [⟨true, 0#8⟩], err := .malformed, faults := s.faults ||| 0x10#8,
      phase := .idle, cur := .none }

/-- R207, R201, R202, R205: DECODE over a whole frame. OUT receives the first TOTAL symbols that the bits of the payload give,
whatever the payload is and whatever its last bits are, and EOS; a payload that gives fewer leaves those it gives and
EOS, with E_MALFORMED. In particular DECODE undoes the packing: if the payload begins with the packed codes of a sequence of
TOTAL bytes, OUT receives that sequence and EOS, whatever follows in the frame. The codes are those GENCODE would derive
from the same tree. OUTQ has room for TOTAL bytes and EOS, as it always has without a finite OUT_DEPTH. -/
def Obligations.DecodeUndoesThePacking : Prop :=
  ∀ s junk rest, s.ready = true → s.phase = .builtD → s.host.script = [] → s.room (s.total.toNat + 1) = true →
    s.tablesWf = true → Symbols s → TreeBuilt s →
    (∀ codes bytes extra,
      genCodes { s with code := [] } = some codes → (∀ b, b ∈ bytes → (Table.read Code.absent codes b.toNat).len ≠ 0#8) →
      bytes.length = s.total.toNat →
      s.inq = frame (packAll (codeBits { s with code := codes } bytes) ++ extra) junk ++ rest →
      ∃ s1 n, exec .decode s = .next s1 ∧
        runs n s1
          { clearState s with
            inq := rest, outq := s.outq ++ dataBeats bytes ++ [eosBeat], phase := .idle, err := .ok }) ∧
    (∀ payload, s.inq = frame payload junk ++ rest →
      ∃ s1 symbols p, exec .decode s = .next s1 ∧ Reads s (rootPtr s) (payload.flatMap byteBits) symbols p ∧
        (s.total.toNat ≤ symbols.length →
          runs (payload.length + 1) s1
            { clearState s with
              inq := rest, outq := s.outq ++ dataBeats (symbols.take s.total.toNat) ++ [eosBeat],
              phase := .idle, err := .ok }) ∧
        (symbols.length < s.total.toNat →
          runs (payload.length + 1) s1
            { clearState s with
              inq := rest, outq := s.outq ++ dataBeats symbols ++ [eosBeat],
              phase := .idle, err := .malformed, faults := s.faults ||| 0x10#8 }))

/-! ## The round trip -/

/-- R311, R115 (the source's S1): "for all non-empty byte sequences, decompress(compress(input)) == input". From any state of a
run with PHASE = IDLE, the queues empty and unbounded, and MAX_LEN not exceeded, COMPRESS leaves one frame C on OUT, and
DECOMPRESS of C leaves the input on OUT; ERR is 0 after both, FAULTS is unchanged, and the block is in IDLE again. -/
def Obligations.DecompressUndoesCompress : Prop :=
  ∀ s bytes, Sound s → s.ready = true → s.phase = .idle → unbounded s.cfg → s.inq = [] → s.outq = [] →
    1 ≤ bytes.length → bytes.length ≤ s.cfg.maxLen → s.host.script = compressScript bytes →
    ∃ n container,
      runs n s { s with
        host := { s.host with script := [] }, outq := dataBeats container ++ [eosBeat], err := .ok } ∧
      ∀ r, r = { s with host := { s.host with script := decompressScript container }, err := .ok } →
        ∃ m, runs m r { s with host := { s.host with script := [] }, outq := dataBeats bytes ++ [eosBeat], err := .ok }

/-! ## Faults -/

/-- R273, R276: whatever fault a beat raises, in the same step it is recorded in ERR and FAULTS, the operation is dropped
and PHASE is IDLE; the input is drained exactly when the fault was raised on a data beat. -/
def Obligations.FaultEntryDropsTheOperation : Prop :=
  ∀ s t b rest, s.inq = b :: rest → beatStep s = some t →
    t.faults ≠ s.faults ∨ (t.err ≠ s.err ∧ t.err ≠ .ok) →
    t.err ≠ .ok ∧ t.faults = s.faults ||| (1#8 <<< t.err.val.toNat) ∧ Cleared t ∧ t.phase = .idle ∧
    t.cur = (if b.eos = true then .none else .drain) ∧ t.inq = rest

/-- R35: no step but reset clears a bit of FAULTS. -/
def Obligations.FaultsAreSticky : Prop :=
  ∀ s t n, step s = .next t → (∀ as, ¬ HostResets s as) →
    s.faults.getLsbD n = true → t.faults.getLsbD n = true

/-- R261, R260: no step makes ERR the reserved code 1 or sets FAULTS bit 0 or 1. -/
def Obligations.IoFaultIsNeverRecorded : Prop :=
  ∀ s t, FaultRecordLegal s → step s = .next t → FaultRecordLegal t

/-! ## Inspection -/

/-- R109, R33: the fields of STATUS. -/
def Obligations.StatusWordHasItsFields : Prop :=
  ∀ s, let w := inspectWord s 0x0001#16
    w.extractLsb' 0 4 = s.phase.val ∧ w.extractLsb' 4 4 = s.cur.val ∧ w.extractLsb' 8 4 = s.err.val ∧
    (w.getLsbD 12 = true ↔ s.cur ≠ .none) ∧ (w.getLsbD 13 = true ↔ s.phase = .halted) ∧
    w.extractLsb' 14 2 = 0#2 ∧ w.extractLsb' 16 8 = s.faults ∧ w.extractLsb' 24 8 = 0#8

/-- R108, R110 to R113, R66: the words of the map while BUSY = 0. The first bit of a code is bit 31 of its word 0. -/
def Obligations.InspectionMapReadsTheState : Prop :=
  ∀ s, s.busy = false →
    inspectWord s 0x0000#16 = s.cfg.idValue ∧
    inspectWord s 0x0002#16 = s.k.setWidth 32 ∧ inspectWord s 0x0003#16 = s.nn.setWidth 32 ∧
    inspectWord s 0x0004#16 = s.total ∧
    (∀ b : Byte, inspectWord s (0x0100#16 + b.setWidth 16) = s.freqAt b) ∧
    (∀ i : Index, inspectWord s (0x0200#16 + i.setWidth 16) = (s.nodeAt i.toNat).weight) ∧
    (∀ i : Index,
      (inspectWord s (0x0400#16 + i.setWidth 16)).extractLsb' 0 9 = (s.nodeAt i.toNat).parent ∧
      (inspectWord s (0x0400#16 + i.setWidth 16)).extractLsb' 9 9 = (s.nodeAt i.toNat).left ∧
      (inspectWord s (0x0400#16 + i.setWidth 16)).extractLsb' 18 9 = (s.nodeAt i.toNat).right ∧
      (inspectWord s (0x0400#16 + i.setWidth 16)).extractLsb' 27 5 = 0#5) ∧
    (∀ i : Index, inspectWord s (0x0600#16 + i.setWidth 16) = (s.nodeAt i.toNat).sym.setWidth 32) ∧
    (∀ b : Byte, inspectWord s (0x0800#16 + b.setWidth 16) = (s.codeAt b).len.setWidth 32) ∧
    (∀ a : BitVec 16,
      (5 ≤ a.toNat ∧ a.toNat < 0x0100) ∨ (0x0900 ≤ a.toNat ∧ a.toNat < 0x1000) ∨ 0x1800 ≤ a.toNat →
        inspectWord s a = 0#32) ∧
    (∀ (b : Byte) (j t : Nat), j < 8 → t < 32 →
      (inspectWord s (BitVec.ofNat 16 (0x1000 + 8 * b.toNat + j))).getLsbD (31 - t)
        = (decide (32 * j + t < (s.codeAt b).len.toNat) && (s.codeAt b).bits.getD (32 * j + t) false))

/-- R64, R65: an inspection changes nothing of the block; the host receives the word (log 1, log 12). While BUSY = 1 a read of
any address but ID and STATUS is a draw, the free value (log 5), of which nothing is assumed, and each draw is a new one. -/
def Obligations.InspectionIsReadOnly : Prop :=
  ∀ s addr as, HostGoesOn s (.inspect addr) as →
    ∃ word draws, step s = .next { s with host :=
        { s.host with script := as, reads := s.host.reads ++ [(addr, word)], draws := draws } } ∧
      (s.busy = false ∨ addr = 0x0000#16 ∨ addr = 0x0001#16 →
        word = architectedWord s addr ∧ draws = s.host.draws) ∧
      (s.busy = true → addr ≠ 0x0000#16 → addr ≠ 0x0001#16 →
        word = Config.inspectDraw s.host.draws ∧ draws = s.host.draws + 1)

/-! ## Reset -/

/-- R290, R291: reset at any time, in any state, gives every element of the block's state its reset value (R52); what the
host has popped stays with the host, and the parameters stay (log 11). A WRHDR word that waits for room is taken back (log 6). -/
def Obligations.ResetWorksFromEveryState : Prop :=
  ∀ s as, HostResets s as →
    step s = .next { State.reset with cfg := s.cfg, host := { s.host with script := as } }

/-- R52: the reset values, each table entry by entry. -/
def Obligations.ResetValuesAreAllZero : Prop :=
  State.reset.phase.val = 0#4 ∧ State.reset.cur.val = 0#4 ∧ State.reset.err.val = 0#4 ∧ State.reset.faults = 0#8 ∧
  State.reset.k = 0#9 ∧ State.reset.nn = 0#10 ∧ State.reset.total = 0#32 ∧ State.reset.remain = 0#32 ∧ State.reset.ptr = 0#9 ∧
  (∀ b, State.reset.freqAt b = 0#32) ∧
  (∀ i, State.reset.nodeAt i = ⟨0#8, 0#32, 0#9, 0#9, 0#9⟩) ∧
  (∀ b, (State.reset.codeAt b).len = 0#8 ∧ (State.reset.codeAt b).bits = []) ∧
  State.reset.acc = [] ∧ State.reset.hbuf = [] ∧ State.reset.hstage = 0#1 ∧ State.reset.hi = 0#9 ∧ State.reset.hprev = 0#9 ∧
  State.reset.inq = [] ∧ State.reset.outq = []

/-! ## Queues, order, control -/

/-- R62, R74, R80 (a) and (d): a step leaves INQ as it is, appends one beat the host pushes, takes its head in a step of a
stream command, or empties it by reset. R62, R83, R305: a push with room in INQ appends that beat and does nothing else, in
any phase, busy or not, and while a WRHDR word waits for room too (log 6); a push into a full INQ stays with the host, and the
block has its turn (log 2, log 18). -/
def Obligations.InQueueIsFirstInFirstOut : Prop :=
  (∀ s t, step s = .next t →
    t.inq = s.inq ∨
    (∃ b as, HostGoesOn s (.pushIn b) as ∧ t.inq = s.inq ++ [b]) ∨
    (s.busy = true ∧ ∃ b, s.inq = b :: t.inq) ∨
    (∃ as, HostResets s as ∧ t.inq = [])) ∧
  (∀ s b as, HostGoesOn s (.pushIn b) as → withinDepth s.cfg.inDepth (s.inq ++ [b]) →
    step s = .next { withScript as s with inq := s.inq ++ [b] }) ∧
  (∀ s b as, HostGoesOn s (.pushIn b) as → ¬ withinDepth s.cfg.inDepth (s.inq ++ [b]) →
    (s.headerWaits = false → step s = .next (blockTurn s) ∧ (blockTurn s).host = s.host) ∧
    (s.headerWaits = true → ∃ t, step s = .next t ∧ t.inq = s.inq ∧ .pushIn b ∈ t.host.script))

/-- R63: a step leaves OUTQ as it is, hands its head to the host, empties it by reset, or appends beats, of which a host that
stands at an empty OUTQ may take the first at once (log 6); beats are appended only inside WRHDR, ENCODE and DECODE. R63, R83: a pop takes the head of a non-empty OUTQ, hands it to the host and does nothing
else, while a WRHDR word waits for room too (R84 (b), log 6); with OUTQ empty it stays with the host, and the block has its turn
(log 2, log 12).
R74, R84 (b), R309: a beat that pushes more beats than OUT_DEPTH is one step with the pops that lift its wait: the host takes the
first of its beats, as many as find no place, and the others stay in OUTQ (log 6). -/
def Obligations.OutQueueIsFirstInFirstOut : Prop :=
  (∀ s t, step s = .next t →
    (t.outq = s.outq ∧ t.host.popped = s.host.popped) ∨
    (∃ b, s.outq = b :: t.outq ∧ t.host.popped = s.host.popped ++ [b]) ∨
    (∃ as, HostResets s as ∧ t.outq = [] ∧ t.host.popped = s.host.popped) ∨
    (t.host.popped = s.host.popped ∧ (∃ pushed, t.outq = s.outq ++ pushed) ∧
      (s.cur = .encode ∨ s.cur = .decode ∨
        (s.phase = .coded ∧ ∃ as, s.host.script = .issue 0x05#8 :: as))) ∨
    (s.outq = [] ∧ (s.cur = .encode ∨ s.cur = .decode) ∧ (∃ as, HostGoesOn s .popOut as) ∧
      ∃ (pushed : List Beat) (n : Nat), t.outq = pushed.drop n ∧ t.host.popped = s.host.popped ++ pushed.take n)) ∧
  (∀ s b rest as, HostGoesOn s .popOut as → s.outq = b :: rest →
    step s = .next { s with
      outq := rest, host := { s.host with script := as, popped := s.host.popped ++ [b] } }) ∧
  (∀ s as, HostGoesOn s .popOut as → s.outq = [] →
    (s.headerWaits = false → handOver s = none → step s = .next (blockTurn s) ∧ (blockTurn s).host = s.host) ∧
    (s.headerWaits = true →
      ∃ t, step s = .next t ∧ t.host.popped = s.host.popped ∧ .popOut ∈ t.host.script)) ∧
  (∀ s, (∀ b rest, s.inq = b :: rest → s.fits (beatEffect { s with inq := rest } b).outq.length = true) →
    handOver s = none) ∧
  (∀ s b rest pushed d more, s.cur ≠ .none → s.inq = b :: rest → s.outq = [] →
    (beatEffect { s with inq := rest } b).outq = pushed → s.cfg.outDepth = some d → 1 ≤ d → d < pushed.length →
    s.host.script = List.replicate (pushed.length - d) .popOut ++ more →
    step s = .next { beatEffect { s with inq := rest } b with
      outq := pushed.drop (pushed.length - d),
      host := { s.host with script := more, popped := s.host.popped ++ pushed.take (pushed.length - d) } })

/-- R79: a push and a pop by the host commute with the block's own step, a beat, and with that of a WRHDR, so their interleaving
changes nothing the block computes. R77: nor does a finite OUT_DEPTH: what a run of the block with an unbounded OUTQ computes and
pushes, the block with a finite one computes and pushes too while the host pops, whatever the OUT_DEPTH but 0 (log 6). -/
def Obligations.HostActionsCommuteWithBeats : Prop :=
  (∀ f, f = beatStep ∨ f = headerStep →
    (∀ s t b, f s = some t → f { s with inq := s.inq ++ [b] } = some { t with inq := t.inq ++ [b] }) ∧
    (∀ s t b rest, s.outq = b :: rest → f s = some t →
      f { s with outq := rest } = some { t with outq := t.outq.tail } ∧ t.outq.head? = some b)) ∧
  (∀ s t n, Sound s → s.host.script = [] → s.cfg.outDepth ≠ some 0 →
    runs n { s with cfg := { s.cfg with outDepth := none } } t →
    WhileTheHostPops s [] fun u =>
      u = { t with cfg := s.cfg, host := u.host, outq := u.outq } ∧
      u.host.popped ++ u.outq = s.host.popped ++ t.outq)

/-- R244, R242: in a run PHASE moves only along the two paths, to IDLE, or to HALTED by the HALT word. -/
def Obligations.PhaseMovesAlongTheGraph : Prop :=
  ∀ s t, Sound s → step s = .next t → t.phase ≠ s.phase →
    (s.phase, t.phase) ∈ pathMoves ∨ t.phase = .idle ∨
    (t.phase = .halted ∧ ∃ as, s.host.script = .issue 0x09#8 :: as)

/-! ## The invariant -/

/-- R52, R51, R293: the reset state is a state of a run, with every parameter in range. -/
def Obligations.InvariantHoldsAfterReset : Prop :=
  ∀ c : Config, c.wf = true → ∀ h : HostSide, Sound { State.reset with cfg := c, host := h }

/-- R12, R23, R40, R41, R43, R44, R46 to R48, R51, R261: every step keeps the invariant, and no step
changes a parameter (R8). -/
def Obligations.EveryStepKeepsTheInvariant : Prop :=
  ∀ s t, Sound s → step s = .next t → Sound t ∧ t.cfg = s.cfg

/-- R293, R203, R149, R309: in a state of a run every step answers a next state: no fault and no refusal is ever met.
R309, R305: while the host pops, a stream command ends once the rest of its frame is in INQ, and takes no beat of the next frame;
and a WRHDR ends with its whole header pushed (R73, R84 (b)); whatever the OUT_DEPTH but 0 (log 6). -/
def Obligations.NoStepOfARunStops : Prop :=
  (∀ s, Sound s → ∃ t, step s = .next t) ∧
  (∀ s bytes junk rest, Sound s → s.cur ≠ .none → s.inq = frame bytes junk ++ rest →
    s.cfg.outDepth ≠ some 0 →
    WhileTheHostPops s [] fun u => u.cur = .none ∧ rest <:+ u.inq) ∧
  (∀ s, Sound s → s.ready = true → s.phase = .coded → s.cfg.outDepth ≠ some 0 →
    WhileTheHostPops s [0x05#8] fun u =>
      u = { s with phase := .hdrWritten, err := .ok, sent := 0, host := u.host, outq := u.outq } ∧
      u.host.popped ++ u.outq = s.host.popped ++ s.outq ++ (dataBeats (headerBytes s)).drop s.sent)
end

