-- ==== Sys2Proof/Laws/State.lean ====
section
/-! SUPPORT. One lemma per field of State and shared operation, so that no proof unfolds a record update. -/

namespace Sys2Proof.Machine

open Sys2Proof

/-! ## recordFault -/

@[simp] theorem recordFault_cfg (e : Err) (s : State) : (recordFault e s).cfg = s.cfg := rfl
@[simp] theorem recordFault_host (e : Err) (s : State) : (recordFault e s).host = s.host := rfl
@[simp] theorem recordFault_phase (e : Err) (s : State) : (recordFault e s).phase = s.phase := rfl
@[simp] theorem recordFault_cur (e : Err) (s : State) : (recordFault e s).cur = s.cur := rfl
@[simp] theorem recordFault_err (e : Err) (s : State) : (recordFault e s).err = e := rfl
@[simp] theorem recordFault_faults (e : Err) (s : State) : (recordFault e s).faults = setFaultBit s.faults e := rfl
@[simp] theorem recordFault_k (e : Err) (s : State) : (recordFault e s).k = s.k := rfl
@[simp] theorem recordFault_nn (e : Err) (s : State) : (recordFault e s).nn = s.nn := rfl
@[simp] theorem recordFault_total (e : Err) (s : State) : (recordFault e s).total = s.total := rfl
@[simp] theorem recordFault_remain (e : Err) (s : State) : (recordFault e s).remain = s.remain := rfl
@[simp] theorem recordFault_ptr (e : Err) (s : State) : (recordFault e s).ptr = s.ptr := rfl
@[simp] theorem recordFault_freq (e : Err) (s : State) : (recordFault e s).freq = s.freq := rfl
@[simp] theorem recordFault_node (e : Err) (s : State) : (recordFault e s).node = s.node := rfl
@[simp] theorem recordFault_code (e : Err) (s : State) : (recordFault e s).code = s.code := rfl
@[simp] theorem recordFault_acc (e : Err) (s : State) : (recordFault e s).acc = s.acc := rfl
@[simp] theorem recordFault_hstage (e : Err) (s : State) : (recordFault e s).hstage = s.hstage := rfl
@[simp] theorem recordFault_hi (e : Err) (s : State) : (recordFault e s).hi = s.hi := rfl
@[simp] theorem recordFault_hbuf (e : Err) (s : State) : (recordFault e s).hbuf = s.hbuf := rfl
@[simp] theorem recordFault_hprev (e : Err) (s : State) : (recordFault e s).hprev = s.hprev := rfl
@[simp] theorem recordFault_inq (e : Err) (s : State) : (recordFault e s).inq = s.inq := rfl
@[simp] theorem recordFault_outq (e : Err) (s : State) : (recordFault e s).outq = s.outq := rfl
@[simp] theorem recordFault_sent (e : Err) (s : State) : (recordFault e s).sent = s.sent := rfl

/-! ## pushOut -/

@[simp] theorem pushOut_cfg (bs : List Beat) (s : State) : (pushOut bs s).cfg = s.cfg := rfl
@[simp] theorem pushOut_host (bs : List Beat) (s : State) : (pushOut bs s).host = s.host := rfl
@[simp] theorem pushOut_phase (bs : List Beat) (s : State) : (pushOut bs s).phase = s.phase := rfl
@[simp] theorem pushOut_cur (bs : List Beat) (s : State) : (pushOut bs s).cur = s.cur := rfl
@[simp] theorem pushOut_err (bs : List Beat) (s : State) : (pushOut bs s).err = s.err := rfl
@[simp] theorem pushOut_faults (bs : List Beat) (s : State) : (pushOut bs s).faults = s.faults := rfl
@[simp] theorem pushOut_k (bs : List Beat) (s : State) : (pushOut bs s).k = s.k := rfl
@[simp] theorem pushOut_nn (bs : List Beat) (s : State) : (pushOut bs s).nn = s.nn := rfl
@[simp] theorem pushOut_total (bs : List Beat) (s : State) : (pushOut bs s).total = s.total := rfl
@[simp] theorem pushOut_remain (bs : List Beat) (s : State) : (pushOut bs s).remain = s.remain := rfl
@[simp] theorem pushOut_ptr (bs : List Beat) (s : State) : (pushOut bs s).ptr = s.ptr := rfl
@[simp] theorem pushOut_freq (bs : List Beat) (s : State) : (pushOut bs s).freq = s.freq := rfl
@[simp] theorem pushOut_node (bs : List Beat) (s : State) : (pushOut bs s).node = s.node := rfl
@[simp] theorem pushOut_code (bs : List Beat) (s : State) : (pushOut bs s).code = s.code := rfl
@[simp] theorem pushOut_acc (bs : List Beat) (s : State) : (pushOut bs s).acc = s.acc := rfl
@[simp] theorem pushOut_hstage (bs : List Beat) (s : State) : (pushOut bs s).hstage = s.hstage := rfl
@[simp] theorem pushOut_hi (bs : List Beat) (s : State) : (pushOut bs s).hi = s.hi := rfl
@[simp] theorem pushOut_hbuf (bs : List Beat) (s : State) : (pushOut bs s).hbuf = s.hbuf := rfl
@[simp] theorem pushOut_hprev (bs : List Beat) (s : State) : (pushOut bs s).hprev = s.hprev := rfl
@[simp] theorem pushOut_inq (bs : List Beat) (s : State) : (pushOut bs s).inq = s.inq := rfl
@[simp] theorem pushOut_outq (bs : List Beat) (s : State) : (pushOut bs s).outq = s.outq ++ bs := rfl
@[simp] theorem pushOut_sent (bs : List Beat) (s : State) : (pushOut bs s).sent = s.sent := rfl

/-! ## clearState -/

@[simp] theorem clearState_cfg (s : State) : (clearState s).cfg = s.cfg := rfl
@[simp] theorem clearState_host (s : State) : (clearState s).host = s.host := rfl
@[simp] theorem clearState_phase (s : State) : (clearState s).phase = s.phase := rfl
@[simp] theorem clearState_cur (s : State) : (clearState s).cur = s.cur := rfl
@[simp] theorem clearState_err (s : State) : (clearState s).err = s.err := rfl
@[simp] theorem clearState_faults (s : State) : (clearState s).faults = s.faults := rfl
@[simp] theorem clearState_k (s : State) : (clearState s).k = 0#9 := rfl
@[simp] theorem clearState_nn (s : State) : (clearState s).nn = 0#10 := rfl
@[simp] theorem clearState_total (s : State) : (clearState s).total = 0#32 := rfl
@[simp] theorem clearState_remain (s : State) : (clearState s).remain = 0#32 := rfl
@[simp] theorem clearState_ptr (s : State) : (clearState s).ptr = 0#9 := rfl
@[simp] theorem clearState_freq (s : State) : (clearState s).freq = [] := rfl
@[simp] theorem clearState_node (s : State) : (clearState s).node = [] := rfl
@[simp] theorem clearState_code (s : State) : (clearState s).code = [] := rfl
@[simp] theorem clearState_acc (s : State) : (clearState s).acc = [] := rfl
@[simp] theorem clearState_hstage (s : State) : (clearState s).hstage = 0#1 := rfl
@[simp] theorem clearState_hi (s : State) : (clearState s).hi = 0#9 := rfl
@[simp] theorem clearState_hbuf (s : State) : (clearState s).hbuf = [] := rfl
@[simp] theorem clearState_hprev (s : State) : (clearState s).hprev = 0#9 := rfl
@[simp] theorem clearState_inq (s : State) : (clearState s).inq = s.inq := rfl
@[simp] theorem clearState_outq (s : State) : (clearState s).outq = s.outq := rfl
@[simp] theorem clearState_sent (s : State) : (clearState s).sent = s.sent := rfl

/-! ## raiseFault -/

@[simp] theorem raiseFault_cfg (e : Err) (dr : Bool) (s : State) : (raiseFault e dr s).cfg = s.cfg := rfl
@[simp] theorem raiseFault_host (e : Err) (dr : Bool) (s : State) : (raiseFault e dr s).host = s.host := rfl
@[simp] theorem raiseFault_phase (e : Err) (dr : Bool) (s : State) : (raiseFault e dr s).phase = .idle := rfl
@[simp] theorem raiseFault_cur (e : Err) (dr : Bool) (s : State) : (raiseFault e dr s).cur = if dr then .drain else .none := rfl
@[simp] theorem raiseFault_err (e : Err) (dr : Bool) (s : State) : (raiseFault e dr s).err = e := rfl
@[simp] theorem raiseFault_faults (e : Err) (dr : Bool) (s : State) : (raiseFault e dr s).faults = setFaultBit s.faults e := rfl
@[simp] theorem raiseFault_k (e : Err) (dr : Bool) (s : State) : (raiseFault e dr s).k = 0#9 := rfl
@[simp] theorem raiseFault_nn (e : Err) (dr : Bool) (s : State) : (raiseFault e dr s).nn = 0#10 := rfl
@[simp] theorem raiseFault_total (e : Err) (dr : Bool) (s : State) : (raiseFault e dr s).total = 0#32 := rfl
@[simp] theorem raiseFault_remain (e : Err) (dr : Bool) (s : State) : (raiseFault e dr s).remain = 0#32 := rfl
@[simp] theorem raiseFault_ptr (e : Err) (dr : Bool) (s : State) : (raiseFault e dr s).ptr = 0#9 := rfl
@[simp] theorem raiseFault_freq (e : Err) (dr : Bool) (s : State) : (raiseFault e dr s).freq = [] := rfl
@[simp] theorem raiseFault_node (e : Err) (dr : Bool) (s : State) : (raiseFault e dr s).node = [] := rfl
@[simp] theorem raiseFault_code (e : Err) (dr : Bool) (s : State) : (raiseFault e dr s).code = [] := rfl
@[simp] theorem raiseFault_acc (e : Err) (dr : Bool) (s : State) : (raiseFault e dr s).acc = [] := rfl
@[simp] theorem raiseFault_hstage (e : Err) (dr : Bool) (s : State) : (raiseFault e dr s).hstage = 0#1 := rfl
@[simp] theorem raiseFault_hi (e : Err) (dr : Bool) (s : State) : (raiseFault e dr s).hi = 0#9 := rfl
@[simp] theorem raiseFault_hbuf (e : Err) (dr : Bool) (s : State) : (raiseFault e dr s).hbuf = [] := rfl
@[simp] theorem raiseFault_hprev (e : Err) (dr : Bool) (s : State) : (raiseFault e dr s).hprev = 0#9 := rfl
@[simp] theorem raiseFault_inq (e : Err) (dr : Bool) (s : State) : (raiseFault e dr s).inq = s.inq := rfl
@[simp] theorem raiseFault_outq (e : Err) (dr : Bool) (s : State) : (raiseFault e dr s).outq = s.outq := rfl
@[simp] theorem raiseFault_sent (e : Err) (dr : Bool) (s : State) : (raiseFault e dr s).sent = s.sent := rfl

/-! ## withScript -/

@[simp] theorem withScript_cfg (as : List Action) (s : State) : (withScript as s).cfg = s.cfg := rfl
@[simp] theorem withScript_host (as : List Action) (s : State) : (withScript as s).host = { s.host with script := as } := rfl
@[simp] theorem withScript_phase (as : List Action) (s : State) : (withScript as s).phase = s.phase := rfl
@[simp] theorem withScript_cur (as : List Action) (s : State) : (withScript as s).cur = s.cur := rfl
@[simp] theorem withScript_err (as : List Action) (s : State) : (withScript as s).err = s.err := rfl
@[simp] theorem withScript_faults (as : List Action) (s : State) : (withScript as s).faults = s.faults := rfl
@[simp] theorem withScript_k (as : List Action) (s : State) : (withScript as s).k = s.k := rfl
@[simp] theorem withScript_nn (as : List Action) (s : State) : (withScript as s).nn = s.nn := rfl
@[simp] theorem withScript_total (as : List Action) (s : State) : (withScript as s).total = s.total := rfl
@[simp] theorem withScript_remain (as : List Action) (s : State) : (withScript as s).remain = s.remain := rfl
@[simp] theorem withScript_ptr (as : List Action) (s : State) : (withScript as s).ptr = s.ptr := rfl
@[simp] theorem withScript_freq (as : List Action) (s : State) : (withScript as s).freq = s.freq := rfl
@[simp] theorem withScript_node (as : List Action) (s : State) : (withScript as s).node = s.node := rfl
@[simp] theorem withScript_code (as : List Action) (s : State) : (withScript as s).code = s.code := rfl
@[simp] theorem withScript_acc (as : List Action) (s : State) : (withScript as s).acc = s.acc := rfl
@[simp] theorem withScript_hstage (as : List Action) (s : State) : (withScript as s).hstage = s.hstage := rfl
@[simp] theorem withScript_hi (as : List Action) (s : State) : (withScript as s).hi = s.hi := rfl
@[simp] theorem withScript_hbuf (as : List Action) (s : State) : (withScript as s).hbuf = s.hbuf := rfl
@[simp] theorem withScript_hprev (as : List Action) (s : State) : (withScript as s).hprev = s.hprev := rfl
@[simp] theorem withScript_inq (as : List Action) (s : State) : (withScript as s).inq = s.inq := rfl
@[simp] theorem withScript_outq (as : List Action) (s : State) : (withScript as s).outq = s.outq := rfl
@[simp] theorem withScript_sent (as : List Action) (s : State) : (withScript as s).sent = s.sent := rfl

/-! ## takeOut -/

@[simp] theorem takeOut_cfg (n : Nat) (s : State) : (takeOut n s).cfg = s.cfg := rfl
@[simp] theorem takeOut_host (n : Nat) (s : State) : (takeOut n s).host = { s.host with popped := s.host.popped ++ s.outq.take n } := rfl
@[simp] theorem takeOut_phase (n : Nat) (s : State) : (takeOut n s).phase = s.phase := rfl
@[simp] theorem takeOut_cur (n : Nat) (s : State) : (takeOut n s).cur = s.cur := rfl
@[simp] theorem takeOut_err (n : Nat) (s : State) : (takeOut n s).err = s.err := rfl
@[simp] theorem takeOut_faults (n : Nat) (s : State) : (takeOut n s).faults = s.faults := rfl
@[simp] theorem takeOut_k (n : Nat) (s : State) : (takeOut n s).k = s.k := rfl
@[simp] theorem takeOut_nn (n : Nat) (s : State) : (takeOut n s).nn = s.nn := rfl
@[simp] theorem takeOut_total (n : Nat) (s : State) : (takeOut n s).total = s.total := rfl
@[simp] theorem takeOut_remain (n : Nat) (s : State) : (takeOut n s).remain = s.remain := rfl
@[simp] theorem takeOut_ptr (n : Nat) (s : State) : (takeOut n s).ptr = s.ptr := rfl
@[simp] theorem takeOut_freq (n : Nat) (s : State) : (takeOut n s).freq = s.freq := rfl
@[simp] theorem takeOut_node (n : Nat) (s : State) : (takeOut n s).node = s.node := rfl
@[simp] theorem takeOut_code (n : Nat) (s : State) : (takeOut n s).code = s.code := rfl
@[simp] theorem takeOut_acc (n : Nat) (s : State) : (takeOut n s).acc = s.acc := rfl
@[simp] theorem takeOut_hstage (n : Nat) (s : State) : (takeOut n s).hstage = s.hstage := rfl
@[simp] theorem takeOut_hi (n : Nat) (s : State) : (takeOut n s).hi = s.hi := rfl
@[simp] theorem takeOut_hbuf (n : Nat) (s : State) : (takeOut n s).hbuf = s.hbuf := rfl
@[simp] theorem takeOut_hprev (n : Nat) (s : State) : (takeOut n s).hprev = s.hprev := rfl
@[simp] theorem takeOut_inq (n : Nat) (s : State) : (takeOut n s).inq = s.inq := rfl
@[simp] theorem takeOut_outq (n : Nat) (s : State) : (takeOut n s).outq = s.outq.drop n := rfl
@[simp] theorem takeOut_sent (n : Nat) (s : State) : (takeOut n s).sent = s.sent := rfl

/-! ## The ready port -/

/-- CMD takes a word exactly when no stream command runs and the block is not halted (R61). -/
theorem ready_iff (s : State) : s.ready = true ↔ s.cur = .none ∧ s.phase ≠ .halted := by
  simp [State.ready, State.busy, State.halted]

theorem busy_iff (s : State) : s.busy = true ↔ s.cur ≠ .none := by simp [State.busy]

theorem busy_eq_false_iff (s : State) : s.busy = false ↔ s.cur = .none := by simp [State.busy]

/-- Clearing twice is clearing once (R50). -/
@[simp] theorem clearState_clearState (s : State) : clearState (clearState s) = clearState s := rfl

/-- CLEARSTATE reads as zero everywhere (R50). -/
@[simp] theorem clearState_freqAt (s : State) (b : Byte) : (clearState s).freqAt b = 0#32 := rfl

@[simp] theorem clearState_codeAt (s : State) (b : Byte) : (clearState s).codeAt b = Code.absent := rfl

/-- The script taken off and put back (R61). -/
@[simp] theorem withScript_withScript (as bs : List Action) (s : State) :
    withScript as (withScript bs s) = withScript as s := rfl

@[simp] theorem withScript_self (s : State) : withScript s.host.script s = s := rfl

end Sys2Proof.Machine
end

