-- ==== Sys2Proof/Laws/Table.lean ====
section
/-! SUPPORT. Tables: reads after writes, and that every write keeps the canonical form. -/

namespace Sys2Proof.Machine

open Sys2Proof

variable {α : Type} [DecidableEq α] {d : α}

omit [DecidableEq α] in
@[simp] theorem Table.read_nil (i : Nat) : Table.read d ([] : Table α) i = d := rfl

omit [DecidableEq α] in
theorem Table.read_cons (j : Nat) (v : α) (t : Table α) (i : Nat) :
    Table.read d ((j, v) :: t) i = if i = j then v else Table.read d t i := rfl

theorem Table.wf_cons {lo size j : Nat} {v : α} {t : Table α} :
    Table.wf d lo size ((j, v) :: t) = true ↔
      lo ≤ j ∧ j < size ∧ v ≠ d ∧ Table.wf d (j + 1) size t = true := by
  simp [Table.wf, and_assoc]

/-- An index below the least index of a canonical table holds the cleared entry. -/
theorem Table.read_of_lt {lo size : Nat} {t : Table α} (h : Table.wf d lo size t = true) {i : Nat} (hi : i < lo) :
    Table.read d t i = d := by
  induction t generalizing lo with
  | nil => rfl
  | cons e t ih =>
    obtain ⟨hlo, -, -, ht⟩ := Table.wf_cons.1 h
    rw [Table.read_cons, if_neg (by omega)]
    exact ih ht (by omega)

/-- An index at or above the size holds the cleared entry. -/
theorem Table.read_of_ge {lo size : Nat} {t : Table α} (h : Table.wf d lo size t = true) {i : Nat} (hi : size ≤ i) :
    Table.read d t i = d := by
  induction t generalizing lo with
  | nil => rfl
  | cons e t ih =>
    obtain ⟨-, hs, -, ht⟩ := Table.wf_cons.1 h
    rw [Table.read_cons, if_neg (by omega)]
    exact ih ht

theorem Table.wf_mono {lo lo' size : Nat} {t : Table α} (h : Table.wf d lo size t = true) (hl : lo' ≤ lo) :
    Table.wf d lo' size t = true := by
  cases t with
  | nil => rfl
  | cons e t =>
    obtain ⟨h1, h2, h3, h4⟩ := Table.wf_cons.1 h
    exact Table.wf_cons.2 ⟨by omega, h2, h3, h4⟩

/-- Every write keeps the canonical form. -/
theorem Table.write_wf {lo size i : Nat} {v : α} {t : Table α} (h : Table.wf d lo size t = true)
    (hl : lo ≤ i) (hs : i < size) : Table.wf d lo size (Table.write d t i v) = true := by
  induction t generalizing lo with
  | nil => unfold Table.write; split <;> simp [Table.wf, *]
  | cons e t ih =>
    obtain ⟨j, w⟩ := e
    obtain ⟨h1, h2, h3, h4⟩ := Table.wf_cons.1 h
    unfold Table.write
    split_ifs with c1 c2 c3 c4
    · exact h
    · exact Table.wf_cons.2 ⟨hl, hs, c2, Table.wf_cons.2 ⟨by omega, h2, h3, h4⟩⟩
    · exact Table.wf_mono h4 (by omega)
    · exact Table.wf_cons.2 ⟨hl, hs, c4, by subst c3; exact h4⟩
    · exact Table.wf_cons.2 ⟨h1, h2, h3, ih h4 (by omega)⟩

/-- A read after a write to the same place gives the value written. -/
theorem Table.read_write_same {lo size : Nat} {t : Table α} (h : Table.wf d lo size t = true) (i : Nat) (v : α) :
    Table.read d (Table.write d t i v) i = v := by
  induction t generalizing lo with
  | nil => unfold Table.write; split <;> simp [Table.read, *]
  | cons e t ih =>
    obtain ⟨j, w⟩ := e
    obtain ⟨-, -, -, h4⟩ := Table.wf_cons.1 h
    unfold Table.write
    split_ifs with c1 c2 c3 c4
    · rw [c2, Table.read_cons, if_neg (by omega), Table.read_of_lt h4 (by omega)]
    · simp [Table.read_cons]
    · rw [c4, Table.read_of_lt h4 (by omega)]
    · simp [Table.read_cons]
    · rw [Table.read_cons, if_neg c3, ih h4]

/-- A write leaves every other place alone. -/
theorem Table.read_write_other (t : Table α) {i j : Nat} (v : α) (hij : j ≠ i) :
    Table.read d (Table.write d t i v) j = Table.read d t j := by
  induction t with
  | nil => unfold Table.write; split <;> simp [Table.read, hij]
  | cons e t ih =>
    obtain ⟨k, w⟩ := e
    unfold Table.write
    split_ifs <;> simp_all [Table.read_cons]

/-- Canonical tables with the same entries are the same table. -/
theorem Table.ext_of_wf {lo size : Nat} {t u : Table α} (ht : Table.wf d lo size t = true)
    (hu : Table.wf d lo size u = true) (h : ∀ i, Table.read d t i = Table.read d u i) : t = u := by
  induction t generalizing lo u with
  | nil =>
    cases u with
    | nil => rfl
    | cons e u =>
      obtain ⟨j, w⟩ := e
      obtain ⟨-, -, hv, -⟩ := Table.wf_cons.1 hu
      have := h j
      simp [Table.read_cons] at this
      exact absurd this.symm hv
  | cons e t ih =>
    obtain ⟨j, w⟩ := e
    obtain ⟨h1, h2, h3, h4⟩ := Table.wf_cons.1 ht
    cases u with
    | nil =>
      have := h j
      simp [Table.read_cons] at this
      exact absurd this h3
    | cons e' u =>
      obtain ⟨j', w'⟩ := e'
      obtain ⟨h1', h2', h3', h4'⟩ := Table.wf_cons.1 hu
      have hjj : j = j' := by
        rcases Nat.lt_trichotomy j j' with hlt | heq | hgt
        · have := h j
          simp only [Table.read_cons, if_true] at this
          rw [if_neg (by omega), Table.read_of_lt h4' (by omega)] at this
          exact absurd this h3
        · exact heq
        · have := h j'
          simp only [Table.read_cons, if_true] at this
          rw [if_neg (by omega), Table.read_of_lt h4 (by omega)] at this
          exact absurd this.symm h3'
      subst hjj
      have hw : w = w' := by simpa [Table.read_cons] using h j
      subst hw
      congr 1
      refine ih h4 h4' fun i => ?_
      have := h i
      simp only [Table.read_cons] at this
      split at this
      · next hij =>
        rw [Table.read_of_lt h4 (by omega), Table.read_of_lt h4' (by omega)]
      · exact this

/-! ## The node table -/

@[simp] theorem nodeIn_zero (t : Table Node) : nodeIn t 0 = Node.zero := rfl

@[simp] theorem nodeIn_nil (i : Nat) : nodeIn [] i = Node.zero := by simp [nodeIn]

theorem nodeIn_of_ge {t : Table Node} (h : Table.wf Node.zero 1 512 t = true) {i : Nat} (hi : 512 ≤ i) :
    nodeIn t i = Node.zero := by
  rw [nodeIn, if_neg (by omega), Table.read_of_ge h hi]

/-- A write to NODE keeps the canonical form; NODE[0] and entries past 511 are not written. -/
theorem putNode_wf {t : Table Node} (h : Table.wf Node.zero 1 512 t = true) (i : Nat) (n : Node) :
    Table.wf Node.zero 1 512 (putNode t i n) = true := by
  unfold putNode
  split
  · exact h
  · exact Table.write_wf h (by omega) (by omega)

theorem nodeIn_putNode_same {t : Table Node} (h : Table.wf Node.zero 1 512 t = true) {i : Nat} (n : Node)
    (h1 : 1 ≤ i) (h2 : i < 512) : nodeIn (putNode t i n) i = n := by
  rw [putNode, if_neg (by omega), nodeIn, if_neg (by omega), Table.read_write_same h]

theorem nodeIn_putNode_other (t : Table Node) {i j : Nat} (n : Node) (hij : j ≠ i) :
    nodeIn (putNode t i n) j = nodeIn t j := by
  unfold putNode nodeIn
  split
  · rfl
  · split
    · rfl
    · rw [Table.read_write_other t n hij]

/-- NODE after one write, entry by entry. -/
theorem nodeIn_putNode {t : Table Node} (h : Table.wf Node.zero 1 512 t = true) (i j : Nat) (n : Node) :
    nodeIn (putNode t i n) j = if j = i ∧ 1 ≤ i ∧ i < 512 then n else nodeIn t j := by
  split
  · next c => obtain ⟨rfl, h1, h2⟩ := c; exact nodeIn_putNode_same h n h1 h2
  · next c =>
    by_cases hij : j = i
    · subst hij
      rw [putNode, if_pos (by omega)]
    · exact nodeIn_putNode_other t n hij

end Sys2Proof.Machine
end

