-- ==== Sys2Proof/Laws/Ops.lean ====
section
/-! SUPPORT. One lemma per shared operation, saying once everything it can do. -/

namespace Sys2Proof.Machine

open Sys2Proof

@[simp] theorem clearState_nodeAt (s : State) (i : Nat) : (clearState s).nodeAt i = Node.zero := by
  simp [State.nodeAt]

/-! ## Acceptance (R240) -/

/-- A ready port and a legal phase: the command is performed. -/
theorem accept_of_legal {i : Instr} {s : State} {f : State → Host.Outcome State Fault Refusal}
    (hr : s.ready = true) (hl : legalIn i s.phase = true) : accept i s f = f s := by
  simp [accept, hr, hl]

/-- A ready port and a wrong phase: E_SEQUENCE (R243). -/
theorem accept_of_illegal {i : Instr} {s : State} {f : State → Host.Outcome State Fault Refusal}
    (hr : s.ready = true) (hl : legalIn i s.phase = false) : accept i s f = .next (sequenceError s) := by
  simp [accept, hr, hl]

/-- Everything `accept` can do when it answers a next state. -/
theorem accept_next {i : Instr} {s t : State} {f : State → Host.Outcome State Fault Refusal}
    (h : accept i s f = .next t) :
    s.ready = true ∧ ((legalIn i s.phase = true ∧ f s = .next t) ∨
      (legalIn i s.phase = false ∧ t = sequenceError s)) := by
  unfold accept at h
  split at h
  · next hr =>
    refine ⟨hr, ?_⟩
    split at h
    · next hl => exact .inl ⟨hl, h⟩
    · next hl => exact .inr ⟨by simpa using hl, by cases h; rfl⟩
  · cases h

/-! ## Room in OUTQ (R84 (b), log 6) -/

/-- A step that pushes nothing never waits for OUTQ (R84 (b)). -/
@[simp] theorem room_zero (s : State) : s.room 0 = true := by
  unfold State.room
  split <;> simp

theorem room_unbounded {s : State} (h : s.cfg.outDepth = none) (n : Nat) : s.room n = true := by
  simp [State.room, h]

theorem room_iff {s : State} {d : Nat} (h : s.cfg.outDepth = some d) (n : Nat) :
    s.room n = true ↔ n ≤ d - s.outq.length := by simp [State.room, h]

theorem fits_iff {s : State} {d : Nat} (h : s.cfg.outDepth = some d) (n : Nat) : s.fits n = true ↔ n ≤ d := by
  simp [State.fits, h]

/-- Beats find no place in an empty OUTQ exactly when they do not fit. -/
theorem excess_eq_zero (s : State) (n : Nat) : s.excess n = 0 ↔ s.fits n = true := by
  unfold State.excess State.fits
  split
  · simp
  · rw [decide_eq_true_iff]; exact Nat.sub_eq_zero_iff_le

theorem excess_eq {s : State} {d : Nat} (h : s.cfg.outDepth = some d) (n : Nat) : s.excess n = n - d := by
  simp [State.excess, h]

/-- Room for n beats is room for fewer. -/
theorem room_mono {s : State} {m n : Nat} (hmn : m ≤ n) (h : s.room n = true) : s.room m = true := by
  cases hd : s.cfg.outDepth with
  | none => exact room_unbounded hd m
  | some d => rw [room_iff hd] at h ⊢; omega

/-- What has room now can be in OUTQ at one time. -/
theorem fits_of_room {s : State} {n : Nat} (h : s.room n = true) : s.fits n = true := by
  cases hd : s.cfg.outDepth with
  | none => simp [State.fits, hd]
  | some d => rw [room_iff hd] at h; rw [fits_iff hd]; omega

/-- The beats pushed, when the step is known to append them. -/
theorem pushedBeats_eq {s t : State} {out : List Beat} (h : t.outq = s.outq ++ out) : pushedBeats s t = out := by
  simp [pushedBeats, h]

/-- With room for its beats a step happens whole. -/
theorem whenRoom_of_room {s t : State} (h : s.room (pushedBeats s t).length = true) : whenRoom s t = some t := by
  simp [whenRoom, h]

/-- Everything `whenRoom` can do when the step is enabled. -/
theorem whenRoom_some {s t u : State} (h : whenRoom s t = some u) : s.room (pushedBeats s t).length = true ∧ u = t := by
  unfold whenRoom at h
  split at h
  · next hr => cases h; exact ⟨hr, rfl⟩
  · cases h

/-! ## The block's step (R74) -/

/-- Everything `beatStep` can do when it is enabled: the head beat is popped and its whole rule performed. -/
theorem beatStep_some {s t : State} (h : beatStep s = some t) :
    ∃ b rest, s.busy = true ∧ s.inq = b :: rest ∧ t = beatEffect { s with inq := rest } b ∧
      s.room (pushedBeats s t).length = true := by
  unfold beatStep at h
  split at h
  · next hb =>
    split at h
    · cases h
    · next b rest hq => obtain ⟨hr, rfl⟩ := whenRoom_some h; exact ⟨b, rest, hb, hq, rfl, hr⟩
  · cases h

/-- `beatStep` in terms of the head beat. -/
theorem beatStep_eq {s : State} {b : Beat} {rest : List Beat} (hb : s.busy = true) (hq : s.inq = b :: rest) :
    beatStep s = whenRoom s (beatEffect { s with inq := rest } b) := by
  simp [beatStep, hb, hq]

/-- A beat whose pushes have room is one step. -/
theorem beatStep_of_room {s : State} {b : Beat} {rest : List Beat} (hb : s.busy = true) (hq : s.inq = b :: rest)
    (hr : s.room (pushedBeats s (beatEffect { s with inq := rest } b)).length = true) :
    beatStep s = some (beatEffect { s with inq := rest } b) := by
  rw [beatStep_eq hb hq, whenRoom_of_room hr]

/-- A beat that pushes nothing never waits. -/
theorem beatStep_of_quiet {s : State} {b : Beat} {rest : List Beat} (hb : s.busy = true) (hq : s.inq = b :: rest)
    (ho : (beatEffect { s with inq := rest } b).outq = s.outq) :
    beatStep s = some (beatEffect { s with inq := rest } b) :=
  beatStep_of_room hb hq (by simp [pushedBeats, ho])

/-- The block's turn: its step, or nothing. -/
theorem blockTurn_cases (s : State) :
    beatStep s = some (blockTurn s) ∨ (beatStep s = none ∧ blockTurn s = s) := by
  unfold blockTurn
  cases beatStep s with
  | none => exact .inr ⟨rfl, rfl⟩
  | some t => exact .inl rfl

/-- A beat step is the block's turn. -/
theorem blockTurn_of_beatStep {s t : State} (h : beatStep s = some t) : blockTurn s = t := by
  simp [blockTurn, h]

/-- With CUR = NONE the block has no step of its own (R83). -/
theorem blockTurn_of_idle {s : State} (hc : s.cur = .none) : blockTurn s = s := by
  simp [blockTurn, beatStep, State.busy, hc]

/-! ## The step of WRHDR (R73, R84 (b), log 6) -/

/-- Everything one push of a split WRHDR can do: the last one ends it, any other leaves all but OUTQ as it was. -/
theorem pushHeaderBeat_cases (s : State) :
    ((headerBytes s).length ≤ s.sent + 1 ∧ pushHeaderBeat s = { s with
      outq := s.outq ++ (dataBeats (headerBytes s)).drop s.sent, phase := .hdrWritten, err := .ok, sent := 0 }) ∨
    (s.sent + 1 < (headerBytes s).length ∧ pushHeaderBeat s = { s with
      outq := s.outq ++ ((dataBeats (headerBytes s)).drop s.sent).take 1, sent := s.sent + 1 }) := by
  have hl : (dataBeats (headerBytes s)).length = (headerBytes s).length := by simp [dataBeats]
  unfold pushHeaderBeat
  simp only [hl]
  split
  · next h => exact .inl ⟨h, rfl⟩
  · next h => exact .inr ⟨by omega, rfl⟩

/-- Everything the step of WRHDR can do when it is enabled: the whole header, or one push of a header that no OUTQ of this
depth could take whole. -/
theorem headerStep_some {s t : State} (h : headerStep s = some t) :
    (s.room (headerBytes s).length = true ∧ t = writeHeader s) ∨
    (s.fits (headerBytes s).length = false ∧ s.room 1 = true ∧ t = pushHeaderBeat s) := by
  unfold headerStep at h
  split at h
  · next hr => cases h; exact .inl ⟨hr, rfl⟩
  · split at h
    · cases h
    · next hf =>
      split at h
      · next h1 => cases h; exact .inr ⟨by simpa using hf, h1, rfl⟩
      · cases h

theorem headerStep_of_room {s : State} (h : s.room (headerBytes s).length = true) : headerStep s = some (writeHeader s) := by
  simp [headerStep, h]

/-- The step of WRHDR leaves the parameters, the host's side and IN alone. -/
theorem headerStep_frame {s t : State} (h : headerStep s = some t) :
    t.cfg = s.cfg ∧ t.host = s.host ∧ t.inq = s.inq := by
  obtain ⟨-, rfl⟩ | ⟨-, -, rfl⟩ := headerStep_some h
  · exact ⟨rfl, rfl, rfl⟩
  · obtain ⟨-, e⟩ | ⟨-, e⟩ := pushHeaderBeat_cases s <;> rw [e] <;> exact ⟨rfl, rfl, rfl⟩

end Sys2Proof.Machine
end

