-- ==== Sys2Proof/Laws/Step.lean ====
section
/-! SUPPORT. What one step can do (R83), and what each meaning can answer: every later proof starts from these. -/

namespace Sys2Proof.Machine

open Sys2Proof

/-! ## Meanings -/

theorem execClear_next {s t : State} (h : exec .clear s = .next t) :
    s.ready = true ∧ ((s.phase ≠ .halted ∧ t = { clearState s with phase := .idle, err := .ok }) ∨
      (legalIn .clear s.phase = false ∧ t = sequenceError s)) := by
  simp only [exec, execClear] at h
  obtain ⟨hr, ⟨hl, h⟩ | h⟩ := accept_next h
  · exact ⟨hr, .inl ⟨by simpa [legalIn] using hl, by cases h; rfl⟩⟩
  · exact ⟨hr, .inr h⟩

theorem execScan_next {s t : State} (h : exec .scan s = .next t) :
    s.ready = true ∧ ((s.phase = .idle ∧ t = { s with cur := .scan }) ∨
      (legalIn .scan s.phase = false ∧ t = sequenceError s)) := by
  simp only [exec, execScan] at h
  obtain ⟨hr, ⟨hl, h⟩ | h⟩ := accept_next h
  · exact ⟨hr, .inl ⟨by simpa [legalIn] using hl, by cases h; rfl⟩⟩
  · exact ⟨hr, .inr h⟩

theorem execBuild_next {s t : State} (h : exec .build s = .next t) :
    s.ready = true ∧ (((s.phase = .scanned ∨ s.phase = .hdrRead) ∧
        t = { s with
          node := buildTree s.node s.k.toNat, nn := BitVec.ofNat 10 (rootIndex s.k.toNat),
          phase := if s.phase = .scanned then .builtC else .builtD, err := .ok }) ∨
      (legalIn .build s.phase = false ∧ t = sequenceError s)) := by
  simp only [exec, execBuild] at h
  obtain ⟨hr, ⟨hl, h⟩ | h⟩ := accept_next h
  · exact ⟨hr, .inl ⟨by simpa [legalIn] using hl, by cases h; rfl⟩⟩
  · exact ⟨hr, .inr h⟩

theorem execGencode_next {s t : State} (h : exec .gencode s = .next t) :
    s.ready = true ∧ ((s.phase = .builtC ∧ ∃ ct, genCodes s = some ct ∧
        t = { s with code := ct, phase := .coded, err := .ok }) ∨
      (legalIn .gencode s.phase = false ∧ t = sequenceError s)) := by
  simp only [exec, execGencode] at h
  obtain ⟨hr, ⟨hl, h⟩ | h⟩ := accept_next h
  · refine ⟨hr, .inl ⟨by simpa [legalIn] using hl, ?_⟩⟩
    cases hg : genCodes s with
    | none => simp [hg] at h
    | some ct => simp only [hg] at h; cases h; exact ⟨ct, rfl, rfl⟩
  · exact ⟨hr, .inr h⟩

theorem execWrhdr_next {s t : State} (h : exec .wrhdr s = .next t) :
    s.ready = true ∧ ((s.phase = .coded ∧ t = (headerStep s).getD s) ∨
      (legalIn .wrhdr s.phase = false ∧ t = sequenceError s)) := by
  simp only [exec, execWrhdr] at h
  obtain ⟨hr, ⟨hl, h⟩ | h⟩ := accept_next h
  · exact ⟨hr, .inl ⟨by simpa [legalIn] using hl, by cases h; rfl⟩⟩
  · exact ⟨hr, .inr h⟩

/-- WRHDR ends at once, or its step is that of a word that waits. -/
theorem headerStep_getD_cases (s : State) :
    headerStep s = some ((headerStep s).getD s) ∨ (headerStep s = none ∧ (headerStep s).getD s = s) := by
  cases headerStep s with
  | none => exact .inr ⟨rfl, rfl⟩
  | some t => exact .inl rfl

theorem execEncode_next {s t : State} (h : exec .encode s = .next t) :
    s.ready = true ∧ ((s.phase = .hdrWritten ∧ t = { s with cur := .encode, acc := [] }) ∨
      (legalIn .encode s.phase = false ∧ t = sequenceError s)) := by
  simp only [exec, execEncode] at h
  obtain ⟨hr, ⟨hl, h⟩ | h⟩ := accept_next h
  · exact ⟨hr, .inl ⟨by simpa [legalIn] using hl, by cases h; rfl⟩⟩
  · exact ⟨hr, .inr h⟩

theorem execRdhdr_next {s t : State} (h : exec .rdhdr s = .next t) :
    s.ready = true ∧ ((s.phase = .idle ∧
        t = { s with cur := .rdhdr, hstage := 0, hbuf := [], hi := 0, hprev := noRecordYet }) ∨
      (legalIn .rdhdr s.phase = false ∧ t = sequenceError s)) := by
  simp only [exec, execRdhdr] at h
  obtain ⟨hr, ⟨hl, h⟩ | h⟩ := accept_next h
  · exact ⟨hr, .inl ⟨by simpa [legalIn] using hl, by cases h; rfl⟩⟩
  · exact ⟨hr, .inr h⟩

theorem execDecode_next {s t : State} (h : exec .decode s = .next t) :
    s.ready = true ∧ ((s.phase = .builtD ∧ t = { s with cur := .decode, remain := s.total, ptr := rootPtr s }) ∨
      (legalIn .decode s.phase = false ∧ t = sequenceError s)) := by
  simp only [exec, execDecode] at h
  obtain ⟨hr, ⟨hl, h⟩ | h⟩ := accept_next h
  · exact ⟨hr, .inl ⟨by simpa [legalIn] using hl, by cases h; rfl⟩⟩
  · exact ⟨hr, .inr h⟩

theorem execHalt_next {s t : State} (h : exec .halt s = .next t) :
    s.ready = true ∧ ((s.phase ≠ .halted ∧ t = { s with phase := .halted, err := .ok }) ∨
      (legalIn .halt s.phase = false ∧ t = sequenceError s)) := by
  simp only [exec, execHalt] at h
  obtain ⟨hr, ⟨hl, h⟩ | h⟩ := accept_next h
  · exact ⟨hr, .inl ⟨by simpa [legalIn] using hl, by cases h; rfl⟩⟩
  · exact ⟨hr, .inr h⟩

theorem execDrain_next {s t : State} (h : exec .drain s = .next t) :
    s.ready = true ∧ ((s.phase ≠ .halted ∧ t = { s with cur := .drain, err := .ok }) ∨
      (legalIn .drain s.phase = false ∧ t = sequenceError s)) := by
  simp only [exec, execDrain] at h
  obtain ⟨hr, ⟨hl, h⟩ | h⟩ := accept_next h
  · exact ⟨hr, .inl ⟨by simpa [legalIn] using hl, by cases h; rfl⟩⟩
  · exact ⟨hr, .inr h⟩

/-- No command touches the parameters, the host's side or IN (R80 (d)). -/
theorem exec_frame {i : Instr} {s t : State} (h : exec i s = .next t) :
    t.cfg = s.cfg ∧ t.host = s.host ∧ t.inq = s.inq := by
  cases i with
  | clear => obtain ⟨-, ⟨-, rfl⟩ | ⟨-, rfl⟩⟩ := execClear_next h <;> exact ⟨rfl, rfl, rfl⟩
  | scan => obtain ⟨-, ⟨-, rfl⟩ | ⟨-, rfl⟩⟩ := execScan_next h <;> exact ⟨rfl, rfl, rfl⟩
  | build => obtain ⟨-, ⟨-, rfl⟩ | ⟨-, rfl⟩⟩ := execBuild_next h <;> exact ⟨rfl, rfl, rfl⟩
  | gencode => obtain ⟨-, ⟨-, ct, -, rfl⟩ | ⟨-, rfl⟩⟩ := execGencode_next h <;> exact ⟨rfl, rfl, rfl⟩
  | wrhdr =>
    obtain ⟨-, ⟨-, rfl⟩ | ⟨-, rfl⟩⟩ := execWrhdr_next h
    · obtain hs | ⟨-, hs⟩ := headerStep_getD_cases s
      · exact headerStep_frame hs
      · rw [hs]; exact ⟨rfl, rfl, rfl⟩
    · exact ⟨rfl, rfl, rfl⟩
  | encode => obtain ⟨-, ⟨-, rfl⟩ | ⟨-, rfl⟩⟩ := execEncode_next h <;> exact ⟨rfl, rfl, rfl⟩
  | rdhdr => obtain ⟨-, ⟨-, rfl⟩ | ⟨-, rfl⟩⟩ := execRdhdr_next h <;> exact ⟨rfl, rfl, rfl⟩
  | decode => obtain ⟨-, ⟨-, rfl⟩ | ⟨-, rfl⟩⟩ := execDecode_next h <;> exact ⟨rfl, rfl, rfl⟩
  | halt => obtain ⟨-, ⟨-, rfl⟩ | ⟨-, rfl⟩⟩ := execHalt_next h <;> exact ⟨rfl, rfl, rfl⟩
  | drain => obtain ⟨-, ⟨-, rfl⟩ | ⟨-, rfl⟩⟩ := execDrain_next h <;> exact ⟨rfl, rfl, rfl⟩

/-! ## One step -/

/-- When a WRHDR word waits at CMD. -/
theorem headerWaits_iff (s : State) : s.headerWaits = true ↔
    (∃ as, s.host.script = .issue (encode .wrhdr) :: as) ∧ s.ready = true ∧ s.phase = .coded ∧
      s.room (headerBytes s).length = false := by
  unfold State.headerWaits
  split
  · next w as hs => simp [hs, and_assoc]
  · next hs => simp only [Bool.false_eq_true, false_iff, not_and]; rintro ⟨as, h⟩; exact absurd h (hs _ _)

/-- With no word waiting the host's next action is the head of its script. -/
theorem hostTurn_of_head {s : State} {a : Action} {as : List Action} (hs : s.host.script = a :: as)
    (hw : s.headerWaits = false) : hostTurn s = some (a, as) := by
  simp [hostTurn, hs, hw]

/-- Only a WRHDR word ever waits for room. -/
theorem headerWaits_of_head {s : State} {a : Action} {as : List Action} (hs : s.host.script = a :: as)
    (ha : a ≠ .issue (encode .wrhdr)) : s.headerWaits = false := by
  rw [← Bool.not_eq_true, headerWaits_iff]
  rintro ⟨⟨bs, h⟩, -⟩
  rw [hs] at h; cases h; exact ha rfl

/-- Everything `hostTurn` can answer: the head of the script, or what stands behind a WRHDR word that waits, and is no word. -/
theorem hostTurn_some {s : State} {a : Action} {as : List Action} (h : hostTurn s = some (a, as)) :
    (s.headerWaits = false ∧ s.host.script = a :: as) ∨
    (s.headerWaits = true ∧ (∀ w, a ≠ .issue w) ∧
      ∃ bs, s.host.script = .issue (encode .wrhdr) :: a :: bs ∧
        as = if a = .reset then bs else .issue (encode .wrhdr) :: bs) := by
  unfold hostTurn at h
  split at h
  · cases h
  · next a' as' hs =>
    split at h
    · next hw =>
      obtain ⟨⟨cs, hc⟩, -⟩ := (headerWaits_iff s).1 hw
      rw [hs] at hc; cases hc
      right; refine ⟨hw, ?_⟩
      split at h
      · cases h
      · cases h
      · cases h; exact ⟨nofun, _, hs, rfl⟩
      · next b bs h1 h2 =>
        cases h
        exact ⟨fun w hw => h1 w hw, _, hs, (if_neg fun hr => h2 hr).symm⟩
    · next hw => cases h; exact .inl ⟨by simpa using hw, hs⟩

/-- The host has no action to take: no word waits and the script is at its end, or nothing but a word is behind the one
that waits. -/
theorem turn_of_quiet {s : State} (as : List Action) (hw : s.headerWaits = false) : turn as s = blockTurn (withScript as s) := by
  simp [turn, hw]

/-- Everything `turn` can do. -/
theorem turn_cases (as : List Action) (s : State) :
    (s.headerWaits = false ∧ turn as s = blockTurn (withScript as s)) ∨
    (s.headerWaits = true ∧ turn as s = headerTurn (withScript as s)) := by
  unfold turn
  cases s.headerWaits
  · exact .inl ⟨rfl, rfl⟩
  · exact .inr ⟨rfl, rfl⟩

/-- Everything the step of a waiting WRHDR word can do: nothing, one push, or the last push, with which the word is
accepted. -/
theorem headerTurn_cases (s : State) :
    (headerStep s = none ∧ headerTurn s = s) ∨
    (∃ t, headerStep s = some t ∧ t.phase = .coded ∧ headerTurn s = t) ∨
    (∃ t, headerStep s = some t ∧ t.phase ≠ .coded ∧ headerTurn s = withScript s.host.script.tail t) := by
  unfold headerTurn
  cases h : headerStep s with
  | none => exact .inl ⟨rfl, rfl⟩
  | some t =>
    simp only
    split
    · next hp => exact .inr (.inl ⟨t, rfl, hp, rfl⟩)
    · next hp => exact .inr (.inr ⟨t, rfl, hp, by rw [(headerStep_frame h).2.1]⟩)

/-! ## A held action (R61, R84) -/

/-- A script that begins with enough pops. -/
theorem afterPops_replicate (n : Nat) (as : List Action) : afterPops n (List.replicate n .popOut ++ as) = some as := by
  induction n with
  | zero => simp [afterPops]
  | succ n ih => simpa [List.replicate_succ, afterPops] using ih

/-- What `handOver` does, when the host stands at an empty OUTQ. -/
theorem handOver_eq {s : State} {b : Beat} {rest : List Beat} {as : List Action} (hb : s.busy = true) (hq : s.inq = b :: rest)
    (ho : s.outq = []) (h1 : s.room 1 = true) (he : s.excess (beatEffect { s with inq := rest } b).outq.length ≠ 0)
    (hp : afterPops (s.excess (beatEffect { s with inq := rest } b).outq.length) s.host.script = some as) :
    handOver s = some (takeOut (s.excess (beatEffect { s with inq := rest } b).outq.length)
      (withScript as (beatEffect { s with inq := rest } b))) := by
  unfold handOver
  rw [hq]
  simp only
  rw [if_pos (by simp only [Bool.and_eq_true, beq_iff_eq, bne_iff_ne]; exact ⟨⟨⟨hb, ho⟩, h1⟩, he⟩), hp, Option.map_some]

/-- Everything `handOver` can do: one whole beat, with the host's pops of what finds no place. -/
theorem handOver_some {s t : State} (h : handOver s = some t) :
    ∃ b rest as, s.busy = true ∧ s.inq = b :: rest ∧ s.outq = [] ∧ s.room 1 = true ∧
      s.excess (beatEffect { s with inq := rest } b).outq.length ≠ 0 ∧
      afterPops (s.excess (beatEffect { s with inq := rest } b).outq.length) s.host.script = some as ∧
      t = takeOut (s.excess (beatEffect { s with inq := rest } b).outq.length)
        (withScript as (beatEffect { s with inq := rest } b)) := by
  unfold handOver at h
  split at h
  · cases h
  · next b rest hq =>
    simp only at h
    split at h
    · next hc =>
      simp only [Bool.and_eq_true, beq_iff_eq, bne_iff_ne] at hc
      rw [Option.map_eq_some_iff] at h
      obtain ⟨as, hp, rfl⟩ := h
      exact ⟨b, rest, as, hc.1.1.1, hq, hc.1.1.2, hc.1.2, hc.2, hp, rfl⟩
    · cases h

/-- Beats that fit in OUTQ are never handed over. -/
theorem handOver_of_fits {s : State}
    (h : ∀ b rest, s.inq = b :: rest → s.fits (beatEffect { s with inq := rest } b).outq.length = true) : handOver s = none := by
  cases ht : handOver s with
  | none => rfl
  | some t =>
    obtain ⟨b, rest, -, -, hq, -, -, he, -⟩ := handOver_some ht
    exact absurd ((excess_eq_zero s _).2 (h b rest hq)) he

/-- With CUR = NONE nothing is handed over. -/
theorem handOver_of_idle {s : State} (hc : s.cur = .none) : handOver s = none := by
  cases ht : handOver s with
  | none => rfl
  | some t => obtain ⟨-, -, -, hb, -⟩ := handOver_some ht; exact absurd hc ((busy_iff s).1 hb)

/-- Only a held pop is anything but the block's turn. -/
theorem heldTurn_of_ne {a : Action} {s : State} (h : a ≠ .popOut) : heldTurn a s = turn s.host.script s := by
  cases a <;> first | rfl | exact absurd rfl h

/-- With CUR = NONE a held action leaves the turn to whoever waits at CMD. -/
theorem heldTurn_of_idle {a : Action} {s : State} (hc : s.cur = .none) : heldTurn a s = turn s.host.script s := by
  cases a <;> simp [heldTurn, handOver_of_idle hc]

/-- Everything that can happen while the host holds an action. -/
theorem heldTurn_cases (a : Action) (s : State) :
    heldTurn a s = turn s.host.script s ∨ (a = .popOut ∧ handOver s = some (heldTurn a s)) := by
  by_cases h : a = .popOut
  · subst h
    unfold heldTurn
    cases handOver s with
    | none => exact .inl rfl
    | some t => exact .inr ⟨rfl, rfl⟩
  · exact .inl (heldTurn_of_ne h)

/-- Everything a step can do when it answers a next state: one case for each action of R83, and one for the beats that a host
at OUT takes in the step that pushes them. -/
theorem step_cases {s t : State} (h : step s = .next t) :
    t = turn s.host.script s ∨
    (∃ as, hostTurn s = some (.beatStep, as) ∧ t = turn as s) ∨
    (∃ w as, s.host.script = .issue w :: as ∧ s.headerWaits = false ∧ s.ready = true ∧
      ((∃ e, decode w = .error e ∧ t = illegalWord (withScript as s)) ∨
       (∃ i, decode w = .ok i ∧ exec i (withScript as s) = .next t))) ∨
    (∃ b as, hostTurn s = some (.pushIn b, as) ∧ s.inRoom = true ∧
      t = { withScript as s with inq := s.inq ++ [b] }) ∨
    (∃ b rest as, hostTurn s = some (.popOut, as) ∧ s.outq = b :: rest ∧
      t = { s with outq := rest, host := { s.host with script := as, popped := s.host.popped ++ [b] } }) ∨
    (∃ addr as, hostTurn s = some (.inspect addr, as) ∧ t = inspectPort addr (withScript as s)) ∨
    (∃ as, hostTurn s = some (.reset, as) ∧ t = resetBlock (withScript as s)) ∨
    (∃ as, hostTurn s = some (.popOut, as) ∧ handOver s = some t) := by
  unfold step stepOnce at h
  cases hs : hostTurn s with
  | none => simp only [hs] at h; cases h; exact .inl rfl
  | some p =>
    obtain ⟨a, as⟩ := p
    simp only [hs] at h
    split at h
    · next hen =>
      cases a with
      | issue w =>
        obtain ⟨hw, hscr⟩ | ⟨-, hno, -⟩ := hostTurn_some hs
        · refine .inr (.inr (.inl ⟨w, as, hscr, hw, by simpa [enabled] using hen, ?_⟩))
          simp only [performAction, issueWord] at h
          cases hd : decode w with
          | error e => simp only [hd] at h; cases h; exact .inl ⟨e, rfl, rfl⟩
          | ok i => simp only [hd] at h; exact .inr ⟨i, rfl, h⟩
        · exact absurd rfl (hno w)
      | pushIn b =>
        cases h
        exact .inr (.inr (.inr (.inl ⟨b, as, rfl, by simpa [enabled] using hen, rfl⟩)))
      | popOut =>
        cases hq : s.outq with
        | nil => simp [enabled, hq] at hen
        | cons b rest =>
          refine .inr (.inr (.inr (.inr (.inl ⟨b, rest, as, rfl, rfl, ?_⟩))))
          simp only [performAction, popOut, takeOut, withScript_outq, withScript_host, hq] at h
          cases h; rfl
      | inspect addr => cases h; exact .inr (.inr (.inr (.inr (.inr (.inl ⟨addr, as, rfl, rfl⟩)))))
      | reset => cases h; exact .inr (.inr (.inr (.inr (.inr (.inr (.inl ⟨as, rfl, rfl⟩))))))
      | beatStep => cases h; exact .inr (.inl ⟨as, rfl, rfl⟩)
    · cases h
      obtain e | ⟨rfl, e⟩ := heldTurn_cases a s
      · exact .inl e
      · exact .inr (.inr (.inr (.inr (.inr (.inr (.inr ⟨as, rfl, e⟩))))))

/-- The host's next action, when it is enabled, is the step. -/
theorem step_of_hostTurn {s : State} {a : Action} {as : List Action} (h : hostTurn s = some (a, as))
    (he : enabled a s = true) : step s = performAction a as s := by
  simp [step, stepOnce, h, he]

/-- The host holds an action that is not enabled, and the block has its turn (R61, R84). -/
theorem step_of_held {s : State} {a : Action} {as : List Action} (h : hostTurn s = some (a, as))
    (he : enabled a s = false) : step s = .next (heldTurn a s) := by
  simp [step, stepOnce, h, he]

/-- With nothing for the host to do, the step is the block's turn. -/
theorem step_of_quiet {s : State} (hs : s.host.script = []) : step s = .next (blockTurn s) := by
  have hw : s.headerWaits = false := by simp [State.headerWaits, hs]
  have ht : hostTurn s = none := by simp [hostTurn, hs]
  simp [step, stepOnce, ht, turn_of_quiet _ hw]

end Sys2Proof.Machine
end

