-- ==== Sys2Proof/Laws/Runs.lean ====
section
/-! SUPPORT. Runs put together from steps, what no beat changes, and that every write keeps the tables canonical. -/

namespace Sys2Proof.Safety

open Sys2Proof Sys2Proof.Machine

/-! ## Runs -/

@[simp] theorem runs_zero (s : State) : runs 0 s s := rfl

theorem runs_succ {n : Nat} {s t u : State} (h : step s = .next t) (hr : runs n t u) : runs (n + 1) s u := by
  simp only [runs, Host.Core.run, Sys2Proof.core, h] at hr ⊢; exact hr

theorem runs_one {s t : State} (h : step s = .next t) : runs 1 s t := runs_succ h (runs_zero t)

theorem runs_add {n m : Nat} : ∀ {s t u : State}, runs n s t → runs m t u → runs (n + m) s u := by
  induction n with
  | zero => intro s t u h1 h2; cases h1; simpa using h2
  | succ n ih =>
    intro s t u h1 h2
    simp only [runs, Host.Core.run, Sys2Proof.core] at h1
    cases hs : step s with
    | next s' =>
      simp only [hs] at h1
      rw [Nat.add_right_comm]
      exact runs_succ hs (ih h1 h2)
    | fault r => simp [hs] at h1
    | refused r => simp [hs] at h1

/-- With nothing left to do for the host, a beat is a step. -/
theorem step_of_beatStep {s t : State} (hs : s.host.script = []) (h : beatStep s = some t) : step s = .next t := by
  rw [step_of_quiet hs, blockTurn_of_beatStep h]

/-! ## Room in OUTQ -/

/-- What a beat that pushes `out` does, by what it does as a whole. -/
theorem beatPushes_of {s : State} {b : Beat} {rest : List Beat} {out : List Beat} (hb : s.busy = true)
    (hq : s.inq = b :: rest) (ho : (beatEffect { s with inq := rest } b).outq = s.outq ++ out) :
    BeatPushes s out (beatEffect { s with inq := rest } b) := by
  have hp := pushedBeats_eq ho
  constructor
  · intro h; exact beatStep_of_room hb hq (by rwa [hp])
  · intro h; simp [beatStep_eq hb hq, whenRoom, hp, h]

/-! ## What no beat changes -/

/-- The seeding loop of R125 writes K and NODE only. -/
theorem seedBytes_frame (bs : List Byte) : ∀ u : State,
    bs.foldl seedByte u = { u with k := (bs.foldl seedByte u).k, node := (bs.foldl seedByte u).node } := by
  induction bs with
  | nil => intro u; rfl
  | cons b bs ih => intro u; rw [List.foldl_cons, ih]; unfold seedByte; split <;> rfl

/-- The loop of R200 leaves the host's side and the parameters alone. -/
theorem walkBits_frame (bits : List Bit) : ∀ s : State,
    (walkBits bits s).cfg = s.cfg ∧ (walkBits bits s).host = s.host := by
  induction bits with
  | nil => intro s; exact ⟨rfl, rfl⟩
  | cons b bs ih =>
    intro s; simp only [walkBits]
    split
    · split
      · exact ⟨rfl, rfl⟩
      · exact ih _
    · exact ih _

/-- The rule of no beat touches the parameters or the host's side. -/
theorem beatEffect_frame (s : State) (b : Beat) : (beatEffect s b).cfg = s.cfg ∧ (beatEffect s b).host = s.host := by
  unfold beatEffect
  split
  · exact ⟨rfl, rfl⟩
  · unfold scanBeat
    split
    · unfold scanEos
      simp only
      rw [seedBytes_frame]
      split <;> exact ⟨rfl, rfl⟩
    · unfold scanData; split <;> exact ⟨rfl, rfl⟩
  · unfold encodeBeat; split
    · exact ⟨rfl, rfl⟩
    · unfold encodeData; split <;> exact ⟨rfl, rfl⟩
  · unfold rdhdrBeat; split
    · exact ⟨rfl, rfl⟩
    · unfold rdhdrData; simp only; split
      · unfold rdhdrCount; simp only; split <;> exact ⟨rfl, rfl⟩
      · split
        · unfold rdhdrRecord; simp only; split
          · exact ⟨rfl, rfl⟩
          · unfold seedRecord; simp only; split <;> exact ⟨rfl, rfl⟩
        · exact ⟨rfl, rfl⟩
  · unfold decodeBeat; split
    · exact ⟨rfl, rfl⟩
    · exact walkBits_frame (byteBits b.data) s
  · unfold drainBeat; split <;> exact ⟨rfl, rfl⟩

/-- SCAN, RDHDR and draining push nothing (R63). -/
theorem beatEffect_quiet {s : State} (h1 : s.cur ≠ .encode) (h2 : s.cur ≠ .decode) (b : Beat) :
    (beatEffect s b).outq = s.outq := by
  unfold beatEffect
  split
  · rfl
  · unfold scanBeat
    split
    · unfold scanEos
      simp only
      rw [seedBytes_frame]
      split <;> rfl
    · unfold scanData; split <;> rfl
  · next h => exact absurd h h1
  · unfold rdhdrBeat; split
    · rfl
    · unfold rdhdrData; simp only; split
      · unfold rdhdrCount; simp only; split <;> rfl
      · split
        · unfold rdhdrRecord; simp only; split
          · rfl
          · unfold seedRecord; simp only; split <;> rfl
        · rfl
  · next h => exact absurd h h2
  · unfold drainBeat; split <;> rfl

/-- A beat of SCAN, RDHDR or draining never waits for OUTQ. -/
theorem beatStep_quiet {s : State} {b : Beat} {rest : List Beat} (h : s.cur = .scan ∨ s.cur = .rdhdr ∨ s.cur = .drain)
    (hq : s.inq = b :: rest) : beatStep s = some (beatEffect { s with inq := rest } b) := by
  refine beatStep_of_quiet ((busy_iff s).2 ?_) hq (beatEffect_quiet ?_ ?_ b) <;>
    rcases h with h | h | h <;> simp [h]

/-- No beat touches the parameters or the host's side. -/
theorem beatStep_frame {s t : State} (h : beatStep s = some t) : t.cfg = s.cfg ∧ t.host = s.host := by
  obtain ⟨b, rest, -, -, rfl, -⟩ := beatStep_some h
  exact beatEffect_frame { s with inq := rest } b

theorem blockTurn_frame (s : State) : (blockTurn s).cfg = s.cfg ∧ (blockTurn s).host = s.host := by
  rcases blockTurn_cases s with h | ⟨-, h⟩
  · exact beatStep_frame h
  · rw [h]; exact ⟨rfl, rfl⟩

/-- Whoever has the turn, the parameters and what the host has received stay. -/
theorem turn_frame (as : List Action) (s : State) :
    (turn as s).cfg = s.cfg ∧ (turn as s).host.popped = s.host.popped ∧ (turn as s).host.reads = s.host.reads ∧
    (turn as s).host.draws = s.host.draws := by
  obtain ⟨-, e⟩ | ⟨-, e⟩ := turn_cases as s <;> rw [e]
  · obtain ⟨hc, hh⟩ := blockTurn_frame (withScript as s)
    rw [hc, hh]; exact ⟨rfl, rfl, rfl, rfl⟩
  · obtain ⟨-, e⟩ | ⟨t, h, -, e⟩ | ⟨t, h, -, e⟩ := headerTurn_cases (withScript as s) <;> rw [e]
    · exact ⟨rfl, rfl, rfl, rfl⟩
    · obtain ⟨hc, hh, -⟩ := headerStep_frame h
      rw [hc, hh]; exact ⟨rfl, rfl, rfl, rfl⟩
    · obtain ⟨hc, hh, -⟩ := headerStep_frame h
      rw [withScript_cfg, withScript_host, hc, hh]; exact ⟨rfl, rfl, rfl, rfl⟩

/-! ## Tables stay canonical -/

theorem tablesWf_iff (s : State) : s.tablesWf = true ↔
    Table.wf 0#32 0 256 s.freq = true ∧ Table.wf Node.zero 1 512 s.node = true ∧ Table.wf Code.absent 0 256 s.code = true := by
  simp [State.tablesWf, and_assoc]

theorem setFreq_tablesWf {s : State} (h : s.tablesWf = true) (b : Byte) (v : Word) : (s.setFreq b v).tablesWf = true := by
  rw [tablesWf_iff] at h ⊢
  exact ⟨Table.write_wf h.1 (by omega) b.isLt, h.2.1, h.2.2⟩

theorem freqAt_setFreq {s : State} (h : s.tablesWf = true) (b c : Byte) (v : Word) :
    (s.setFreq b v).freqAt c = if c = b then v else s.freqAt c := by
  split
  · next hc => subst hc; exact Table.read_write_same ((tablesWf_iff s).1 h).1 _ _
  · next hc => exact Table.read_write_other _ _ fun e => hc (BitVec.eq_of_toNat_eq e)

theorem putCode_wf {ct : Table Code} (h : Table.wf Code.absent 0 256 ct = true) (b : Byte) (c : List Bit) :
    Table.wf Code.absent 0 256 (putCode ct b c) = true := Table.write_wf h (by omega) b.isLt

theorem read_putCode {ct : Table Code} (h : Table.wf Code.absent 0 256 ct = true) (b b' : Byte) (c : List Bit) :
    Table.read Code.absent (putCode ct b c) b'.toNat
      = if b' = b then ⟨BitVec.ofNat 8 c.length, c⟩ else Table.read Code.absent ct b'.toNat := by
  split
  · next hb => subst hb; exact Table.read_write_same h _ _
  · next hb => exact Table.read_write_other _ _ fun e => hb (BitVec.eq_of_toNat_eq e)

theorem setParent_wf {t : Table Node} (h : Table.wf Node.zero 1 512 t = true) (i : Nat) (p : Index) :
    Table.wf Node.zero 1 512 (setParent t i p) = true := putNode_wf h _ _

/-- NODE after one write of a parent, entry by entry. -/
theorem nodeIn_setParent {t : Table Node} (h : Table.wf Node.zero 1 512 t = true) (i j : Nat) (p : Index) :
    nodeIn (setParent t i p) j = if j = i ∧ 1 ≤ i ∧ i < 512 then { nodeIn t i with parent := p } else nodeIn t j :=
  nodeIn_putNode h i j _

theorem mergeStep_wf {t : Table Node} (h : Table.wf Node.zero 1 512 t = true) (num : Nat) :
    Table.wf Node.zero 1 512 (mergeStep t num) = true := setParent_wf (setParent_wf (putNode_wf h _ _) _ _) _ _

theorem buildTree_wf {t : Table Node} (h : Table.wf Node.zero 1 512 t = true) (k : Nat) :
    Table.wf Node.zero 1 512 (buildTree t k) = true := by
  unfold buildTree
  split
  · exact putNode_wf h _ _
  · refine setParent_wf ?_ _ _
    generalize List.range' (k + 1) (k - 1) = l
    induction l generalizing t with
    | nil => exact h
    | cons n ns ih => exact ih (mergeStep_wf h n)

theorem clearState_tablesWf (s : State) : (clearState s).tablesWf = true := rfl

end Sys2Proof.Safety
end

