-- ==== Sys2Proof/Laws/Beats.lean ====
section
/-! SUPPORT. A beat looks at nothing of the ports but its own head (R79): what it computes and pushes is the same whatever the
host, the queues, a split WRHDR (log 6) and OUT_DEPTH are. -/

namespace Sys2Proof.Machine

open Sys2Proof

/-- A state between other ports: another host, other queues, another split WRHDR, another OUT_DEPTH. -/
def State.withPorts (s : State) (h : HostSide) (q o : List Beat) (p : Nat) (d : Option Nat) : State :=
  { s with host := h, inq := q, outq := o, sent := p, cfg := { s.cfg with outDepth := d } }

@[simp] theorem withPorts_self (s : State) : s.withPorts s.host s.inq s.outq s.sent s.cfg.outDepth = s := rfl

end Sys2Proof.Machine

namespace Sys2Proof.Safety

open Sys2Proof Sys2Proof.Machine

/-- `f` appends the same beats to OUTQ and does the same to the rest of the state, whatever the ports are. -/
abbrev PortFree (f : State → State) : Prop :=
  ∀ s, ∃ out, ∀ h q o p d, f (s.withPorts h q o p d) = (f s).withPorts h q (o ++ out) p d

theorem seed_portFree (bs : List Byte) : ∀ (s : State) h q o p d,
    bs.foldl seedByte (s.withPorts h q o p d) = (bs.foldl seedByte s).withPorts h q o p d := by
  induction bs with
  | nil => intro s h q o p d; rfl
  | cons b bs ih =>
    intro s h q o p d
    rw [List.foldl_cons, List.foldl_cons, ← ih]
    congr 1
    unfold seedByte
    by_cases hz : s.freqAt b = 0#32
    · rw [if_pos hz, if_pos (by exact hz)]
    · rw [if_neg hz, if_neg (by exact hz)]; rfl

theorem walkBits_portFree (bits : List Bit) : PortFree (walkBits bits) := by
  induction bits with
  | nil => exact fun s => ⟨[], fun h q o p d => by simp [walkBits, State.withPorts]⟩
  | cons b bs ih =>
    intro s
    set t : State := { s with ptr := childOf (s.nodeAt s.ptr.toNat) b } with ht
    have e1 : walkBits (b :: bs) s = if t.ptr.toNat ≤ t.k.toNat then
        (if (emitSymbol t).remain = 0#32 then finishDecode (emitSymbol t)
         else walkBits bs { emitSymbol t with ptr := rootPtr (emitSymbol t) }) else walkBits bs t := rfl
    have e2 : ∀ h q o p d, walkBits (b :: bs) (s.withPorts h q o p d) = if t.ptr.toNat ≤ t.k.toNat then
        (if (emitSymbol t).remain = 0#32 then
          (finishDecode (emitSymbol t)).withPorts h q (o ++ [dataBeat (t.nodeAt t.ptr.toNat).sym] ++ [eosBeat]) p d
         else walkBits bs (State.withPorts { emitSymbol t with ptr := rootPtr (emitSymbol t) } h q
           (o ++ [dataBeat (t.nodeAt t.ptr.toNat).sym]) p d)) else walkBits bs (t.withPorts h q o p d) := fun _ _ _ _ _ => rfl
    simp only [e1, e2]
    split
    · split
      · exact ⟨[dataBeat (t.nodeAt t.ptr.toNat).sym] ++ [eosBeat], fun h q o p d => by rw [List.append_assoc]⟩
      · obtain ⟨out, ho⟩ := ih { emitSymbol t with ptr := rootPtr (emitSymbol t) }
        exact ⟨[dataBeat (t.nodeAt t.ptr.toNat).sym] ++ out, fun h q o p d => by rw [ho, List.append_assoc]⟩
    · exact ih t

theorem raise_portFree (e : Err) (dr : Bool) : PortFree (raiseFault e dr) :=
  fun s => ⟨[], fun h q o p d => by rw [List.append_nil]; rfl⟩

theorem scan_portFree (b : Beat) : PortFree (fun s => scanBeat s b) := by
  intro s
  simp only [scanBeat]
  cases b.eos
  · simp only [Bool.false_eq_true, if_false, scanData]
    by_cases hz : s.total.toNat = s.cfg.maxLen
    · obtain ⟨out, ho⟩ := raise_portFree .overflow true s
      exact ⟨out, fun h q o p d => by rw [if_pos hz, if_pos (by exact hz), ho]⟩
    · exact ⟨[], fun h q o p d => by rw [if_neg hz, if_neg (by exact hz), List.append_nil]; rfl⟩
  · simp only [if_true, scanEos]
    have e := seed_portFree byteValues { s with k := 0#9 }
    have e : ∀ h q o p d, byteValues.foldl seedByte { s.withPorts h q o p d with k := 0#9 }
      = (byteValues.foldl seedByte { s with k := 0#9 }).withPorts h q o p d := e
    simp only [e]
    generalize byteValues.foldl seedByte { s with k := 0#9 } = v
    by_cases hz : v.k = 0#9
    · obtain ⟨out, ho⟩ := raise_portFree .empty false { v with nn := v.k.setWidth 10 }
      exact ⟨out, fun h q o p d => by rw [if_pos hz, if_pos (by exact hz), ← ho]; rfl⟩
    · exact ⟨[], fun h q o p d => by rw [if_neg hz, if_neg (by exact hz), List.append_nil]; rfl⟩

theorem encode_portFree (b : Beat) : PortFree (fun s => encodeBeat s b) := by
  intro s
  simp only [encodeBeat]
  cases b.eos
  · simp only [Bool.false_eq_true, if_false, encodeData]
    by_cases hz : (s.codeAt b.data).len = 0#8
    · exact ⟨[eosBeat], fun h q o p d => by rw [if_pos hz, if_pos (by exact hz)]; rfl⟩
    · exact ⟨dataBeats (packPending (s.acc ++ (s.codeAt b.data).bits)).1, fun h q o p d => by
        rw [if_neg hz, if_neg (by exact hz)]; rfl⟩
  · exact ⟨dataBeats (flushBytes s.acc) ++ [eosBeat], fun h q o p d => rfl⟩

theorem rdhdr_portFree (b : Beat) : PortFree (fun s => rdhdrBeat s b) := by
  have count : PortFree rdhdrCount := by
    intro s
    unfold rdhdrCount; simp only
    by_cases hz : s32 s.cfg.endian s.hbuf < 1 ∨ 256 < s32 s.cfg.endian s.hbuf
    · obtain ⟨out, ho⟩ := raise_portFree .malformed true s
      exact ⟨out, fun h q o p d => by rw [if_pos hz, if_pos (by exact hz), ho]⟩
    · exact ⟨[], fun h q o p d => by rw [if_neg hz, if_neg (by exact hz), List.append_nil]; rfl⟩
  have record : PortFree rdhdrRecord := by
    intro s
    unfold rdhdrRecord; simp only
    by_cases hz : recordRefused (s.hbuf.headD 0#8) (s32 s.cfg.endian s.hbuf.tail) s = true
    · obtain ⟨out, ho⟩ := raise_portFree .malformed true s
      exact ⟨out, fun h q o p d => by rw [if_pos hz, if_pos (by exact hz), ho]⟩
    · refine ⟨[], fun h q o p d => ?_⟩
      rw [if_neg hz, if_neg (by exact hz), List.append_nil]
      unfold seedRecord; simp only
      by_cases hk : s.hi = s.k
      · rw [if_pos hk, if_pos (by exact hk)]; rfl
      · rw [if_neg hk, if_neg (by exact hk)]; rfl
  intro s
  simp only [rdhdrBeat]
  cases b.eos
  · simp only [Bool.false_eq_true, if_false]
    unfold rdhdrData; simp only
    by_cases h1 : s.hstage = 0#1 ∧ (s.hbuf ++ [b.data]).length = 4
    · obtain ⟨out, ho⟩ := count { s with hbuf := s.hbuf ++ [b.data] }
      exact ⟨out, fun h q o p d => by rw [if_pos h1, if_pos (by exact h1), ← ho]; rfl⟩
    · by_cases h2 : s.hstage = 1#1 ∧ (s.hbuf ++ [b.data]).length = 5
      · obtain ⟨out, ho⟩ := record { s with hbuf := s.hbuf ++ [b.data] }
        exact ⟨out, fun h q o p d => by rw [if_neg h1, if_neg (by exact h1), if_pos h2, if_pos (by exact h2), ← ho]; rfl⟩
      · exact ⟨[], fun h q o p d => by
          rw [if_neg h1, if_neg (by exact h1), if_neg h2, if_neg (by exact h2), List.append_nil]; rfl⟩
  · exact raise_portFree .malformed false s

theorem decode_portFree (b : Beat) : PortFree (fun s => decodeBeat s b) := by
  intro s
  simp only [decodeBeat]
  cases b.eos
  · exact walkBits_portFree (byteBits b.data) s
  · exact ⟨[eosBeat], fun h q o p d => rfl⟩

theorem beatEffect_portFree (b : Beat) : PortFree (fun s => beatEffect s b) := by
  intro s
  have e : ∀ h q o p d, beatEffect (s.withPorts h q o p d) b = match s.cur with
    | .none   => s.withPorts h q o p d
    | .scan   => scanBeat (s.withPorts h q o p d) b
    | .encode => encodeBeat (s.withPorts h q o p d) b
    | .rdhdr  => rdhdrBeat (s.withPorts h q o p d) b
    | .decode => decodeBeat (s.withPorts h q o p d) b
    | .drain  => drainBeat (s.withPorts h q o p d) b := fun _ _ _ _ _ => rfl
  simp only [e]
  unfold beatEffect
  cases s.cur
  · exact ⟨[], fun h q o p d => by rw [List.append_nil]⟩
  · exact scan_portFree b s
  · exact encode_portFree b s
  · exact rdhdr_portFree b s
  · exact decode_portFree b s
  · refine ⟨[], fun h q o p d => ?_⟩
    rw [List.append_nil]; simp only [drainBeat]; cases b.eos <;> rfl

/-- Everything a beat does to the ports: it appends beats to OUTQ, and leaves the host, INQ, a split WRHDR and OUT_DEPTH
alone; and what it does is the same between any other ports. -/
theorem beatEffect_ports (s : State) (b : Beat) : ∃ out,
    (beatEffect s b).outq = s.outq ++ out ∧ (beatEffect s b).inq = s.inq ∧ (beatEffect s b).sent = s.sent ∧
    ∀ h q o p d, beatEffect (s.withPorts h q o p d) b = (beatEffect s b).withPorts h q (o ++ out) p d := by
  obtain ⟨out, ho⟩ := beatEffect_portFree b s
  have e : beatEffect s b =
      (beatEffect s b).withPorts s.host s.inq (s.outq ++ out) s.sent s.cfg.outDepth :=
    ho s.host s.inq s.outq s.sent s.cfg.outDepth
  exact ⟨out, by rw [e]; rfl, by rw [e]; rfl, by rw [e]; rfl, ho⟩

end Sys2Proof.Safety
end

