-- ==== Sys2Proof/Laws/Bits.lean ====
section
/-! SUPPORT. Bits in bytes (R102, R103): packing and unpacking undo each other, and a packing is the only one. -/

namespace Sys2Proof.Safety

open Sys2Proof Sys2Proof.Machine

@[simp] theorem byteBits_length (d : Byte) : (byteBits d).length = 8 := rfl

@[simp] theorem dataBeats_length (bs : List Byte) : (dataBeats bs).length = bs.length := by simp [dataBeats]

@[simp] theorem intBytes_length (e : Endian) (v : Word) : (intBytes e v).length = 4 := by cases e <;> rfl

theorem flatMap_byteBits_length (bs : List Byte) : (bs.flatMap byteBits).length = 8 * bs.length := by
  induction bs with
  | nil => rfl
  | cons b bs ih => rw [List.flatMap_cons, List.length_append, ih, byteBits_length, List.length_cons]; ring

theorem byteBits_pack8_of_bits :
    ∀ a b c d e f g h : Bool, byteBits (pack8 [a, b, c, d, e, f, g, h]) = [a, b, c, d, e, f, g, h] := by
  decide +kernel

/-- Eight bits packed and taken apart again are the same bits. -/
theorem byteBits_pack8 {l : List Bit} (h : l.length = 8) : byteBits (pack8 l) = l := by
  match l, h with
  | [a, b, c, d, e, f, g, i], _ => exact byteBits_pack8_of_bits ..

/-- A byte taken apart and packed again is the same byte. -/
@[simp] theorem pack8_byteBits : ∀ d : Byte, pack8 (byteBits d) = d := by decide +kernel

/-- The packing loop splits the pending bits into whole bytes and a rest of fewer than 8. -/
theorem packWhole_spec : ∀ (fuel : Nat) (acc : List Bit), acc.length ≤ fuel →
    acc = (packWhole fuel acc).1.flatMap byteBits ++ (packWhole fuel acc).2 ∧ (packWhole fuel acc).2.length < 8 := by
  intro fuel
  induction fuel with
  | zero => intro acc h; simp at h; subst h; simp [packWhole]
  | succ n ih =>
    intro acc h
    unfold packWhole
    split
    · next h8 =>
      obtain ⟨a, b⟩ := ih (acc.drop 8) (by rw [List.length_drop]; omega)
      simp only [List.flatMap_cons]
      refine ⟨?_, b⟩
      rw [byteBits_pack8 (by rw [List.length_take]; omega), List.append_assoc, ← a, List.take_append_drop]
    · next h8 => simp; omega

/-- There is one way only to split bits into whole bytes and fewer than 8 bits. -/
theorem pack_unique : ∀ (bs cs : List Byte) (r q : List Bit), r.length < 8 → q.length < 8 →
    bs.flatMap byteBits ++ r = cs.flatMap byteBits ++ q → bs = cs ∧ r = q := by
  intro bs
  induction bs with
  | nil =>
    intro cs r q hr hq h
    cases cs with
    | nil => exact ⟨rfl, by simpa using h⟩
    | cons c cs =>
      have := congrArg List.length h
      simp [List.length_append] at this
      omega
  | cons b bs ih =>
    intro cs r q hr hq h
    cases cs with
    | nil =>
      have := congrArg List.length h
      simp [List.length_append] at this
      omega
    | cons c cs =>
      rw [List.flatMap_cons, List.flatMap_cons, List.append_assoc, List.append_assoc] at h
      obtain ⟨h1, h2⟩ := List.append_inj h rfl
      obtain ⟨e1, e2⟩ := ih cs r q hr hq h2
      have : b = c := by rw [← pack8_byteBits b, h1, pack8_byteBits]
      exact ⟨by rw [this, e1], e2⟩

theorem packPending_eq {acc : List Bit} {bs : List Byte} {r : List Bit} (hr : r.length < 8)
    (h : acc = bs.flatMap byteBits ++ r) : packPending acc = (bs, r) := by
  obtain ⟨a, b⟩ := packWhole_spec acc.length acc le_rfl
  obtain ⟨e1, e2⟩ := pack_unique _ _ _ _ b hr (a.symm.trans h)
  exact Prod.ext e1 e2

/-- Packing all at once is the whole bytes, then the flush of R180. -/
theorem packAll_eq (bs : List Byte) (r : List Bit) (hr : r.length < 8) :
    packAll (bs.flatMap byteBits ++ r) = bs ++ flushBytes r := by
  induction bs with
  | nil =>
    simp only [List.flatMap_nil, List.nil_append]
    unfold packAll flushBytes
    by_cases h : r = []
    · subst h; rfl
    · have : 0 < r.length := List.length_pos_iff.2 h
      rw [if_neg h, show (r.length + 7) / 8 = 1 by omega]
      simp [List.take_of_length_le (show r.length ≤ 8 by omega)]
  | cons b bs ih =>
    rw [List.flatMap_cons, List.append_assoc]
    set rest := bs.flatMap byteBits ++ r
    rw [List.cons_append, ← ih]
    unfold packAll
    rw [show ((byteBits b ++ rest).length + 7) / 8 = (rest.length + 7) / 8 + 1 by
      rw [List.length_append, byteBits_length]; omega]
    rw [List.range_succ_eq_map, List.map_cons]
    congr 1
    · simp only [Nat.mul_zero, List.drop_zero]
      rw [List.take_append_of_le_length (by rw [byteBits_length]), List.take_of_length_le (by rw [byteBits_length])]
      rw [show padZeros (byteBits b) = byteBits b by simp [padZeros], pack8_byteBits]
    · rw [List.map_map]
      apply List.map_congr_left
      intro j _
      simp only [Function.comp]
      congr 3

/-! ## Walks (R200), bit by bit -/

theorem descend_cons (t : Table Node) (i : Index) (b : Bit) (bits : List Bit) :
    descend t i (b :: bits) = descend t (childOf (nodeIn t i.toNat) b) bits := rfl

/-- A bit that leads to a leaf gives its symbol, and the walk starts again at the root. -/
theorem reads_leaf {s : State} {p q : Index} {b : Bit} {bits : List Bit} {symbols : List Byte}
    (h : (childOf (s.nodeAt p.toNat) b).toNat ≤ s.k.toNat) (hr : Reads s (rootPtr s) bits symbols q) :
    Reads s p (b :: bits) ((s.nodeAt (childOf (s.nodeAt p.toNat) b).toNat).sym :: symbols) q := by
  refine Reads.leaf p [b] bits symbols q (List.cons_ne_nil _ _) (fun before h1 h2 h3 => ?_) h hr
  rcases List.prefix_cons_iff.1 h1 with e | ⟨t, rfl, ht⟩
  · exact absurd e h2
  · exact absurd (by rw [List.prefix_nil.1 ht]) h3

/-- A bit that leads to a node above K only moves the walk there. -/
theorem reads_inner {s : State} {p q : Index} {b : Bit} {bits : List Bit} {symbols : List Byte}
    (h : s.k.toNat < (childOf (s.nodeAt p.toNat) b).toNat)
    (hr : Reads s (childOf (s.nodeAt p.toNat) b) bits symbols q) : Reads s p (b :: bits) symbols q := by
  have first : ∀ path : List Bit, path <+: b :: bits → path ≠ [] →
      ∃ more, path = b :: more ∧ more <+: bits := by
    intro path h1 h2
    rcases List.prefix_cons_iff.1 h1 with e | ⟨t, e, ht⟩
    · exact absurd e h2
    · exact ⟨t, e, ht⟩
  cases hr with
  | stop _ _ above =>
    refine Reads.stop p (b :: bits) fun path h1 h2 => ?_
    obtain ⟨more, rfl, hm⟩ := first path h1 h2
    by_cases he : more = []
    · subst he; exact h
    · exact above more hm he
  | leaf _ path bits' symbols' _ moves above atLeaf again =>
    refine Reads.leaf p (b :: path) bits' symbols' q (List.cons_ne_nil _ _) (fun before h1 h2 h3 => ?_) atLeaf again
    rcases List.prefix_cons_iff.1 h1 with e | ⟨more, rfl, hm⟩
    · exact absurd e h2
    · by_cases he : more = []
      · subst he; exact h
      · exact above more hm he fun e => h3 (by rw [e])

/-- The header of R215 is 4 + 5K bytes long. -/
theorem headerBytes_length (s : State) : (headerBytes s).length = 4 + 5 * s.k.toNat := by
  unfold headerBytes
  rw [List.length_append, intBytes_length, List.length_flatMap]
  have : (List.map (fun a => (recordBytes s a).length) (leafIndices s.k.toNat)) = List.replicate s.k.toNat 5 := by
    rw [List.eq_replicate_iff]
    refine ⟨by simp [leafIndices], ?_⟩
    intro b hb
    simp only [List.mem_map] at hb
    obtain ⟨a, -, rfl⟩ := hb
    simp [recordBytes]
  rw [this]; simp; omega

end Sys2Proof.Safety
end

