-- ==== Sys2Proof/Laws/PerInstr.lean ====
section
/-! SUPPORT. Statements made once for each command: the form of its word (R91, R105). -/

namespace Sys2Proof.Laws.WordForm

open Sys2Proof

/-- A command is well formed, and its word has four zero upper bits and an assigned opcode (R91, R92). -/
def Statement (i : Instr) : Prop := i.wf = true ∧ upperBitsZero (encode i) = true ∧ opAssigned (encode i) = true

theorem clear : Statement .clear := by unfold Statement; decide
theorem scan : Statement .scan := by unfold Statement; decide
theorem build : Statement .build := by unfold Statement; decide
theorem gencode : Statement .gencode := by unfold Statement; decide
theorem wrhdr : Statement .wrhdr := by unfold Statement; decide
theorem encode : Statement .encode := by unfold Statement; decide
theorem rdhdr : Statement .rdhdr := by unfold Statement; decide
theorem decode : Statement .decode := by unfold Statement; decide
theorem halt : Statement .halt := by unfold Statement; decide
theorem drain : Statement .drain := by unfold Statement; decide

end Sys2Proof.Laws.WordForm
end

