-- ==== Sys2Proof/Tests/Slice0.lean ====
section
/-! SUPPORT. Tests against the spec's own vectors (95_test_vectors.md), and a witness for the hypotheses of every statement. -/

namespace Sys2Proof.Tests

open Sys2Proof Sys2Proof.Machine Sys2Proof.Safety

/-! ## Well-formedness (R91, R92, R105) and decoding (R92, R93) -/

theorem test_wf_refuses_upper_bits : wordWf 0b00010010#8 = false := by decide
theorem test_wf_refuses_opcode_zero : wordWf 0b00000000#8 = false := by decide
theorem test_wf_refuses_opcode_eleven : wordWf 0b00001011#8 = false := by decide
theorem test_wf_refuses_opcode_fifteen : wordWf 0b00001111#8 = false := by decide
theorem test_wf_refuses_maxLen_zero : Config.wf { maxLen := 0 } = false := by decide
theorem test_wf_refuses_maxLen_too_large : Config.wf { maxLen := 2147483648 } = false := by decide
theorem test_wf_accepts_defaults : Config.default.wf = true := by decide

/-- A decoder's answer, comparable. -/
def decoded (w : Byte) : Option Instr := (decode w).toOption

theorem test_decode_clear : decoded 0b00000001#8 = some .clear := by decide
theorem test_decode_scan : decoded 0b00000010#8 = some .scan := by decide
theorem test_decode_build : decoded 0b00000011#8 = some .build := by decide
theorem test_decode_gencode : decoded 0b00000100#8 = some .gencode := by decide
theorem test_decode_wrhdr : decoded 0b00000101#8 = some .wrhdr := by decide
theorem test_decode_encode : decoded 0b00000110#8 = some .encode := by decide
theorem test_decode_rdhdr : decoded 0b00000111#8 = some .rdhdr := by decide
theorem test_decode_decode : decoded 0b00001000#8 = some .decode := by decide
theorem test_decode_halt : decoded 0b00001001#8 = some .halt := by decide
theorem test_decode_drain : decoded 0b00001010#8 = some .drain := by decide

/-- V-CTL-2: a legal low nibble below nonzero upper bits is no command, nor is a reserved opcode. -/
theorem test_decode_refuses_reserved :
    [0x00#8, 0x0B#8, 0x0F#8, 0x10#8, 0x12#8, 0x81#8, 0xFF#8].map decoded = List.replicate 7 none := by decide

/-! ## Small states -/

/-- One step answers a next state with the property. -/
def nextIs (o : Host.Outcome State Fault Refusal) (p : State → Bool) : Bool :=
  match o with
  | .next t => p t
  | _       => false

/-- The host offers one word and has nothing else to do. -/
def offer (w : Byte) (s : State) : State := withScript [.issue w] s

/-- Data beats waiting in INQ, then one EOS beat whose data bits are 0xFF (V-SCAN-10). -/
def fed (bytes : List Byte) (s : State) : State := { s with inq := frame bytes 0xFF#8 }

/-- One data beat waiting. -/
def beat (d : Byte) (s : State) : State := { s with inq := [dataBeat d] }

/-- A phase, everything else as after reset. -/
def inPhase (p : Phase) : State := { State.reset with phase := p }

/-- A stream command in progress, everything else as after reset. -/
def running (c : Cur) : State := { State.reset with cur := c }

/-- "aaab" after SCAN (V-SCAN-1). -/
def scanned : State := { State.reset with
  phase := .scanned, freq := [(0x61, 3#32), (0x62, 1#32)]
  node := [(1, leafNode 0x61#8 3#32), (2, leafNode 0x62#8 1#32)], k := 2#9, nn := 2#10, total := 4#32 }

/-- "aaab" after BUILD (V-BUILD-1). -/
def builtC : State := { scanned with
  phase := .builtC, nn := 3#10
  node := [(1, ⟨0x61#8, 3#32, 3#9, 0#9, 0#9⟩), (2, ⟨0x62#8, 1#32, 3#9, 0#9, 0#9⟩), (3, ⟨0x00#8, 4#32, 0#9, 2#9, 1#9⟩)] }

/-- The same tree on the decompression path (V-BUILD-13). -/
def builtD : State := { builtC with phase := .builtD, freq := [] }

/-- "aaab" after GENCODE (V-GEN-1). -/
def coded : State := { builtC with
  phase := .coded, code := [(0x61, ⟨1#8, [true]⟩), (0x62, ⟨1#8, [false]⟩)] }

/-- "aaab", ENCODE in progress (P1). -/
def encoding : State := { coded with phase := .hdrWritten, cur := .encode }

/-- "aaab", DECODE in progress (V-DEC-1: REMAIN 4, PTR 3). -/
def decoding : State := { builtD with cur := .decode, remain := 4#32, ptr := 3#9 }

/-- One symbol, 9 times, after SCAN and after BUILD (V-BUILD-2). -/
def scannedZ : State := { State.reset with
  phase := .scanned, freq := [(0x7A, 9#32)], node := [(1, leafNode 0x7A#8 9#32)], k := 1#9, nn := 1#10, total := 9#32 }

def builtZ : State := { scannedZ with phase := .builtC, node := [(1, ⟨0x7A#8, 9#32, 0#9, 1#9, 1#9⟩)] }

def decodingZ : State := { builtZ with phase := .builtD, freq := [], cur := .decode, remain := 9#32, ptr := 1#9 }

/-- The leaves of "abracadabra" (V-SCAN-2) and its tree (V-BUILD-8). -/
def leavesAbra : Table Node :=
  [(1, leafNode 0x61#8 5#32), (2, leafNode 0x62#8 2#32), (3, leafNode 0x63#8 1#32), (4, leafNode 0x64#8 1#32),
   (5, leafNode 0x72#8 2#32)]

def treeAbra : Table Node :=
  [(1, ⟨0x61#8, 5#32, 9#9, 0#9, 0#9⟩), (2, ⟨0x62#8, 2#32, 7#9, 0#9, 0#9⟩), (3, ⟨0x63#8, 1#32, 6#9, 0#9, 0#9⟩),
   (4, ⟨0x64#8, 1#32, 6#9, 0#9, 0#9⟩), (5, ⟨0x72#8, 2#32, 7#9, 0#9, 0#9⟩), (6, ⟨0x00#8, 2#32, 8#9, 3#9, 4#9⟩),
   (7, ⟨0x00#8, 4#32, 8#9, 2#9, 5#9⟩), (8, ⟨0x00#8, 6#32, 9#9, 6#9, 7#9⟩), (9, ⟨0x00#8, 11#32, 0#9, 1#9, 8#9⟩)]

/-- RDHDR at record 2 of 2, record 1 having been byte value 0x62 (V-HDR-F4); the field's first four bytes are in. -/
def parsing : State := { running .rdhdr with
  hstage := 1#1, k := 2#9, hi := 2#9, hprev := 0x62#9, total := 1#32, node := [(1, leafNode 0x62#8 1#32)]
  hbuf := [0x63#8, 0x03#8, 0x00#8, 0x00#8] }

/-- RDHDR with three bytes of the K field. -/
def counting (b0 b1 : Byte) : State := { running .rdhdr with hprev := noRecordYet, hbuf := [b0, b1, 0x00#8] }

/-- A finite OUT_DEPTH. -/
def bounded (d : Nat) (s : State) : State := { s with cfg := { outDepth := some d } }

/-- A finite OUT_DEPTH and a full OUTQ. -/
def crowded (d : Nat) (s : State) : State := { bounded d s with outq := List.replicate d eosBeat }

/-- "aaab" before WRHDR, whose word is at the head of the script with `n` of its 14 beats pushed. -/
def waiting (d n : Nat) (as : List Action := []) : State :=
  withScript (.issue 0x05#8 :: as) { bounded d coded with sent := n }

/-! ## Single steps against the spec's vectors -/

/-- V-CTL-6: CLEAR leaves FAULTS alone. -/
theorem test_clear_keeps_faults :
    nextIs (exec .clear { State.reset with err := .sequence, faults := 0x28#8 }) (fun t => statusWord t == 0x00280000#32) := by
  decide

/-- V-CTL-7: after CLEAR every table word reads 0. -/
theorem test_clear_clears_tables :
    nextIs (exec .clear coded) (fun t => t.phase == .idle && architectedWord t 0x0161#16 == 0#32 &&
      architectedWord t 0x0403#16 == 0#32 && architectedWord t 0x0861#16 == 0#32 && architectedWord t 0x0004#16 == 0#32) := by
  decide

/-- V-SCAN-1: at the EOS the leaves are (61, 3) and (62, 1), PHASE is SCANNED. -/
theorem test_scan_seeds_aaab :
    nextIs (step (fed [] { running .scan with freq := [(0x61, 3#32), (0x62, 1#32)], total := 4#32 }))
      (fun t => statusWord t == 0x00000001#32 && t.node == scanned.node && t.k == 2#9 && t.nn == 2#10) := by
  decide +kernel

/-- V-SCAN-8: with MAX_LEN 3 the fourth beat is E_OVERFLOW, draining. -/
theorem test_scan_overflow :
    nextIs (step (beat 0x64#8 { running .scan with
        cfg := { maxLen := 3 }, freq := [(0x61, 1#32), (0x62, 1#32), (0x63, 1#32)], total := 3#32 }))
      (fun t => statusWord t == 0x004016A0#32 && t.freq == [] && t.total == 0#32) := by
  decide

/-- V-BUILD-1 and its NODE_LINK words. -/
theorem test_build_aaab :
    nextIs (exec .build scanned) (fun t => t.node == builtC.node && t.nn == 3#10 && t.phase == .builtC &&
      architectedWord t 0x0401#16 == 0x00000003#32 && architectedWord t 0x0403#16 == 0x00040400#32) := by
  decide +kernel

/-- V-BUILD-8: "abracadabra", with ties; NODE_LINK[8] is 0x001C0C09. -/
theorem test_build_abracadabra :
    nextIs (exec .build { scanned with node := leavesAbra, k := 5#9 })
      (fun t => t.node == treeAbra && t.nn == 9#10 && architectedWord t 0x0408#16 == 0x001C0C09#32) := by
  decide +kernel

/-- V-GEN-8: the codes of "abracadabra". -/
theorem test_gencode_abracadabra :
    nextIs (exec .gencode { builtC with node := treeAbra, k := 5#9 })
      (fun t => t.code == [(0x61, ⟨1#8, [false]⟩), (0x62, ⟨3#8, [true, true, false]⟩), (0x63, ⟨3#8, [true, false, false]⟩),
        (0x64, ⟨3#8, [true, false, true]⟩), (0x72, ⟨3#8, [true, true, true]⟩)]) := by
  decide +kernel

/-- V-GEN-2: K = 1, the code is 1; CODE_BITS word 0 is 0x80000000. -/
theorem test_gencode_single :
    nextIs (exec .gencode builtZ) (fun t => statusWord t == 0x00000005#32 &&
      architectedWord t 0x087A#16 == 1#32 && architectedWord t 0x13D0#16 == 0x80000000#32) := by
  decide +kernel

/-- V-ENC-1: the 14 header bytes of "aaab", no EOS. -/
theorem test_wrhdr_aaab :
    nextIs (exec .wrhdr coded) (fun t => statusWord t == 0x00000006#32 && t.outq == dataBeats
      [0x02#8, 0x00#8, 0x00#8, 0x00#8, 0x61#8, 0x03#8, 0x00#8, 0x00#8, 0x00#8, 0x62#8, 0x01#8, 0x00#8, 0x00#8, 0x00#8]) := by
  decide

/-- R67: with ENDIAN = big the four bytes of a field are reversed. -/
theorem test_wrhdr_big_endian :
    nextIs (exec .wrhdr { coded with cfg := { endian := .big } }) (fun t => t.outq.take 9 == dataBeats
      [0x00#8, 0x00#8, 0x00#8, 0x02#8, 0x61#8, 0x00#8, 0x00#8, 0x00#8, 0x03#8]) := by
  decide

/-- R73, R84 (b), with V-ENC-1's header of 14 beats: with OUT_DEPTH 14 and one beat in OUTQ the word waits, the host pops, and
the word is taken; with OUT_DEPTH 1 the header goes out beat by beat, and only its last beat (zero) gives the word up. -/
theorem test_wrhdr_waits_or_splits :
    nextIs (step { waiting 14 0 [.popOut] with outq := [eosBeat] }) (fun t => statusWord t == 0x00000005#32 &&
      t.outq == [] && t.host.script == [.issue 0x05#8] && nextIs (step t) (fun u => u.outq.length == 14 && u.host.script == [])) &&
    nextIs (step (waiting 1 4)) (fun t => t.outq == [⟨false, 0x61#8⟩] && statusWord t == 0x00000005#32 &&
      t.host.script == [.issue 0x05#8]) &&
    nextIs (step (waiting 1 13))
      (fun t => t.outq == [⟨false, 0x00#8⟩] && statusWord t == 0x00000006#32 && t.host.script == []) := by
  decide +kernel

/-- R185: 1110 pending at the EOS gives the byte E0 and EOS. -/
theorem test_encode_flush :
    nextIs (step (fed [] { encoding with acc := [true, true, true, false] }))
      (fun t => statusWord t == 0x00000000#32 && t.outq == [⟨false, 0xE0#8⟩, ⟨true, 0x00#8⟩] && t.code == []) := by
  decide

/-- V-ENC-2: the eighth bit completes the byte FF. -/
theorem test_encode_whole_byte :
    nextIs (step (beat 0x61#8 { encoding with acc := List.replicate 7 true }))
      (fun t => t.outq == [⟨false, 0xFF#8⟩] && t.acc == []) := by
  decide

/-- V-HDR-F4: byte value 0x61 after 0x62 is malformed at the record's last byte, draining. -/
theorem test_rdhdr_descending :
    nextIs (step (beat 0x00#8 { parsing with hbuf := [0x61#8, 0x03#8, 0x00#8, 0x00#8] }))
      (fun t => statusWord t == 0x001014A0#32 && t.node == [] && t.outq == []) := by
  decide

/-- R231 (a): the K field 00 01 00 00 reads as 256, FF FF FF FF as -1. -/
theorem test_rdhdr_count :
    nextIs (step (beat 0x00#8 (counting 0x00#8 0x01#8))) (fun t => t.k == 256#9 && t.hstage == 1#1 && t.hi == 1#9) &&
    nextIs (step (beat 0xFF#8 { counting 0xFF#8 0xFF#8 with hbuf := [0xFF#8, 0xFF#8, 0xFF#8] }))
      (fun t => statusWord t == 0x001014A0#32) := by
  decide

/-- V-DEC-1: E0 gives 61 61 61 62 and EOS; the block is draining. -/
theorem test_decode_aaab :
    nextIs (step (beat 0xE0#8 decoding)) (fun t => statusWord t == 0x000010A0#32 &&
      t.outq == [⟨false, 0x61#8⟩, ⟨false, 0x61#8⟩, ⟨false, 0x61#8⟩, ⟨false, 0x62#8⟩, ⟨true, 0x00#8⟩] && t.node == []) := by
  decide +kernel

/-- V-DEC-1: the five beats go out in one step with OUT_DEPTH 5; with OUT_DEPTH 4 the step waits for a pop, and with
OUT_DEPTH 3 for two, which lift its wait and take the first beats in the same step; a read between the two pops comes after it
(R74, R84 (b), R309, log 6). -/
theorem test_decode_waits :
    nextIs (step (beat 0xE0#8 (bounded 5 decoding))) (fun t => t.outq.length == 5 && t.inq == []) &&
    nextIs (step (beat 0xE0#8 (bounded 4 decoding))) (fun t => t == beat 0xE0#8 (bounded 4 decoding)) &&
    nextIs (step (withScript [.popOut] (beat 0xE0#8 (bounded 4 decoding))))
      (fun t => t.host.popped == [⟨false, 0x61#8⟩] && t.host.script == [] && t.phase == .idle && t.inq == [] &&
        t.outq == [⟨false, 0x61#8⟩, ⟨false, 0x61#8⟩, ⟨false, 0x62#8⟩, ⟨true, 0x00#8⟩]) &&
    nextIs (step (withScript [.popOut] (beat 0xE0#8 (bounded 3 decoding))))
      (fun t => t == withScript [.popOut] (beat 0xE0#8 (bounded 3 decoding))) &&
    nextIs (step (withScript [.popOut, .inspect 0x0001#16, .popOut] (beat 0xE0#8 (bounded 3 decoding))))
      (fun t => t.host.popped.length == 2 && t.outq.length == 3 && t.host.script == [.inspect 0x0001#16]) := by
  decide +kernel

/-- V-DEC-F1: an EOS at once is E_MALFORMED with an empty OUT frame. -/
theorem test_decode_too_short :
    nextIs (step (fed [] decoding)) (fun t => statusWord t == 0x00100400#32 && t.outq == [⟨true, 0x00#8⟩]) := by
  decide

/-- V-CTL-8: HALT keeps the tables. -/
theorem test_halt_keeps_tables :
    nextIs (exec .halt builtC) (fun t => statusWord t == 0x0000200F#32 && t.node == builtC.node && t.nn == 3#10) := by
  decide

/-- V-CTL-9: reset leaves HALTED. -/
theorem test_reset_leaves_halted :
    nextIs (step (withScript [.reset] (inPhase .halted))) (fun t => statusWord t == 0x00000000#32) := by
  decide

/-- V-CTL-10: at DRAIN's acceptance STATUS is 0x000010A0. -/
theorem test_drain_accepted :
    nextIs (step (offer 0x0A#8 (fed [0x78#8] State.reset))) (fun t => statusWord t == 0x000010A0#32 && t.inq.length == 2) := by
  decide

/-- V-CTL-11: exactly the first EOS is consumed. -/
theorem test_drain_stops_at_eos :
    nextIs (step { running .drain with inq := eosBeat :: frame [0x61#8] 0#8 })
      (fun t => statusWord t == 0x00000000#32 && t.inq == frame [0x61#8] 0#8) := by
  decide

/-- V-CTL-3: an illegal word in SCANNED is E_ILLEGAL and disturbs nothing. -/
theorem test_illegal_word :
    nextIs (step (offer 0x13#8 scanned)) (fun t => statusWord t == 0x00080301#32 && t.node == scanned.node) := by
  decide

/-- V-FLT-2, V-FLT-3: ID at all times; unassigned addresses read 0. -/
theorem test_inspect_id_and_unassigned :
    inspectWord decoding 0x0000#16 = 0x48554631#32 ∧
    [0x0005#16, 0x00FF#16, 0x0900#16, 0x1800#16, 0xFFFF#16].map (inspectWord builtC) = List.replicate 5 0#32 := by
  decide

/-- The word placed by `withFetchWord` is the one the next step runs. -/
theorem test_fetch_word_runs :
    nextIs (step (State.reset.withFetchWord 8 0x02)) (fun t => statusWord t == 0x00001020#32 && t.host.script == []) := by
  decide

/-! ## The canonical form of the tables -/

theorem reset_tables_canonical : State.reset.tablesWf = true := by decide

/-! ## States that meet the notions of Safety -/

theorem aaab_symbol_list_leaves : SymbolList scanned.node 2 where
  ascending i j h1 h2 h3 := by
    obtain rfl : i = 1 := by omega
    obtain rfl : j = 2 := by omega
    decide
  positive i h1 h2 := by
    obtain rfl | rfl : i = 1 ∨ i = 2 := by omega
    all_goals decide

theorem aaab_symbol_list_tree : SymbolList builtC.node 2 where
  ascending i j h1 h2 h3 := by
    obtain rfl : i = 1 := by omega
    obtain rfl : j = 2 := by omega
    decide
  positive i h1 h2 := by
    obtain rfl | rfl : i = 1 ∨ i = 2 := by omega
    all_goals decide

theorem scanned_symbols : Symbols scanned := ⟨by decide, by decide, aaab_symbol_list_leaves, by decide, by decide⟩

theorem builtC_symbols : Symbols builtC := ⟨by decide, by decide, aaab_symbol_list_tree, by decide, by decide⟩

theorem builtD_symbols : Symbols builtD := ⟨by decide, by decide, aaab_symbol_list_tree, by decide, by decide⟩

theorem scanned_leavesOnly : LeavesOnly scanned where
  nn := by decide
  leaves i h1 h2 := by
    have h2 : i ≤ 2 := h2
    obtain rfl | rfl : i = 1 ∨ i = 2 := by omega
    all_goals decide
  above i h := by
    have h : 2 < i := h
    simp [State.nodeAt, nodeIn, scanned, Table.read, show i ≠ 0 by omega, show i ≠ 1 by omega, show i ≠ 2 by omega]

/-- Any state with the tree of V-BUILD-1. -/
theorem aaab_treeBuilt (s : State) (hn : s.node = builtC.node) (hk : s.k = 2#9) (hnn : s.nn = 3#10) (ht : s.total = 4#32) :
    TreeBuilt s := by
  have hK : s.k.toNat = 2 := by simp [hk]
  have hN : ∀ i, s.nodeAt i = builtC.nodeAt i := fun i => by simp [State.nodeAt, hn]
  constructor
  · simp [hnn, hK, rootIndex]
  · intro _ i h1 h2
    rw [hK] at h1 h2
    obtain rfl : i = 3 := by have h2 : i ≤ 3 := h2; omega
    simp only [hN]; decide
  · intro _ i h1 h2
    rw [hK] at h2 ⊢
    have h2 : i < 3 := h2
    simp only [hN]
    obtain rfl | rfl : i = 1 ∨ i = 2 := by omega
    all_goals
      refine ⟨by decide, by decide, by decide, fun p hp1 hp2 => ?_⟩
      obtain rfl : p = 3 := by have hp2 : p ≤ 3 := hp2; omega
      decide
  · intro _; rw [hK, hN]; decide
  · intro _ i h1 h2
    rw [hK] at h1 h2
    obtain rfl : i = 3 := by have h2 : i ≤ 3 := h2; omega
    simp only [hN]; decide
  · intro _; rw [hK, hN, ht]; decide
  · intro _ i h1 h2
    rw [hK] at h2
    simp only [hN]
    obtain rfl | rfl : i = 1 ∨ i = 2 := by omega
    all_goals decide
  · intro h; omega
  · intro i h
    have h : 3 < i := by simpa [hnn] using h
    rw [hN]
    simp [State.nodeAt, nodeIn, builtC, Table.read, show i ≠ 0 by omega, show i ≠ 1 by omega, show i ≠ 2 by omega,
      show i ≠ 3 by omega]

theorem builtC_tree : TreeBuilt builtC := aaab_treeBuilt _ rfl rfl rfl rfl

theorem builtD_tree : TreeBuilt builtD := aaab_treeBuilt _ rfl rfl rfl rfl

/-- A state of a run in the middle of DECODE, with any further beats in INQ and any OUT_DEPTH. -/
theorem decoding_sound (q : List Beat) (d : Option Nat := none) :
    Sound { decoding with inq := q, cfg := { outDepth := d } } where
  cfg := (by decide : decoding.cfg.wf = true)
  tables := (by decide : decoding.tablesWf = true)
  inDepth := trivial
  outDepth := by cases d; exacts [trivial, Nat.zero_le _]
  record := (by decide : FaultRecordLegal decoding)
  operation :=
    ⟨rfl, ⟨⟨(by decide : 1 ≤ decoding.k.toNat), (by decide : decoding.k.toNat ≤ 256), aaab_symbol_list_tree,
        (by decide : decoding.total.toNat = weightSum decoding.node 2), (by decide : decoding.total.toNat ≤ 2147483647)⟩,
      aaab_treeBuilt _ rfl rfl rfl rfl, rfl, rfl⟩,
      ⟨(by decide : 1 ≤ decoding.remain.toNat), (by decide : decoding.remain.toNat ≤ decoding.total.toNat),
        fun h => absurd h (by decide : decoding.k.toNat ≠ 1), fun _ => (by decide : 2 < decoding.ptr.toNat ∧ decoding.ptr.toNat ≤ 3),
        ⟨rfl, rfl, rfl, rfl, rfl⟩⟩⟩
  partSent h := absurd rfl h

/-- The state before a first command, whatever the host is going to do. -/
theorem idle_sound (h : HostSide) : Sound { State.reset with host := h } where
  cfg := (by decide : Config.default.wf = true)
  tables := (by decide : State.reset.tablesWf = true)
  inDepth := trivial
  outDepth := trivial
  record := (by decide : FaultRecordLegal State.reset)
  operation := ⟨rfl, fun _ => ⟨rfl, rfl, rfl, rfl, rfl, rfl, rfl⟩⟩
  partSent h := absurd rfl h

theorem coded_codesFilled (s : State) (hn : s.node = builtC.node) (hk : s.k = 2#9) (hc : s.code = coded.code) :
    CodesFilled s := by
  have hK : s.k.toNat = 2 := by simp [hk]
  have hN : ∀ i, s.nodeAt i = builtC.nodeAt i := fun i => by simp [State.nodeAt, hn]
  have hC : ∀ b, s.codeAt b = coded.codeAt b := fun b => by simp [State.codeAt, hc]
  constructor
  · intro b; rw [hC]; revert b; decide +kernel
  · intro i h1 h2
    obtain rfl | rfl : i = 1 ∨ i = 2 := by omega
    all_goals rw [hN, hC]; decide
  · intro _ i h1 h2
    obtain rfl | rfl : i = 1 ∨ i = 2 := by omega
    all_goals rw [hN, hC, hn]; decide
  · intro b h
    have h1 := h 1 (by decide) (by omega)
    have h2 := h 2 (by decide) (by omega)
    rw [hN] at h1 h2; rw [hC]
    clear h
    revert b; decide +kernel
  · intro _ i j h1 h2 h3 h4 h5
    obtain ⟨rfl, rfl⟩ | ⟨rfl, rfl⟩ : (i = 1 ∧ j = 2) ∨ (i = 2 ∧ j = 1) := by omega
    all_goals simp only [hN, hC]; decide
  · intro h; omega

theorem waiting_sound (d n : Nat) (as : List Action) (h : n = 0 ∨ (n < 14 ∧ d < 14)) : Sound (waiting d n as) where
  cfg := (by decide : coded.cfg.wf = true)
  tables := (by decide : coded.tablesWf = true)
  inDepth := trivial
  outDepth := Nat.zero_le _
  record := (by decide : FaultRecordLegal coded)
  operation := ⟨⟨⟨(by decide : 1 ≤ coded.k.toNat), (by decide : coded.k.toNat ≤ 256), aaab_symbol_list_tree,
      (by decide : coded.total.toNat = weightSum coded.node 2), (by decide : coded.total.toNat ≤ 2147483647)⟩,
    aaab_treeBuilt _ rfl rfl rfl rfl, coded_codesFilled _ rfl rfl rfl⟩, fun _ => ⟨rfl, rfl, rfl, rfl, rfl, rfl, rfl⟩⟩
  partSent hn := by
    obtain ⟨h1, h2⟩ : n < 14 ∧ d < 14 := h.resolve_left hn
    refine ⟨⟨as, rfl⟩, rfl, rfl, ?_, h1⟩
    show decide (14 ≤ d) = false
    simpa using h2

/-! ## A witness for the hypotheses of every statement that has some

Each theorem gives states and operands that meet all hypotheses of the statement of its name together, one for each
clause. Statements without hypotheses have none. -/

/-- The words on either side of the opcode table (R105). -/
theorem witness_IllegalWordOnlyRecordsItsFault (w : Byte) (hw : w ∈ [0x00#8, 0x0B#8, 0x0F#8, 0x10#8, 0xFF#8]) :
    (∃ e, decode w = .error e) ∧ (offer w scanned).ready = true ∧ (offer w scanned).host.script = .issue w :: [] := by
  refine ⟨?_, (by decide : scanned.ready = true), rfl⟩
  simp only [List.mem_cons, List.not_mem_nil, or_false] at hw
  obtain rfl | rfl | rfl | rfl | rfl := hw <;> exact ⟨_, rfl⟩

theorem witness_WrongPhaseOnlyRecordsItsFault :
    State.reset.ready = true ∧ (Instr.build, State.reset.phase) ∉ legalPairs ∧
    scanned.ready = true ∧ (Instr.rdhdr, scanned.phase) ∉ legalPairs := by decide

/-- BUILD; WRHDR with room and without; a word that waits with nothing behind it, with a word, and with the block's turn. -/
theorem witness_StepRunsTheOfferedCommand :
    ((offer 0x03#8 scanned).host.script = .issue 0x03#8 :: [] ∧ (offer 0x03#8 scanned).ready = true ∧
      (offer 0x03#8 scanned).headerWaits = false ∧ decode 0x03#8 = .ok .build) ∧
    ((bounded 14 coded).ready = true ∧ ((bounded 14 coded).withFetchWord 8 5).headerWaits = false ∧
      decode (BitVec.ofNat 8 5) = .ok .wrhdr) ∧
    (∀ as, as ∈ [[], [.issue 0x01#8]] → (waiting 1 0 as).host.script = .issue 0x05#8 :: as ∧
      (waiting 1 0 as).headerWaits = true ∧ (∀ a bs, HostGoesOn (waiting 1 0 as) a bs → enabled a (waiting 1 0 as) = false) ∧
      ∀ bs, ¬ HostResets (waiting 1 0 as) bs) ∧
    ((waiting 1 0 [.beatStep]).host.script = .issue 0x05#8 :: .beatStep :: [] ∧
      (waiting 1 0 [.beatStep]).headerWaits = true) := by
  refine ⟨⟨rfl, by decide, by decide, rfl⟩, ⟨by decide, by decide, rfl⟩, ?_, rfl, by decide⟩
  intro as has
  simp only [List.mem_cons, List.not_mem_nil, or_false] at has
  obtain rfl | rfl := has
  · refine ⟨rfl, by decide, ?_, ?_⟩
    · rintro a bs ⟨h1, -, ⟨-, h⟩ | ⟨-, w, cs, h, -⟩⟩
      · cases h; exact absurd rfl (h1 _)
      · cases h
    · rintro bs (h | ⟨-, w, h⟩) <;> cases h
  · refine ⟨rfl, by decide, ?_, ?_⟩
    · rintro a bs ⟨h1, -, ⟨-, h⟩ | ⟨-, w, cs, h, -⟩⟩ <;> cases h <;> exact absurd rfl (h1 _)
    · rintro bs (h | ⟨-, w, h⟩) <;> cases h

/-- BUSY and HALTED; then CUR = NONE, and INQ empty. -/
theorem witness_WordIsHeldWhenNotAccepted :
    ((offer 0x01#8 encoding).host.script = .issue 0x01#8 :: [] ∧ (offer 0x01#8 encoding).ready = false) ∧
    ((offer 0x01#8 (inPhase .halted)).host.script = .issue 0x01#8 :: [] ∧
      (offer 0x01#8 (inPhase .halted)).ready = false ∧ (offer 0x01#8 (inPhase .halted)).cur = .none) ∧
    (fed [] coded).cur = .none ∧ encoding.inq = [] := by decide

theorem witness_AtomicCommandsNeverShowBusy :
    (Instr.clear ∈ [Instr.clear, .build, .gencode, .wrhdr, .halt] ∧ ∃ t, exec .clear scanned = .next t) ∧
    ((∃ t, exec .scan State.reset = .next t) ∧ legalIn .scan State.reset.phase = true) ∧
    ((∃ t, exec .encode (inPhase .hdrWritten) = .next t) ∧ legalIn .encode (inPhase .hdrWritten).phase = true) ∧
    ((∃ t, exec .rdhdr State.reset = .next t) ∧ legalIn .rdhdr State.reset.phase = true) ∧
    ((∃ t, exec .decode builtD = .next t) ∧ legalIn .decode builtD.phase = true) ∧
    ((∃ t, exec .drain scanned = .next t) ∧ legalIn .drain scanned.phase = true) :=
  ⟨⟨by decide, _, rfl⟩, ⟨⟨_, rfl⟩, rfl⟩, ⟨⟨_, rfl⟩, rfl⟩, ⟨⟨_, rfl⟩, rfl⟩, ⟨⟨_, rfl⟩, rfl⟩, ⟨_, rfl⟩, rfl⟩

theorem witness_ClearDropsTheOperation : coded.ready = true := by decide

theorem witness_HaltKeepsEverythingElse : builtC.ready = true := by decide

theorem witness_OnlyResetLeavesHalted :
    runOver (withScript [.pushIn (dataBeat 0x61#8)] (inPhase .halted)) ∧
    (∀ as, (withScript [.pushIn (dataBeat 0x61#8)] (inPhase .halted)).host.script ≠ .reset :: as) ∧
    ∃ t, step (withScript [.pushIn (dataBeat 0x61#8)] (inPhase .halted)) = .next t :=
  ⟨⟨rfl, rfl⟩, nofun, _, rfl⟩

theorem witness_DrainIsAccepted : scanned.ready = true := by decide

/-- A data beat and an EOS beat. -/
theorem witness_DrainingDiscardsOneBeat :
    ((beat 0x78#8 (running .drain)).cur = .drain ∧ (beat 0x78#8 (running .drain)).inq = dataBeat 0x78#8 :: []) ∧
    ((fed [] (running .drain)).cur = .drain ∧ (fed [] (running .drain)).inq = ⟨true, 0xFF#8⟩ :: []) := by decide

theorem witness_DrainConsumesOneFrame :
    (fed [0x78#8] scanned).ready = true ∧ (fed [0x78#8] scanned).host.script = [] ∧
    (fed [0x78#8] scanned).inq = frame [0x78#8] 0xFF#8 ++ [] := by decide

theorem witness_ScanIsAccepted : State.reset.ready = true ∧ State.reset.phase = .idle := by decide

/-- One beat below MAX_LEN. -/
def scanningFull (n : Word) : State := beat 0x64#8 { running .scan with cfg := { maxLen := 3 }, total := n }

theorem witness_ScanCountsOneByte :
    (scanningFull 2#32).cur = .scan ∧ (scanningFull 2#32).inq = dataBeat 0x64#8 :: [] ∧
    (scanningFull 2#32).total.toNat ≠ (scanningFull 2#32).cfg.maxLen ∧ (scanningFull 2#32).tablesWf = true := by decide

theorem witness_ScanOverflowDrains :
    (scanningFull 3#32).cur = .scan ∧ (scanningFull 3#32).inq = dataBeat 0x64#8 :: [] ∧
    (scanningFull 3#32).total.toNat = (scanningFull 3#32).cfg.maxLen := by decide

/-- Byte values 0x00 and 0xFF occurred; and none did. -/
def scanned0andFF : State := fed [] { running .scan with freq := [(0, 1#32), (255, 1#32)], total := 2#32 }

theorem witness_ScanSeedsTheLeavesInOrder :
    (scanned0andFF.cur = .scan ∧ scanned0andFF.inq = ⟨true, 0xFF#8⟩ :: [] ∧ scanned0andFF.tablesWf = true ∧
      scanned0andFF.node = [] ∧ (∃ b, scanned0andFF.freqAt b ≠ 0#32)) ∧
    ((fed [] (running .scan)).cur = .scan ∧ (fed [] (running .scan)).inq = ⟨true, 0xFF#8⟩ :: [] ∧
      (fed [] (running .scan)).tablesWf = true ∧ (fed [] (running .scan)).node = [] ∧
      ∀ b, (fed [] (running .scan)).freqAt b = 0#32) :=
  ⟨⟨rfl, rfl, by decide, rfl, 0xFF#8, by decide⟩, rfl, rfl, by decide, rfl, fun _ => rfl⟩

/-- A frame of one byte, with MAX_LEN = 1. -/
def scanOne : State := fed [0x61#8] { State.reset with cfg := { maxLen := 1 } }

theorem witness_ScanOfAFrameCountsIt :
    scanOne.ready = true ∧ scanOne.phase = .idle ∧ Cleared scanOne ∧ scanOne.cfg.wf = true ∧ scanOne.host.script = [] ∧
    1 ≤ [0x61#8].length ∧ [0x61#8].length ≤ scanOne.cfg.maxLen ∧ scanOne.inq = frame [0x61#8] 0xFF#8 ++ [] := by decide

theorem witness_BuildOfOneSymbolIsASelfLoop :
    (scannedZ.ready = true ∧ (scannedZ.phase = .scanned ∨ scannedZ.phase = .hdrRead) ∧ scannedZ.k = 1#9 ∧
      scannedZ.tablesWf = true) ∧
    ({ scannedZ with phase := .hdrRead, freq := [] } : State).ready = true := by decide

/-- K = 1, 2 and 256. -/
theorem witness_BuildWritesTheTreeOnly (s : State)
    (hs : s ∈ [scannedZ, scanned, { scanned with phase := .hdrRead, k := 256#9, nn := 256#10 }]) :
    s.ready = true ∧ (s.phase = .scanned ∨ s.phase = .hdrRead) ∧ 1 ≤ s.k.toNat ∧ s.k.toNat ≤ 256 ∧ s.tablesWf = true := by
  simp only [List.mem_cons, List.not_mem_nil, or_false] at hs
  obtain rfl | rfl | rfl := hs <;> decide

/-- "abracadabra": nodes 3 and 4 tie at the least weight. -/
theorem witness_SelectionFindsTheTwoLeast :
    1 ≤ 3 ∧ 3 < 4 ∧ 4 < 6 ∧ (nodeIn leavesAbra 3).parent = 0#9 ∧ (nodeIn leavesAbra 4).parent = 0#9 := by decide

theorem witness_MergeCreatesOneNode :
    Table.wf Node.zero 1 512 leavesAbra = true ∧ selectTwo leavesAbra 6 = (3, 4) ∧
    1 ≤ 3 ∧ 3 < 6 ∧ 1 ≤ 4 ∧ 4 < 6 ∧ 3 ≠ 4 ∧ 6 < 512 := by decide

theorem witness_BuildGrowsAWellFormedTree :
    scanned.ready = true ∧ (scanned.phase = .scanned ∨ scanned.phase = .hdrRead) ∧ scanned.cfg.wf = true ∧
    scanned.tablesWf = true ∧ Symbols scanned ∧ LeavesOnly scanned :=
  ⟨by decide, by decide, by decide, by decide, scanned_symbols, scanned_leavesOnly⟩

theorem witness_GencodeEntersEveryWalk :
    builtC.ready = true ∧ builtC.phase = .builtC ∧ builtC.tablesWf = true ∧ Symbols builtC ∧ TreeBuilt builtC ∧
    2 ≤ builtC.k.toNat :=
  ⟨by decide, rfl, by decide, builtC_symbols, builtC_tree, by decide⟩

theorem witness_GencodeOfOneSymbolIsOne :
    builtZ.ready = true ∧ builtZ.phase = .builtC ∧ builtZ.tablesWf = true ∧ builtZ.k = 1#9 := by decide

/-- The first and the last leaf of "aaab". -/
theorem witness_CodesLeadFromRootToLeaf :
    builtC.tablesWf = true ∧ Symbols builtC ∧ TreeBuilt builtC ∧ 2 ≤ builtC.k.toNat ∧
    (1 ≤ 1 ∧ 1 ≤ builtC.k.toNat ∧ codeOfLeaf builtC.node 1 = some [true]) ∧
    (1 ≤ 2 ∧ 2 ≤ builtC.k.toNat ∧ codeOfLeaf builtC.node 2 = some [false]) :=
  ⟨by decide, builtC_symbols, builtC_tree, by decide, by decide, by decide⟩

theorem witness_CodesAreBeginningFree :
    builtC.ready = true ∧ builtC.phase = .builtC ∧ builtC.tablesWf = true ∧ Symbols builtC ∧ TreeBuilt builtC ∧
    2 ≤ builtC.k.toNat := witness_GencodeEntersEveryWalk

/-- A header of 14 beats: room without a depth and in a depth of 14; a depth of 14 with one beat too many; a full OUTQ; a depth
of 13, with 12 and 13 of the beats pushed. -/
theorem witness_WrhdrPushesTheHeader :
    (coded.ready = true ∧ coded.phase = .coded ∧ coded.room (4 + 5 * coded.k.toNat) = true) ∧
    ((bounded 14 coded).ready = true ∧ (bounded 14 coded).phase = .coded ∧
      (bounded 14 coded).room (4 + 5 * (bounded 14 coded).k.toNat) = true) ∧
    (({ bounded 14 coded with outq := [eosBeat] } : State).room (4 + 5 * coded.k.toNat) = false ∧
      ({ bounded 14 coded with outq := [eosBeat] } : State).fits (4 + 5 * coded.k.toNat) = true) ∧
    (crowded 1 coded).room 1 = false ∧
    ((bounded 13 coded).ready = true ∧ (bounded 13 coded).phase = .coded ∧
      (bounded 13 coded).fits (4 + 5 * (bounded 13 coded).k.toNat) = false ∧ (bounded 13 coded).room 1 = true ∧
      ({ bounded 13 coded with sent := 12 } : State).sent + 1 < 4 + 5 * coded.k.toNat ∧
      ({ bounded 13 coded with sent := 13 } : State).sent + 1 = 4 + 5 * coded.k.toNat) := by decide

theorem witness_RdhdrIsAccepted : State.reset.ready = true ∧ State.reset.phase = .idle := by decide

/-- An EOS; two bytes of the K field and of a record, each with room for one more that completes nothing. -/
theorem witness_RdhdrTakesUpBytes :
    ((fed [] parsing).cur = .rdhdr ∧ (fed [] parsing).inq = ⟨true, 0xFF#8⟩ :: []) ∧
    ((beat 0x02#8 { counting 0x02#8 0x00#8 with hbuf := [0x02#8, 0x00#8] }).cur = .rdhdr ∧
      (beat 0x02#8 { counting 0x02#8 0x00#8 with hbuf := [0x02#8, 0x00#8] }).inq = dataBeat 0x02#8 :: [] ∧
      (beat 0x02#8 { counting 0x02#8 0x00#8 with hbuf := [0x02#8, 0x00#8] }).hstage = 0#1 ∧
      (beat 0x02#8 { counting 0x02#8 0x00#8 with hbuf := [0x02#8, 0x00#8] }).hbuf.length < 3) ∧
    ((beat 0x02#8 { parsing with hbuf := [0x63#8, 0x03#8, 0x00#8] }).cur = .rdhdr ∧
      (beat 0x02#8 { parsing with hbuf := [0x63#8, 0x03#8, 0x00#8] }).inq = dataBeat 0x02#8 :: [] ∧
      (beat 0x02#8 { parsing with hbuf := [0x63#8, 0x03#8, 0x00#8] }).hstage = 1#1 ∧
      (beat 0x02#8 { parsing with hbuf := [0x63#8, 0x03#8, 0x00#8] }).hbuf.length < 4) := by decide

/-- The hypotheses about the state, then the counts 0, 257 (refused), 1 and 256 (taken). -/
theorem witness_RdhdrReadsTheCount :
    ((beat 0x00#8 (counting 0x00#8 0x01#8)).cur = .rdhdr ∧ (beat 0x00#8 (counting 0x00#8 0x01#8)).hstage = 0#1 ∧
      (beat 0x00#8 (counting 0x00#8 0x01#8)).hbuf.length = 3 ∧
      (beat 0x00#8 (counting 0x00#8 0x01#8)).inq = dataBeat 0x00#8 :: []) ∧
    s32 .little ((counting 0x00#8 0x00#8).hbuf ++ [0x00#8]) < 1 ∧
    256 < s32 .little ((counting 0x01#8 0x01#8).hbuf ++ [0x00#8]) ∧
    s32 .little ((counting 0x01#8 0x00#8).hbuf ++ [0x00#8]) = 1 ∧
    s32 .little ((counting 0x00#8 0x01#8).hbuf ++ [0x00#8]) = 256 := by decide

/-- `parsing` with another record: its byte value, the first byte of its frequency, and a MAX_LEN. -/
def record (sym f : Byte) (maxLen : Nat) : State :=
  beat 0x00#8 { parsing with cfg := { maxLen := maxLen }, hbuf := [sym, f, 0x00#8, 0x00#8] }

/-- What `RdhdrTakesARecord` assumes of the state, with the field's value left to its clauses. -/
def recordReady (s : State) (sym f : Byte) : Bool :=
  s.cur == .rdhdr && s.hstage == 1#1 && s.hbuf == [sym, f, 0x00#8, 0x00#8] && s.inq == [dataBeat 0x00#8] && s.tablesWf &&
    decide (1 ≤ s.hi.toNat) && s.cfg.wf

/-- Record 2 of 2 after byte value 0x62, TOTAL 1. Refused: frequency 0; the byte value 0x62 again; a sum of 4 with
MAX_LEN 3. Taken: byte value 0x63 and a sum of exactly MAX_LEN; the last record (HI = K) and one before it. -/
theorem witness_RdhdrTakesARecord :
    (recordReady (record 0x63#8 0x00#8 3) 0x63#8 0x00#8 = true ∧ s32 .little [0x00#8, 0x00#8, 0x00#8, 0x00#8] < 1) ∧
    (recordReady (record 0x62#8 0x02#8 3) 0x62#8 0x02#8 = true ∧ (record 0x62#8 0x02#8 3).hprev ≠ 256#9 ∧
      (0x62#8 : Byte).toNat ≤ (record 0x62#8 0x02#8 3).hprev.toNat) ∧
    (recordReady (record 0x63#8 0x03#8 3) 0x63#8 0x03#8 = true ∧
      ((record 0x63#8 0x03#8 3).cfg.maxLen : Int)
        < (record 0x63#8 0x03#8 3).total.toNat + s32 .little [0x03#8, 0x00#8, 0x00#8, 0x00#8]) ∧
    (recordReady (record 0x63#8 0x02#8 3) 0x63#8 0x02#8 = true ∧ 1 ≤ s32 .little [0x02#8, 0x00#8, 0x00#8, 0x00#8] ∧
      (record 0x63#8 0x02#8 3).hprev.toNat < (0x63#8 : Byte).toNat ∧
      ((record 0x63#8 0x02#8 3).total.toNat : Int) + s32 .little [0x02#8, 0x00#8, 0x00#8, 0x00#8]
        ≤ (record 0x63#8 0x02#8 3).cfg.maxLen ∧
      (record 0x63#8 0x02#8 3).hi = (record 0x63#8 0x02#8 3).k) ∧
    (recordReady { record 0x63#8 0x02#8 3 with k := 3#9 } 0x63#8 0x02#8 = true ∧
      ({ record 0x63#8 0x02#8 3 with k := 3#9 } : State).hi ≠ ({ record 0x63#8 0x02#8 3 with k := 3#9 } : State).k) := by
  decide

/-- The writer is "aaab" after GENCODE; the reader has its header and one byte more. -/
theorem witness_WrittenHeaderIsReadBack :
    Symbols coded ∧ coded.cfg.wf = true ∧
    ({ State.reset with inq := dataBeats (headerBytes coded) ++ [dataBeat 0x60#8] } : State).cfg = coded.cfg ∧
    State.reset.ready = true ∧ State.reset.phase = .idle ∧
    Cleared { State.reset with inq := dataBeats (headerBytes coded) ++ [dataBeat 0x60#8] } ∧
    State.reset.host.script = [] :=
  ⟨⟨by decide, by decide, aaab_symbol_list_tree, by decide, by decide⟩, by decide, rfl, by decide, rfl, rfl, rfl⟩

theorem witness_EncodeIsAccepted : (inPhase .hdrWritten).ready = true ∧ (inPhase .hdrWritten).phase = .hdrWritten := by
  decide

/-- Seven bits pending and one more: one byte to push, with room for it and without. -/
def packing : State := beat 0x61#8 { encoding with acc := List.replicate 7 true }

/-- The two hypotheses of `BeatPushes` for a beat of `n` pushes: room without a depth and in a depth of n; no room in a depth of
n with a full OUTQ, nor in a depth below n. -/
theorem witness_BeatPushes (s : State) (n : Nat) (hs : s.cfg.outDepth = none) (hq : s.outq = []) (hn : 1 ≤ n) :
    s.room n = true ∧ (bounded n s).room n = true ∧
    (crowded n s).room n = false ∧ (bounded (n - 1) s).room n = false := by
  simp [State.room, bounded, crowded, hs, hq]
  omega

theorem witness_EncodePacksOneByte :
    (packing.cur = .encode ∧ packing.inq = dataBeat 0x61#8 :: [] ∧ (packing.codeAt 0x61#8).len ≠ 0#8 ∧
      packing.cfg.outDepth = none ∧ packing.outq = []) ∧
    ((crowded 1 packing).cur = .encode ∧ (crowded 1 packing).inq = dataBeat 0x61#8 :: [] ∧
      ((crowded 1 packing).codeAt 0x61#8).len ≠ 0#8) := by decide

theorem witness_EncodeByteWithoutCodeDrains (s : State)
    (hs : s ∈ [encoding, bounded 1 encoding, crowded 1 encoding]) :
    (beat 0x63#8 s).cur = .encode ∧ (beat 0x63#8 s).inq = dataBeat 0x63#8 :: [] ∧
    ((beat 0x63#8 s).codeAt 0x63#8).len = 0#8 := by
  simp only [List.mem_cons, List.not_mem_nil, or_false] at hs
  obtain rfl | rfl | rfl := hs <;> decide

/-- No bits, one bit and seven bits pending, with just enough room. -/
def flushing (n : Nat) : State := fed [] { bounded 2 encoding with acc := List.replicate n true }

theorem witness_EncodeFlushesAtTheEnd :
    ((flushing 0).cur = .encode ∧ (flushing 0).inq = ⟨true, 0xFF#8⟩ :: [] ∧ (flushing 0).acc = []) ∧
    ((flushing 1).cur = .encode ∧ (flushing 1).inq = ⟨true, 0xFF#8⟩ :: [] ∧ (flushing 1).acc.length = 1 ∧
      (flushing 1).room 2 = true) ∧
    ((flushing 7).cur = .encode ∧ (flushing 7).inq = ⟨true, 0xFF#8⟩ :: [] ∧ (flushing 7).acc.length = 7 ∧
      (flushing 7).room 2 = true) ∧
    ({ flushing 7 with outq := [eosBeat] } : State).room 2 = false := by decide

/-- "aaab" after WRHDR, and the frame "aaab" to encode. -/
def packed : State := fed [0x61#8, 0x61#8, 0x61#8, 0x62#8] { coded with phase := .hdrWritten }

theorem witness_EncodePacksAWholeFrame :
    packed.ready = true ∧ packed.phase = .hdrWritten ∧ packed.host.script = [] ∧
    (∀ s, s ∈ [packed, bounded 2 packed] →
      s.room ((packAll (codeBits packed [0x61#8, 0x61#8, 0x61#8, 0x62#8])).length + 1) = true) ∧
    packed.inq = frame [0x61#8, 0x61#8, 0x61#8, 0x62#8] 0xFF#8 ++ [] ∧
    (∀ b, b ∈ [0x61#8, 0x61#8, 0x61#8, 0x62#8] → (packed.codeAt b).len ≠ 0#8) := by decide

theorem witness_DecodeIsAccepted : builtD.ready = true ∧ builtD.phase = .builtD := by decide

/-- Nine bytes, eight and one still to come. -/
theorem witness_DecodeOfOneSymbolRepeatsIt (n : Word) (hn : n ∈ [9#32, 8#32, 1#32]) :
    (beat 0xFF#8 { decodingZ with remain := n }).cur = .decode ∧
    (beat 0xFF#8 { decodingZ with remain := n }).inq = dataBeat 0xFF#8 :: [] ∧ decodingZ.k = 1#9 ∧ decodingZ.ptr = 1#9 ∧
    (decodingZ.nodeAt 1).left = 1#9 ∧ (decodingZ.nodeAt 1).right = 1#9 ∧
    (8 < n.toNat ∨ (1 ≤ n.toNat ∧ n.toNat ≤ 8)) := by
  simp only [List.mem_cons, List.not_mem_nil, or_false] at hn
  obtain rfl | rfl | rfl := hn <;> decide

/-- Bits that give four symbols of the four still to come (E0 gives 1, 1, 1, 0 and four more), with any OUT_DEPTH; and the
bits of R200's walk itself: 1 leads from the root 3 to leaf 1, and no bit leads nowhere. -/
theorem witness_DecodeStaysInsideTheTree (d : Option Nat) :
    (Sound { beat 0xE0#8 decoding with cfg := { outDepth := d } } ∧ (beat 0xE0#8 decoding).cur = .decode ∧
      (beat 0xE0#8 decoding).inq = dataBeat 0xE0#8 :: []) ∧
    Reads decoding 3#9 [true] [0x61#8] 3#9 :=
  ⟨⟨decoding_sound _ d, rfl, rfl⟩,
    .leaf 3#9 [true] [] [] 3#9 (by decide)
      (fun before h1 h2 h3 => by
        rcases List.prefix_cons_iff.1 h1 with h | ⟨t, rfl, h⟩
        · exact absurd h h2
        · exact absurd (by rw [List.prefix_nil.1 h]) h3)
      (by decide)
      (.stop 3#9 [] fun path h1 h2 => absurd (List.prefix_nil.1 h1) h2)⟩

theorem witness_DecodePayloadTooShort (s : State) (hs : s ∈ [decoding, bounded 1 decoding, crowded 1 decoding]) :
    (fed [] s).cur = .decode ∧ (fed [] s).inq = ⟨true, 0xFF#8⟩ :: [] := by
  simp only [List.mem_cons, List.not_mem_nil, or_false] at hs
  obtain rfl | rfl | rfl := hs <;> decide

/-- "aaab": the codes 1 and 0, the payload E0 and one byte more. -/
def unpacking : State := fed [0xE0#8, 0x55#8] builtD

theorem witness_DecodeUndoesThePacking :
    unpacking.ready = true ∧ unpacking.phase = .builtD ∧ unpacking.host.script = [] ∧
    (∀ s, s ∈ [unpacking, bounded 5 unpacking] → s.room (unpacking.total.toNat + 1) = true) ∧
    unpacking.tablesWf = true ∧ Symbols unpacking ∧ TreeBuilt unpacking ∧
    genCodes { unpacking with code := [] } = some coded.code ∧
    (∀ b, b ∈ [0x61#8, 0x61#8, 0x61#8, 0x62#8] → (Table.read Code.absent coded.code b.toNat).len ≠ 0#8) ∧
    [0x61#8, 0x61#8, 0x61#8, 0x62#8].length = unpacking.total.toNat ∧
    unpacking.inq = frame (packAll (codeBits { unpacking with code := coded.code } [0x61#8, 0x61#8, 0x61#8, 0x62#8])
      ++ [0x55#8]) 0xFF#8 ++ [] ∧
    unpacking.inq = frame [0xE0#8, 0x55#8] 0xFF#8 ++ [] ∧ (fed [] unpacking).inq = frame [] 0xFF#8 ++ [] :=
  ⟨by decide, rfl, rfl, by decide, by decide, ⟨by decide, by decide, aaab_symbol_list_tree, by decide, by decide⟩,
    aaab_treeBuilt _ rfl rfl rfl rfl, by decide, by decide, by decide, by decide, by decide, by decide⟩

/-- The input is "ab"; the host has nothing else to do. -/
def compressing : State := withScript (compressScript [0x61#8, 0x62#8]) State.reset

theorem witness_DecompressUndoesCompress :
    Sound compressing ∧ compressing.ready = true ∧ compressing.phase = .idle ∧ unbounded compressing.cfg ∧
    compressing.inq = [] ∧ compressing.outq = [] ∧ 1 ≤ [0x61#8, 0x62#8].length ∧
    [0x61#8, 0x62#8].length ≤ compressing.cfg.maxLen ∧ compressing.host.script = compressScript [0x61#8, 0x62#8] :=
  ⟨idle_sound _, by decide, rfl, ⟨rfl, rfl⟩, rfl, rfl, by decide, by decide, rfl⟩

/-- A fault on an EOS (E_MALFORMED in DECODE) and one on a data beat (E_OVERFLOW in SCAN). -/
theorem witness_FaultEntryDropsTheOperation :
    ((fed [] decoding).inq = ⟨true, 0xFF#8⟩ :: [] ∧
      ∃ t, beatStep (fed [] decoding) = some t ∧ t.faults ≠ (fed [] decoding).faults) ∧
    ((scanningFull 3#32).inq = dataBeat 0x64#8 :: [] ∧
      ∃ t, beatStep (scanningFull 3#32) = some t ∧ t.faults ≠ (scanningFull 3#32).faults) :=
  ⟨⟨rfl, _, rfl, by decide⟩, rfl, _, rfl, by decide⟩

/-- FAULTS bit 5 is set and the host issues CLEAR. -/
def faulted : State := offer 0x01#8 { scanned with err := .sequence, faults := 0x20#8 }

theorem witness_FaultsAreSticky :
    (∃ t, step faulted = .next t) ∧ (∀ as, ¬ HostResets faulted as) ∧ faulted.faults.getLsbD 5 = true :=
  ⟨⟨_, rfl⟩, fun as h => (by obtain h | ⟨-, w, h⟩ : HostResets faulted as := h <;> cases h), by decide⟩

theorem witness_IoFaultIsNeverRecorded : FaultRecordLegal faulted ∧ ∃ t, step faulted = .next t := ⟨by decide, _, rfl⟩

theorem witness_InspectionMapReadsTheState : coded.busy = false := by decide

/-- The first and the last address of each range of addresses the map does not assign. -/
theorem witness_InspectionMapReadsTheState_unassigned (a : BitVec 16)
    (ha : a ∈ [0x0005#16, 0x00FF#16, 0x0900#16, 0x0FFF#16, 0x1800#16, 0xFFFF#16]) :
    (5 ≤ a.toNat ∧ a.toNat < 0x0100) ∨ (0x0900 ≤ a.toNat ∧ a.toNat < 0x1000) ∨ 0x1800 ≤ a.toNat := by
  simp only [List.mem_cons, List.not_mem_nil, or_false] at ha
  obtain rfl | rfl | rfl | rfl | rfl | rfl := ha <;> decide

theorem witness_InspectionMapReadsTheState_codeBits : 7 < 8 ∧ 31 < 32 := by decide

/-- An action at the head of the script, and one behind a WRHDR word that waits. -/
theorem goesOn_head (s : State) (a : Action) (as : List Action) (h1 : ∀ w, a ≠ .issue w) (h2 : a ≠ .reset)
    (hw : (withScript (a :: as) s).headerWaits = false) : HostGoesOn (withScript (a :: as) s) a as :=
  ⟨h1, h2, .inl ⟨hw, rfl⟩⟩

theorem goesOn_behind (d n : Nat) (a : Action) (as : List Action) (h1 : ∀ w, a ≠ .issue w) (h2 : a ≠ .reset)
    (hw : (waiting d n (a :: as)).headerWaits = true) : HostGoesOn (waiting d n (a :: as)) a (.issue 0x05#8 :: as) :=
  ⟨h1, h2, .inr ⟨hw, _, _, rfl, rfl⟩⟩

/-- BUSY = 0, with a WRHDR that waits too; BUSY = 1 with ID and with STATUS; BUSY = 1 with the address next to them. -/
theorem witness_InspectionIsReadOnly :
    (HostGoesOn (withScript [.inspect 0x0002#16] coded) (.inspect 0x0002#16) [] ∧ coded.busy = false) ∧
    HostGoesOn (waiting 1 0 [.inspect 0x0002#16]) (.inspect 0x0002#16) [.issue 0x05#8] ∧
    (HostGoesOn (withScript [.inspect 0x0001#16] decoding) (.inspect 0x0001#16) [] ∧
      ((0x0001#16 : BitVec 16) = 0x0000#16 ∨ (0x0001#16 : BitVec 16) = 0x0001#16)) ∧
    (HostGoesOn (withScript [.inspect 0x0002#16] decoding) (.inspect 0x0002#16) [] ∧ decoding.busy = true ∧
      0x0002#16 ≠ 0x0000#16 ∧ 0x0002#16 ≠ 0x0001#16) :=
  ⟨⟨goesOn_head _ _ _ nofun nofun (by decide), by decide⟩, goesOn_behind _ _ _ _ nofun nofun (by decide),
    ⟨goesOn_head _ _ _ nofun nofun (by decide), by decide⟩, goesOn_head _ _ _ nofun nofun (by decide), by decide⟩

/-- Reset while BUSY = 1, in HALTED, and while a split WRHDR waits. -/
theorem witness_ResetWorksFromEveryState :
    HostResets (withScript [.reset] decoding) [] ∧ HostResets (withScript [.reset] (inPhase .halted)) [] ∧
    HostResets (waiting 1 4 [.reset]) [] :=
  ⟨.inl rfl, .inl rfl, .inr ⟨by decide, _, rfl⟩⟩

/-- A step of a stream command and a push by the host, behind a WRHDR that waits too; room for one more beat and none. -/
theorem witness_InQueueIsFirstInFirstOut :
    (∃ t, step packing = .next t) ∧ (∃ t, step (withScript [.pushIn eosBeat] packing) = .next t) ∧
    HostGoesOn (withScript [.pushIn eosBeat] packing) (.pushIn eosBeat) [] ∧
    HostGoesOn (waiting 1 4 [.pushIn eosBeat]) (.pushIn eosBeat) [.issue 0x05#8] ∧
    withinDepth (some 2) (packing.inq ++ [eosBeat]) ∧ ¬ withinDepth (some 1) (packing.inq ++ [eosBeat]) ∧
    ¬ withinDepth (some 0) ((waiting 1 4).inq ++ [eosBeat]) :=
  ⟨⟨_, rfl⟩, ⟨_, rfl⟩, goesOn_head _ _ _ nofun nofun (by decide), goesOn_behind _ _ _ _ nofun nofun (by decide),
    (by decide : 2 ≤ 2), (by decide : ¬ 2 ≤ 1), (by decide : ¬ 1 ≤ 0)⟩

/-- A step that pushes and a pop by the host, behind a WRHDR that waits too; OUTQ with a beat and without. -/
theorem witness_OutQueueIsFirstInFirstOut :
    (∃ t, step packing = .next t) ∧ (∃ t, step (withScript [.popOut] { packing with outq := [eosBeat] }) = .next t) ∧
    HostGoesOn (withScript [.popOut] packing) .popOut [] ∧ packing.outq = [] ∧
    HostGoesOn (withScript [.popOut] { packing with outq := [eosBeat] }) .popOut [] ∧
    HostGoesOn (waiting 1 4 [.popOut]) .popOut [.issue 0x05#8] ∧ (waiting 1 4 [.popOut]).outq = [] ∧
    handOver (withScript [.popOut] packing) = none ∧
    (∀ b rest, (bounded 8 (beat 0x00#8 decodingZ)).inq = b :: rest →
      (bounded 8 (beat 0x00#8 decodingZ)).fits
        (beatEffect { bounded 8 (beat 0x00#8 decodingZ) with inq := rest } b).outq.length = true) ∧
    (∀ d, d ∈ [1, 7] → ∃ pushed,
      (beatEffect { bounded d (beat 0x00#8 decodingZ) with inq := [] } (dataBeat 0x00#8)).outq = pushed ∧
      1 ≤ d ∧ d < pushed.length ∧
      (withScript (List.replicate (8 - d) .popOut) (bounded d (beat 0x00#8 decodingZ))).host.script
        = List.replicate (pushed.length - d) .popOut ++ []) :=
  ⟨⟨_, rfl⟩, ⟨_, rfl⟩, goesOn_head _ _ _ nofun nofun (by decide), rfl, goesOn_head _ _ _ nofun nofun (by decide),
    goesOn_behind _ _ _ _ nofun nofun (by decide), rfl, rfl, fun b rest h => by cases h; decide, fun d hd => by
      simp only [List.mem_cons, List.not_mem_nil, or_false] at hd
      obtain rfl | rfl := hd <;> exact ⟨_, rfl, by decide, by decide, rfl⟩⟩

/-- A beat that pushes, a WRHDR and one push of a split WRHDR; the same with a beat in OUTQ. Two beats of a run with the least
OUT_DEPTH. -/
theorem witness_HostActionsCommuteWithBeats :
    ((∃ t, beatStep packing = some t) ∧ (∃ t, headerStep (bounded 14 coded) = some t) ∧
      ∃ t, headerStep (waiting 1 4) = some t) ∧
    (({ packing with outq := [eosBeat] } : State).outq = eosBeat :: [] ∧
      (∃ t, beatStep { packing with outq := [eosBeat] } = some t) ∧
      ∃ t, headerStep { waiting 2 4 with outq := [eosBeat] } = some t) ∧
    (Sound (fed [0xE0#8] (bounded 1 decoding)) ∧ (fed [0xE0#8] (bounded 1 decoding)).host.script = [] ∧
      (fed [0xE0#8] (bounded 1 decoding)).cfg.outDepth ≠ some 0 ∧
      ∃ t, runs 2 { fed [0xE0#8] (bounded 1 decoding) with
        cfg := { (bounded 1 decoding).cfg with outDepth := none } } t) :=
  ⟨⟨⟨_, rfl⟩, ⟨_, rfl⟩, _, rfl⟩, ⟨rfl, ⟨_, rfl⟩, _, rfl⟩, decoding_sound _ (some 1), rfl, by decide, _, rfl⟩

/-- HALT is offered after reset; and DECODE meets an EOS too early. -/
theorem witness_PhaseMovesAlongTheGraph :
    (Sound (offer 0x09#8 State.reset) ∧
      ∃ t, step (offer 0x09#8 State.reset) = .next t ∧ t.phase ≠ (offer 0x09#8 State.reset).phase) ∧
    (Sound (fed [] decoding) ∧ ∃ t, step (fed [] decoding) = .next t ∧ t.phase ≠ (fed [] decoding).phase) :=
  ⟨⟨idle_sound _, _, rfl, by decide⟩, decoding_sound _, _, rfl, by decide⟩

/-- The defaults, and the least and the greatest MAX_LEN. -/
theorem witness_InvariantHoldsAfterReset (c : Config)
    (hc : c ∈ [Config.default, { maxLen := 1, endian := .big, inDepth := some 0, outDepth := some 0 }]) : c.wf = true := by
  simp only [List.mem_cons, List.not_mem_nil, or_false] at hc
  obtain rfl | rfl := hc <;> decide

theorem witness_EveryStepKeepsTheInvariant :
    Sound (beat 0xE0#8 decoding) ∧ ∃ t, step (beat 0xE0#8 decoding) = .next t := ⟨decoding_sound _, _, rfl⟩

/-- DECODE with the least OUT_DEPTH and its whole frame in INQ; a WRHDR with no beat pushed and with 13 of 14. -/
theorem witness_NoStepOfARunStops :
    (Sound (beat 0xE0#8 decoding) ∧ Sound (offer 0x02#8 State.reset)) ∧
    (Sound (fed [0xE0#8] (bounded 1 decoding)) ∧ (fed [0xE0#8] (bounded 1 decoding)).cur ≠ .none ∧
      (fed [0xE0#8] (bounded 1 decoding)).inq = frame [0xE0#8] 0xFF#8 ++ [] ∧
      (fed [0xE0#8] (bounded 1 decoding)).cfg.outDepth ≠ some 0) ∧
    (∀ n, n ∈ [0, 13] → Sound (waiting 1 n) ∧ (waiting 1 n).ready = true ∧ (waiting 1 n).phase = .coded ∧
      (waiting 1 n).cfg.outDepth ≠ some 0) :=
  ⟨⟨decoding_sound _, idle_sound _⟩,
    ⟨decoding_sound _ (some 1), by decide, by decide, by decide⟩, fun n hn =>
    ⟨waiting_sound 1 n [] (by
      simp only [List.mem_cons, List.not_mem_nil, or_false] at hn; omega), rfl, rfl,
      (by decide : some 1 ≠ some 0)⟩⟩

end Sys2Proof.Tests
end

section
/-! PROOFS. The container's integer fields (R10, R67, R100): writing a field and reading it undo each other. -/

namespace Sys2Proof.Safety

open Sys2Proof Sys2Proof.Machine

theorem intBytes_big (v : Word) : intBytes .big v = (intBytes .little v).reverse := rfl

theorem fieldWord_big (bs : List Byte) : fieldWord .big bs = fieldWord .little bs.reverse := rfl

/-- The four bytes are the base 256 digits of the word. -/
theorem leNat_intBytes_little (v : Word) : leNat (intBytes .little v) = v.toNat := by
  have hv := v.isLt
  simp only [intBytes, leNat, BitVec.extractLsb'_toNat, Nat.shiftRight_eq_div_pow]
  omega

theorem fieldWord_intBytes_little (v : Word) : fieldWord .little (intBytes .little v) = v := by
  simp only [fieldWord, leNat_intBytes_little, BitVec.ofNat_toNat, BitVec.setWidth_eq]

@[simp] theorem fieldWord_intBytes (e : Endian) (v : Word) : fieldWord e (intBytes e v) = v := by
  cases e with
  | little => exact fieldWord_intBytes_little v
  | big => rw [intBytes_big, fieldWord_big, List.reverse_reverse, fieldWord_intBytes_little]

@[simp] theorem s32_intBytes (e : Endian) (v : Word) : s32 e (intBytes e v) = v.toInt := by
  rw [s32, fieldWord_intBytes]

/-- Settles O29: the bytes of a field are the word's base 256 digits, and the two reversals of ENDIAN = big cancel. -/
theorem fieldReadsBackAsWritten : Obligations.FieldReadsBackAsWritten :=
  fun e v => ⟨fieldWord_intBytes e v, s32_intBytes e v, intBytes_length e v⟩

end Sys2Proof.Safety
end

section
/-! PROOFS. What one beat of each stream command can do, and what a step does to ERR and FAULTS (R34, R35, R260, R273);
the reset state (R52). -/

namespace Sys2Proof.Safety

open Sys2Proof Sys2Proof.Machine

/-! ## One beat of each stream command -/

/-- The state after the seeding loop of R125. -/
def seeded (s : State) : State := byteValues.foldl seedByte { s with k := 0#9 }

theorem seeded_frame (s : State) : seeded s = { s with k := (seeded s).k, node := (seeded s).node } := seedBytes_frame _ _

/-- Everything a beat of SCAN can do (R123 to R126). -/
theorem scanBeat_cases (s : State) (b : Beat) :
    (∃ e dr, (e = .empty ∨ e = .overflow) ∧ scanBeat s b = raiseFault e dr s) ∨
    (s.total.toNat ≠ s.cfg.maxLen ∧
      scanBeat s b = { s.setFreq b.data (s.freqAt b.data + 1) with total := s.total + 1 }) ∨
    ((seeded s).k ≠ 0#9 ∧ scanBeat s b = { s with
      k := (seeded s).k, node := (seeded s).node, nn := (seeded s).k.setWidth 10,
      phase := .scanned, cur := .none, err := .ok }) := by
  unfold scanBeat
  split
  · have hf := seeded_frame s
    unfold scanEos
    rw [← seeded]
    generalize seeded s = v at hf
    simp only
    split
    · exact .inl ⟨.empty, false, .inl rfl, by rw [hf]; rfl⟩
    · next hk => exact .inr (.inr ⟨hk, by rw [hf]⟩)
  · unfold scanData
    split
    · exact .inl ⟨.overflow, true, .inr rfl, rfl⟩
    · next ht => exact .inr (.inl ⟨ht, rfl⟩)

/-- Everything a beat of ENCODE can do (R178 to R180). -/
theorem encodeBeat_cases (s : State) (b : Beat) :
    encodeBeat s b = raiseFault .noCode true (pushOut [eosBeat] s) ∨
    (∃ bits, encodeBeat s b = { pushOut (dataBeats (packPending bits).1) s with acc := (packPending bits).2 }) ∨
    encodeBeat s b = encodeEos s := by
  unfold encodeBeat
  split
  · exact .inr (.inr rfl)
  · unfold encodeData
    split
    · exact .inl rfl
    · exact .inr (.inl ⟨_, rfl⟩)

/-- Everything a beat of RDHDR can do (R224 to R227). -/
theorem rdhdrBeat_cases (s : State) (b : Beat) :
    (∃ dr, rdhdrBeat s b = raiseFault .malformed dr s) ∨
    (¬ (s.hstage = 0#1 ∧ s.hbuf.length = 3) ∧ ¬ (s.hstage = 1#1 ∧ s.hbuf.length = 4) ∧
      rdhdrBeat s b = { s with hbuf := s.hbuf ++ [b.data] }) ∨
    (s.hstage = 0#1 ∧ ∃ k : Int, 1 ≤ k ∧ k ≤ 256 ∧
      rdhdrBeat s b = { s with k := BitVec.ofInt 9 k, hstage := 1#1, hi := 1#9, hbuf := [] }) ∨
    (s.hstage = 1#1 ∧ ∃ sym f, recordRefused sym f s = false ∧
      rdhdrBeat s b = seedRecord sym (BitVec.ofInt 32 f) s) := by
  unfold rdhdrBeat
  split
  · exact .inl ⟨false, rfl⟩
  · unfold rdhdrData
    simp only [List.length_append, List.length_singleton]
    split
    · next hc =>
      unfold rdhdrCount
      simp only
      split
      · exact .inl ⟨true, rfl⟩
      · next hk => exact .inr (.inr (.inl ⟨hc.1, _, by omega, by omega, rfl⟩))
    · split
      · next hr =>
        unfold rdhdrRecord
        simp only
        split
        · exact .inl ⟨true, rfl⟩
        · next hf => exact .inr (.inr (.inr ⟨hr.1, _, _, Bool.eq_false_of_not_eq_true hf, rfl⟩))
      · next h0 h1 => exact .inr (.inl ⟨fun h => h0 ⟨h.1, by omega⟩, fun h => h1 ⟨h.1, by omega⟩, rfl⟩)

/-! ## The fault record -/

/-- What may happen to ERR and FAULTS together: FAULTS stays and ERR stays or becomes 0, or a fault other than E_IO is
recorded, its code in ERR and its bit in FAULTS (R268, R273). -/
def RecordStep (s t : State) : Prop :=
  (t.faults = s.faults ∧ (t.err = s.err ∨ t.err = .ok)) ∨
  (t.err ≠ .ok ∧ t.err ≠ .io ∧ t.faults = setFaultBit s.faults t.err)

theorem RecordStep.of_kept {s t : State} (hf : t.faults = s.faults) (he : t.err = s.err) : RecordStep s t :=
  .inl ⟨hf, .inl he⟩

theorem RecordStep.of_done {s t : State} (hf : t.faults = s.faults) (he : t.err = .ok) : RecordStep s t :=
  .inl ⟨hf, .inr he⟩

theorem RecordStep.of_fault {s t : State} {e : Err} (h0 : e ≠ .ok) (h1 : e ≠ .io) (he : t.err = e)
    (hf : t.faults = setFaultBit s.faults e) : RecordStep s t :=
  .inr (by rw [he]; exact ⟨h0, h1, hf⟩)

/-- A set bit of FAULTS stays set (R35). -/
theorem RecordStep.faults_sticky {s t : State} (h : RecordStep s t) {n : Nat} (hn : s.faults.getLsbD n = true) :
    t.faults.getLsbD n = true := by
  obtain ⟨hf, -⟩ | ⟨-, -, hf⟩ := h
  · rw [hf, hn]
  · rw [hf, setFaultBit, BitVec.getLsbD_or, hn, Bool.true_or]

/-- Only E_IO has bit 1 of FAULTS, and no fault has bit 0 (R260). -/
theorem setFaultBit_low_bits {e : Err} (h0 : e ≠ .ok) (h1 : e ≠ .io) (f : BitVec 8) :
    (setFaultBit f e).getLsbD 0 = f.getLsbD 0 ∧ (setFaultBit f e).getLsbD 1 = f.getLsbD 1 := by
  cases e with
  | ok => exact absurd rfl h0
  | io => exact absurd rfl h1
  | empty | illegal | malformed | sequence | overflow | noCode => simp [setFaultBit, Err.val]

theorem RecordStep.legal {s t : State} (h : RecordStep s t) (hs : FaultRecordLegal s) : FaultRecordLegal t := by
  obtain ⟨he, h0, h1⟩ := hs
  obtain ⟨hf, ht | ht⟩ | ⟨e0, e1, hf⟩ := h
  · exact ⟨by rwa [ht], by rwa [hf], by rwa [hf]⟩
  · exact ⟨by rw [ht]; nofun, by rwa [hf], by rwa [hf]⟩
  · obtain ⟨b0, b1⟩ := setFaultBit_low_bits e0 e1 s.faults
    exact ⟨e1, by rwa [hf, b0], by rwa [hf, b1]⟩

theorem sequenceError_record (s : State) : RecordStep s (sequenceError s) := .of_fault (e := .sequence) nofun nofun rfl rfl

theorem walkBits_record (bits : List Bit) : ∀ s : State, RecordStep s (walkBits bits s) := by
  induction bits with
  | nil => exact fun s => .of_kept rfl rfl
  | cons b bs ih =>
    intro s
    simp only [walkBits]
    split
    · split
      · exact .of_done rfl rfl
      · exact ih _
    · exact ih _

theorem beatEffect_record (s : State) (b : Beat) : RecordStep s (beatEffect s b) := by
  unfold beatEffect
  split
  · exact .of_kept rfl rfl
  · obtain ⟨e, dr, rfl | rfl, h⟩ | ⟨-, h⟩ | ⟨-, h⟩ := scanBeat_cases s b <;> rw [h]
    · exact .of_fault (e := .empty) nofun nofun rfl rfl
    · exact .of_fault (e := .overflow) nofun nofun rfl rfl
    · exact .of_kept rfl rfl
    · exact .of_done rfl rfl
  · obtain h | ⟨bits, h⟩ | h := encodeBeat_cases s b <;> rw [h]
    · exact .of_fault (e := .noCode) nofun nofun rfl rfl
    · exact .of_kept rfl rfl
    · exact .of_done rfl rfl
  · obtain ⟨dr, h⟩ | ⟨-, -, h⟩ | ⟨-, k, -, -, h⟩ | ⟨-, sym, f, -, h⟩ := rdhdrBeat_cases s b <;> rw [h]
    · exact .of_fault (e := .malformed) nofun nofun rfl rfl
    · exact .of_kept rfl rfl
    · exact .of_kept rfl rfl
    · unfold seedRecord
      simp only
      split
      · exact .of_done rfl rfl
      · exact .of_kept rfl rfl
  · unfold decodeBeat
    split
    · exact .of_fault (e := .malformed) nofun nofun rfl rfl
    · exact walkBits_record _ s
  · unfold drainBeat
    split <;> exact .of_kept rfl rfl

theorem headerStep_record {s t : State} (h : headerStep s = some t) : RecordStep s t := by
  obtain ⟨-, rfl⟩ | ⟨-, -, rfl⟩ := headerStep_some h
  · exact .of_done rfl rfl
  · obtain ⟨-, e⟩ | ⟨-, e⟩ := pushHeaderBeat_cases s <;> rw [e]
    · exact .of_done rfl rfl
    · exact .of_kept rfl rfl

theorem exec_record {i : Instr} {s t : State} (h : exec i s = .next t) : RecordStep s t := by
  cases i with
  | clear =>
    obtain ⟨-, ⟨-, rfl⟩ | ⟨-, rfl⟩⟩ := execClear_next h
    exacts [.of_done rfl rfl, sequenceError_record s]
  | scan =>
    obtain ⟨-, ⟨-, rfl⟩ | ⟨-, rfl⟩⟩ := execScan_next h
    exacts [.of_kept rfl rfl, sequenceError_record s]
  | build =>
    obtain ⟨-, ⟨-, rfl⟩ | ⟨-, rfl⟩⟩ := execBuild_next h
    exacts [.of_done rfl rfl, sequenceError_record s]
  | gencode =>
    obtain ⟨-, ⟨-, ct, -, rfl⟩ | ⟨-, rfl⟩⟩ := execGencode_next h
    exacts [.of_done rfl rfl, sequenceError_record s]
  | wrhdr =>
    obtain ⟨-, ⟨-, rfl⟩ | ⟨-, rfl⟩⟩ := execWrhdr_next h
    · obtain hs | ⟨-, hs⟩ := headerStep_getD_cases s
      · exact headerStep_record hs
      · rw [hs]; exact .of_kept rfl rfl
    · exact sequenceError_record s
  | encode =>
    obtain ⟨-, ⟨-, rfl⟩ | ⟨-, rfl⟩⟩ := execEncode_next h
    exacts [.of_kept rfl rfl, sequenceError_record s]
  | rdhdr =>
    obtain ⟨-, ⟨-, rfl⟩ | ⟨-, rfl⟩⟩ := execRdhdr_next h
    exacts [.of_kept rfl rfl, sequenceError_record s]
  | decode =>
    obtain ⟨-, ⟨-, rfl⟩ | ⟨-, rfl⟩⟩ := execDecode_next h
    exacts [.of_kept rfl rfl, sequenceError_record s]
  | halt =>
    obtain ⟨-, ⟨-, rfl⟩ | ⟨-, rfl⟩⟩ := execHalt_next h
    exacts [.of_done rfl rfl, sequenceError_record s]
  | drain =>
    obtain ⟨-, ⟨-, rfl⟩ | ⟨-, rfl⟩⟩ := execDrain_next h
    exacts [.of_done rfl rfl, sequenceError_record s]

theorem blockTurn_record (s : State) : RecordStep s (blockTurn s) := by
  obtain h | ⟨-, h⟩ := blockTurn_cases s
  · obtain ⟨b, rest, -, -, e, -⟩ := beatStep_some h
    rw [e]; exact beatEffect_record { s with inq := rest } b
  · rw [h]; exact .of_kept rfl rfl

theorem turn_record (as : List Action) (s : State) : RecordStep s (turn as s) := by
  obtain ⟨-, e⟩ | ⟨-, e⟩ := turn_cases as s <;> rw [e]
  · exact blockTurn_record (withScript as s)
  · obtain ⟨-, e⟩ | ⟨t, h, -, e⟩ | ⟨t, h, -, e⟩ := headerTurn_cases (withScript as s) <;> rw [e]
    · exact .of_kept rfl rfl
    · exact (headerStep_record h :)
    · exact (headerStep_record h :)

/-- Everything a step can do to ERR and FAULTS: reset apart, they are kept, or ERR becomes 0, or a fault other than E_IO is
recorded. -/
theorem step_record {s t : State} (h : step s = .next t) :
    RecordStep s t ∨ ∃ as, hostTurn s = some (.reset, as) ∧ t = resetBlock (withScript as s) := by
  obtain e | ⟨as, -, e⟩ | ⟨w, as, -, -, -, ⟨err, -, e⟩ | ⟨i, -, e⟩⟩ | ⟨b, as, -, -, e⟩ | ⟨b, rest, as, -, -, e⟩ |
    ⟨addr, as, -, e⟩ | h | ⟨as, -, e⟩ := step_cases h
  · rw [e]; exact .inl (turn_record _ s)
  · rw [e]; exact .inl (turn_record _ s)
  · rw [e]; exact .inl (.of_fault (e := .illegal) nofun nofun rfl rfl)
  · exact .inl (exec_record (s := withScript as s) e)
  · rw [e]; exact .inl (.of_kept rfl rfl)
  · rw [e]; exact .inl (.of_kept rfl rfl)
  · rw [e]; exact .inl (.of_kept rfl rfl)
  · exact .inr h
  · obtain ⟨b, rest, as', -, -, -, -, -, -, e⟩ := handOver_some e
    rw [e]; exact .inl (beatEffect_record { s with inq := rest } b)

/-- A reset that is performed is one the host takes next. -/
theorem hostResets_of_hostTurn {s : State} {as : List Action} (h : hostTurn s = some (.reset, as)) : HostResets s as := by
  obtain ⟨-, hs⟩ | ⟨hw, -, bs, hs, e⟩ := hostTurn_some h
  · exact .inl hs
  · rw [if_pos rfl] at e
    subst e
    exact .inr ⟨hw, _, hs⟩

/-- Settles O47: no step but reset does anything to FAULTS but set bits. -/
theorem faultsAreSticky : Obligations.FaultsAreSticky := by
  intro s t n h hr hn
  obtain h | ⟨as, h, -⟩ := step_record h
  · exact h.faults_sticky hn
  · exact absurd (hostResets_of_hostTurn h) (hr as)

/-- Settles O48: every fault a step records is one of E_EMPTY to E_NOCODE, and reset clears the record. -/
theorem ioFaultIsNeverRecorded : Obligations.IoFaultIsNeverRecorded := by
  intro s t hs h
  obtain h | ⟨as, -, rfl⟩ := step_record h
  · exact h.legal hs
  · exact (by decide : FaultRecordLegal State.reset)

/-! ## Reset -/

/-- Settles O53: the reset state is a literal, and an empty table reads as cleared entries. -/
theorem resetValuesAreAllZero : Obligations.ResetValuesAreAllZero := by
  have node : ∀ i, State.reset.nodeAt i = Node.zero := fun i => nodeIn_nil i
  exact ⟨rfl, rfl, rfl, rfl, rfl, rfl, rfl, rfl, rfl, fun _ => rfl, node, fun _ => ⟨rfl, rfl⟩, rfl, rfl, rfl, rfl, rfl, rfl,
    rfl⟩

/-- An empty queue is within every depth. -/
@[simp] theorem withinDepth_nil (d : Option Nat) : withinDepth d [] := by
  cases d with
  | none => trivial
  | some d => exact Nat.zero_le d

/-- Settles O58: nothing is in the queues and tables, no fault is recorded and nothing is in progress. -/
theorem invariantHoldsAfterReset : Obligations.InvariantHoldsAfterReset := fun c hc h =>
  { cfg := hc
    tables := rfl
    inDepth := withinDepth_nil _
    outDepth := withinDepth_nil _
    record := (by decide : FaultRecordLegal State.reset)
    operation := ⟨rfl, fun _ => ⟨rfl, rfl, rfl, rfl, rfl, rfl, rfl⟩⟩
    partSent := fun h => absurd rfl h }

end Sys2Proof.Safety
end

section
/-! PROOFS. Symbol lists (R41): a leaf appended at the end keeps one, and SCAN's and RDHDR's leaves are appended so (R125, R227). -/

namespace Sys2Proof.Safety

open Sys2Proof Sys2Proof.Machine

/-- A register that does not overflow counts up by one (R12). -/
theorem toNat_add_one {n : Nat} {x : BitVec n} (h : x.toNat + 1 < 2 ^ n) : (x + 1).toNat = x.toNat + 1 := by
  have h1 : 1 < 2 ^ n := by omega
  show (x + BitVec.ofNat n 1).toNat = _
  rw [BitVec.toNat_add, BitVec.toNat_ofNat, Nat.mod_eq_of_lt h1, Nat.mod_eq_of_lt h]

/-! ## Sums of weights -/

theorem weightSum_succ (t : Table Node) (n : Nat) :
    weightSum t (n + 1) = weightSum t n + (nodeIn t (n + 1)).weight.toNat := by
  simp [weightSum, leafIndices, List.range'_1_concat, Nat.add_comm 1 n]

theorem weightSum_congr {t u : Table Node} {n : Nat}
    (h : ∀ i, 1 ≤ i → i ≤ n → (nodeIn t i).weight = (nodeIn u i).weight) : weightSum t n = weightSum u n := by
  induction n with
  | zero => rfl
  | succ n ih => rw [weightSum_succ, weightSum_succ, h (n + 1) (by omega) le_rfl, ih fun i h1 h2 => h i h1 (by omega)]

/-! ## Leaves -/

/-- NODE as the seeding of leaves leaves it (R125, R227): entries 1..n are the leaves of a Symbol list, and nothing is above. -/
structure Leaves (t : Table Node) (n : Nat) : Prop where
  wf     : Table.wf Node.zero 1 512 t = true
  list   : SymbolList t n
  leaves : ∀ i, 1 ≤ i → i ≤ n → nodeIn t i = leafNode (nodeIn t i).sym (nodeIn t i).weight
  above  : ∀ i, n < i → nodeIn t i = Node.zero

theorem leaves_nil : Leaves [] 0 where
  wf := rfl
  list := ⟨fun i j h1 h2 h3 => by omega, fun i h1 h2 => by omega⟩
  leaves i h1 h2 := by omega
  above i _ := nodeIn_nil i

/-- A leaf written at the end, its byte value above all others, makes a longer Symbol list. -/
theorem Leaves.snoc {t : Table Node} {n : Nat} (h : Leaves t n) (hn : n + 1 < 512) {b : Byte} {w : Word}
    (hb : ∀ i, 1 ≤ i → i ≤ n → (nodeIn t i).sym.toNat < b.toNat) (hw : 1 ≤ w.toNat) :
    Leaves (putNode t (n + 1) (leafNode b w)) (n + 1) ∧
    weightSum (putNode t (n + 1) (leafNode b w)) (n + 1) = weightSum t n + w.toNat := by
  have last : nodeIn (putNode t (n + 1) (leafNode b w)) (n + 1) = leafNode b w :=
    nodeIn_putNode_same h.wf _ (by omega) hn
  have before : ∀ i, i ≠ n + 1 → nodeIn (putNode t (n + 1) (leafNode b w)) i = nodeIn t i :=
    fun i hi => nodeIn_putNode_other t _ hi
  refine ⟨⟨putNode_wf h.wf _ _, ⟨fun i j h1 h2 h3 => ?_, fun i h1 h2 => ?_⟩, fun i h1 h2 => ?_, fun i h1 => ?_⟩, ?_⟩
  · rw [before i (by omega)]
    by_cases hj : j = n + 1
    · rw [hj, last]; exact hb i h1 (by omega)
    · rw [before j hj]; exact h.list.ascending i j h1 h2 (by omega)
  · by_cases hi : i = n + 1
    · rw [hi, last]; exact hw
    · rw [before i hi]; exact h.list.positive i h1 (by omega)
  · by_cases hi : i = n + 1
    · rw [hi, last]; rfl
    · rw [before i hi]; exact h.leaves i h1 (by omega)
  · rw [before i (by omega)]; exact h.above i (by omega)
  · have same := weightSum_congr (n := n) fun i _ h2 => congrArg Node.weight (before i (by omega))
    rw [weightSum_succ, last, same]
    rfl

/-- Leaves 1..K, with TOTAL the sum of their weights and NN = K, are what R41 and R125 ask for. -/
theorem Leaves.symbols {s : State} (h : Leaves s.node s.k.toNat) (k1 : 1 ≤ s.k.toNat) (k2 : s.k.toNat ≤ 256)
    (ht : s.total.toNat = weightSum s.node s.k.toNat) (hm : s.total.toNat ≤ s.cfg.maxLen)
    (hn : s.nn.toNat = s.k.toNat) : Symbols s ∧ LeavesOnly s :=
  ⟨⟨k1, k2, h.list, ht, hm⟩, ⟨hn, h.leaves, h.above⟩⟩

theorem maxLen_lt {c : Config} (h : c.wf = true) : c.maxLen < 2 ^ 31 := by
  have : 1 ≤ c.maxLen ∧ c.maxLen ≤ 2147483647 := by simpa [Config.wf] using h
  omega

/-! ## Counting (R123) -/

theorem freqSum_eq (s : State) : freqSum s = ∑ n ∈ Finset.range 256, (s.freqAt (BitVec.ofNat 8 n)).toNat := by
  unfold freqSum byteValues
  rw [List.map_map]
  rfl

theorem freqAt_le_freqSum (s : State) (b : Byte) : (s.freqAt b).toNat ≤ freqSum s := by
  rw [freqSum_eq]
  have h := Finset.single_le_sum (f := fun n => (s.freqAt (BitVec.ofNat 8 n)).toNat) (fun _ _ => Nat.zero_le _)
    (Finset.mem_range.2 b.isLt)
  simpa using h

/-- One count more is one more in the sum of all counts. -/
theorem freqSum_setFreq {s : State} (hs : s.tablesWf = true) (d : Byte) (hd : (s.freqAt d).toNat + 1 < 2 ^ 32) :
    freqSum (s.setFreq d (s.freqAt d + 1)) = freqSum s + 1 := by
  have entry : ∀ n ∈ Finset.range 256, ((s.setFreq d (s.freqAt d + 1)).freqAt (BitVec.ofNat 8 n)).toNat
      = (s.freqAt (BitVec.ofNat 8 n)).toNat + if n = d.toNat then 1 else 0 := by
    intro n hn
    have hn := Finset.mem_range.1 hn
    have hiff : BitVec.ofNat 8 n = d ↔ n = d.toNat := by
      rw [← BitVec.toNat_inj, BitVec.toNat_ofNat, Nat.mod_eq_of_lt hn]
    rw [freqAt_setFreq hs]
    by_cases h : n = d.toNat
    · rw [if_pos (hiff.2 h), if_pos h, hiff.2 h, toNat_add_one hd]
    · rw [if_neg (mt hiff.1 h), if_neg h, Nat.add_zero]
  rw [freqSum_eq, freqSum_eq, Finset.sum_congr rfl entry, Finset.sum_add_distrib, Finset.sum_ite_eq',
    if_pos (Finset.mem_range.2 d.isLt)]

/-! ## Seeding (R125) -/

/-- The seeding loop of `s` has looked at the byte values below `m`, and `v` is the state it has reached. -/
structure SeededBelow (s v : State) (m : Nat) : Prop where
  freq   : v.freq = s.freq
  kMax   : v.k.toNat ≤ m
  leaves : Leaves v.node v.k.toNat
  below  : ∀ i, 1 ≤ i → i ≤ v.k.toNat → (nodeIn v.node i).sym.toNat < m
  sum    : weightSum v.node v.k.toNat = ∑ n ∈ Finset.range m, (s.freqAt (BitVec.ofNat 8 n)).toNat

/-- One round of the seeding loop. -/
theorem SeededBelow.seedByte_succ {s v : State} {m : Nat} (h : SeededBelow s v m) (hm : m < 256) :
    SeededBelow s (seedByte v (BitVec.ofNat 8 m)) (m + 1) := by
  have hfreq : v.freqAt (BitVec.ofNat 8 m) = s.freqAt (BitVec.ofNat 8 m) := by rw [State.freqAt, State.freqAt, h.freq]
  have hbyte : (BitVec.ofNat 8 m).toNat = m := by rw [BitVec.toNat_ofNat, Nat.mod_eq_of_lt hm]
  unfold seedByte
  split
  · next hz =>
    refine ⟨h.freq, by have := h.kMax; omega, h.leaves, fun i h1 h2 => by have := h.below i h1 h2; omega, ?_⟩
    rw [Finset.sum_range_succ, ← hfreq, hz, h.sum]; rfl
  · next hz =>
    have hk : (v.k + 1).toNat = v.k.toNat + 1 := toNat_add_one (by have := h.kMax; omega)
    have hw : 1 ≤ (v.freqAt (BitVec.ofNat 8 m)).toNat := by
      rw [Nat.one_le_iff_ne_zero]
      exact fun e => hz (BitVec.eq_of_toNat_eq e)
    obtain ⟨hl, hsum⟩ := h.leaves.snoc (b := BitVec.ofNat 8 m) (w := v.freqAt (BitVec.ofNat 8 m))
      (by have := h.kMax; omega) (by rw [hbyte]; exact h.below) hw
    refine ⟨h.freq, ?_, ?_, fun i h1 h2 => ?_, ?_⟩
    · show (v.k + 1).toNat ≤ m + 1
      have := h.kMax
      omega
    · simp only [hk]; exact hl
    · simp only [hk] at h2 ⊢
      by_cases hi : i = v.k.toNat + 1
      · rw [hi, nodeIn_putNode_same h.leaves.wf _ (by omega) (by have := h.kMax; omega)]
        show (BitVec.ofNat 8 m).toNat < m + 1
        omega
      · rw [nodeIn_putNode_other _ _ hi]
        have := h.below i h1 (by omega)
        omega
    · simp only [hk]
      rw [hsum, Finset.sum_range_succ, hfreq, h.sum]

theorem seededBelow_foldl {s : State} (hs : s.node = []) : ∀ m ≤ 256,
    SeededBelow s (((List.range m).map (BitVec.ofNat 8)).foldl seedByte { s with k := 0#9 }) m := by
  intro m
  induction m with
  | zero =>
    intro _
    exact ⟨rfl, Nat.zero_le _, by simp only [hs]; exact leaves_nil, fun i h1 h2 => absurd (h1.trans h2) (Nat.not_succ_le_zero 0),
      rfl⟩
  | succ m ih =>
    intro hm
    rw [List.range_succ, List.map_append, List.foldl_append]
    exact (ih (by omega)).seedByte_succ hm

/-- The whole seeding loop, over the 256 byte values (R125). -/
theorem seeded_spec {s : State} (hs : s.node = []) : SeededBelow s (seeded s) 256 := seededBelow_foldl hs 256 le_rfl

end Sys2Proof.Safety
end

section
/-! PROOFS. BUILD (R140 to R150): the merge loop keeps a forest whose roots weigh TOTAL together, and ends with one tree. -/

namespace Sys2Proof.Safety

open Sys2Proof Sys2Proof.Machine

theorem weightSum_eq (t : Table Node) (n : Nat) :
    weightSum t n = ∑ i ∈ Finset.Ico 1 (n + 1), (nodeIn t i).weight.toNat := by
  induction n with
  | zero => rfl
  | succ n ih =>
    rw [weightSum_succ, ih, ← Finset.sum_Ico_succ_top (show 1 ≤ n + 1 by omega) fun i => (nodeIn t i).weight.toNat]

theorem toNat_ofNat_index {n : Nat} (h : n < 512) : (BitVec.ofNat 9 n).toNat = n := by
  rw [BitVec.toNat_ofNat, Nat.mod_eq_of_lt h]

/-- Canonical node tables with the same nodes are the same table. -/
theorem nodeTable_ext {t u : Table Node} (ht : Table.wf Node.zero 1 512 t = true) (hu : Table.wf Node.zero 1 512 u = true)
    (h : ∀ i, nodeIn t i = nodeIn u i) : t = u := by
  refine Table.ext_of_wf ht hu fun i => ?_
  by_cases hi : i = 0
  · rw [Table.read_of_lt ht (by omega), Table.read_of_lt hu (by omega)]
  · simpa [nodeIn, hi] using h i

/-- A parent that is written again changes nothing. -/
theorem setParent_self {t : Table Node} (h : Table.wf Node.zero 1 512 t = true) {i : Nat} {p : Index}
    (hp : (nodeIn t i).parent = p) : setParent t i p = t := by
  refine nodeTable_ext (setParent_wf h _ _) h fun j => ?_
  rw [nodeIn_setParent h]
  split
  · next c => rw [c.1, ← hp]
  · rfl

/-- Writing a parent changes the parent of one node, and nothing else. -/
theorem nodeIn_setParent_eq {t : Table Node} (h : Table.wf Node.zero 1 512 t = true) {i : Nat} (h1 : 1 ≤ i) (h2 : i < 512)
    (p : Index) (j : Nat) : nodeIn (setParent t i p) j
      = { nodeIn t j with parent := if j = i then p else (nodeIn t j).parent } := by
  rw [nodeIn_setParent h]
  by_cases hj : j = i
  · rw [if_pos ⟨hj, h1, h2⟩, if_pos hj, hj]
  · rw [if_neg fun c => hj c.1, if_neg hj]

/-! ## The two minima (R144, R145) -/

/-- The unmerged nodes below `num` (R144). -/
def unmerged (t : Table Node) (num : Nat) : Finset Nat := (Finset.Ico 1 num).filter fun i => (nodeIn t i).parent = 0#9

theorem mem_unmerged {t : Table Node} {num i : Nat} :
    i ∈ unmerged t num ↔ 1 ≤ i ∧ i < num ∧ (nodeIn t i).parent = 0#9 := by
  simp [unmerged, and_assoc]

theorem unmerged_succ_of_root {t : Table Node} {num : Nat} (h : 1 ≤ num) (hp : (nodeIn t num).parent = 0#9) :
    unmerged t (num + 1) = insert num (unmerged t num) := by
  rw [unmerged, ← Finset.insert_Ico_right_eq_Ico_add_one h, Finset.filter_insert, if_pos hp, unmerged]

theorem unmerged_succ_of_child {t : Table Node} {num : Nat} (h : 1 ≤ num) (hp : (nodeIn t num).parent ≠ 0#9) :
    unmerged t (num + 1) = unmerged t num := by
  rw [unmerged, ← Finset.insert_Ico_right_eq_Ico_add_one h, Finset.filter_insert, if_neg hp, unmerged]

/-- What the scan of R145 has found among the unmerged nodes below `num`: none, the only one, or two of them. -/
def Found (t : Table Node) (num : Nat) (p : Minima) : Prop :=
  (p.s1 = 0 ∧ p.s2 = 0 ∧ unmerged t num = ∅) ∨
  (p.s1 ≠ 0 ∧ p.s2 = 0 ∧ unmerged t num = {p.s1}) ∨
  (p.s1 ≠ p.s2 ∧ p.s1 ∈ unmerged t num ∧ p.s2 ∈ unmerged t num)

/-- One round of the scan. -/
theorem Found.seeNode_succ {t : Table Node} {num : Nat} {p : Minima} (h : Found t num p) (hn : 1 ≤ num) :
    Found t (num + 1) (seeNode t p num) := by
  unfold seeNode
  simp only
  split
  · next hp => rw [Found, unmerged_succ_of_child hn hp]; exact h
  · next hp =>
    have hu := unmerged_succ_of_root hn (not_not.1 hp)
    have new : num ∈ unmerged t (num + 1) := hu ▸ Finset.mem_insert_self _ _
    have old {i : Nat} (hi : i ∈ unmerged t num) : i ∈ unmerged t (num + 1) := hu ▸ Finset.mem_insert_of_mem hi
    have ne {i : Nat} (hi : i ∈ unmerged t num) : i ≠ num := (mem_unmerged.1 hi).2.1.ne
    split
    · obtain ⟨h1, h2, h3⟩ | ⟨h1, h2, h3⟩ | ⟨h1, h2, h3⟩ := h
      · exact .inr (.inl ⟨by simp only; omega, h1, by rw [hu, h3]; rfl⟩)
      · have hm : p.s1 ∈ unmerged t num := h3 ▸ Finset.mem_singleton_self _
        exact .inr (.inr ⟨(ne hm).symm, new, old hm⟩)
      · exact .inr (.inr ⟨(ne h2).symm, new, old h2⟩)
    · next c1 =>
      split
      · obtain ⟨h1, h2, h3⟩ | ⟨h1, h2, h3⟩ | ⟨h1, h2, h3⟩ := h
        · exact absurd (.inl h1) c1
        · have hm : p.s1 ∈ unmerged t num := h3 ▸ Finset.mem_singleton_self _
          exact .inr (.inr ⟨ne hm, old hm, new⟩)
        · exact .inr (.inr ⟨ne h2, old h2, new⟩)
      · next c2 =>
        obtain ⟨h1, h2, h3⟩ | ⟨h1, h2, h3⟩ | ⟨h1, h2, h3⟩ := h
        · exact absurd (.inl h1) c1
        · exact absurd (.inl h2) c2
        · exact .inr (.inr ⟨h1, old h2, old h3⟩)

theorem found_foldl (t : Table Node) (n : Nat) :
    Found t (n + 1) ((List.range' 1 n).foldl (seeNode t) ⟨0, 0#32, 0, 0#32⟩) := by
  induction n with
  | zero => exact .inl ⟨rfl, rfl, rfl⟩
  | succ n ih =>
    rw [List.range'_1_concat, List.foldl_append, Nat.add_comm 1 n]
    exact ih.seeNode_succ (by omega)

/-- Of two unmerged nodes or more, the scan finds two. -/
theorem selectTwo_mem {t : Table Node} {num : Nat} (h : 2 ≤ (unmerged t num).card) :
    (selectTwo t num).1 ≠ (selectTwo t num).2 ∧ (selectTwo t num).1 ∈ unmerged t num ∧
    (selectTwo t num).2 ∈ unmerged t num := by
  have hn : num - 1 + 1 = num := by
    rcases Nat.eq_zero_or_pos num with h0 | h0
    · rw [h0] at h; exact absurd h (by simp [unmerged])
    · omega
  have hf := found_foldl t (num - 1)
  rw [hn] at hf
  obtain ⟨-, -, h3⟩ | ⟨-, -, h3⟩ | hf := hf
  · rw [h3] at h; exact absurd h (by decide)
  · rw [h3, Finset.card_singleton] at h; omega
  · exact hf

/-! ## One merge (R146) -/

section Merge

variable {t : Table Node} {num x y : Nat}

/-- The node a merge creates. -/
theorem nodeIn_createNode_new (h : Table.wf Node.zero 1 512 t = true) (h0 : 1 ≤ num) (h1 : num < 512)
    (hx : x ≠ num) (hy : y ≠ num) : nodeIn (createNode t num x y) num
      = ⟨0#8, (nodeIn t x).weight + (nodeIn t y).weight, 0#9, BitVec.ofNat 9 x, BitVec.ofNat 9 y⟩ := by
  unfold createNode setParent
  simp only
  rw [nodeIn_putNode_other _ _ hy.symm, nodeIn_putNode_other _ _ hx.symm, nodeIn_putNode_same h _ h0 h1]

/-- A merge changes nothing of any other node but the parents of the two merged ones. -/
theorem nodeIn_createNode_old (h : Table.wf Node.zero 1 512 t = true) (h1 : num < 512)
    (hx : 1 ≤ x ∧ x < num) (hy : 1 ≤ y ∧ y < num) {i : Nat} (hi : i ≠ num) : nodeIn (createNode t num x y) i
      = { nodeIn t i with parent := if i = x ∨ i = y then BitVec.ofNat 9 num else (nodeIn t i).parent } := by
  unfold createNode
  simp only
  have w1 := putNode_wf h num
    ⟨0#8, (nodeIn t x).weight + (nodeIn t y).weight, 0#9, BitVec.ofNat 9 x, BitVec.ofNat 9 y⟩
  rw [nodeIn_setParent_eq (setParent_wf w1 _ _) hy.1 (by omega), nodeIn_setParent_eq w1 hx.1 (by omega),
    nodeIn_putNode_other _ _ hi]
  by_cases ey : i = y
  · simp [ey]
  · simp [ey]

end Merge

/-! ## The merge loop (R143) -/

/-- Before node `num` is created from the leaves `t0`: nodes 1 .. num-1 are a forest over the leaves, each node above K is
the parent of its two children and weighs as much as they, and the roots weigh as much as the leaves together. -/
structure Merging (t0 t : Table Node) (k num : Nat) : Prop where
  wf       : Table.wf Node.zero 1 512 t = true
  above    : ∀ i, num ≤ i → nodeIn t i = Node.zero
  leaves   : ∀ i, 1 ≤ i → i ≤ k → nodeIn t i = { nodeIn t0 i with parent := (nodeIn t i).parent }
  children : ∀ i, k < i → i < num →
    (nodeIn t i).left ≠ (nodeIn t i).right ∧
    1 ≤ (nodeIn t i).left.toNat ∧ (nodeIn t i).left.toNat < i ∧
    1 ≤ (nodeIn t i).right.toNat ∧ (nodeIn t i).right.toNat < i ∧
    (nodeIn t (nodeIn t i).left.toNat).parent.toNat = i ∧
    (nodeIn t (nodeIn t i).right.toNat).parent.toNat = i
  parents  : ∀ i, 1 ≤ i → i < num → (nodeIn t i).parent ≠ 0#9 →
    k < (nodeIn t i).parent.toNat ∧ i < (nodeIn t i).parent.toNat ∧ (nodeIn t i).parent.toNat < num ∧
    ((nodeIn t (nodeIn t i).parent.toNat).left.toNat = i ∨ (nodeIn t (nodeIn t i).parent.toNat).right.toNat = i)
  weights  : ∀ i, k < i → i < num →
    (nodeIn t i).weight.toNat
      = (nodeIn t (nodeIn t i).left.toNat).weight.toNat + (nodeIn t (nodeIn t i).right.toNat).weight.toNat
  card     : (unmerged t num).card + num = 2 * k + 1
  sum      : ∑ i ∈ unmerged t num, (nodeIn t i).weight.toNat = weightSum t0 k

/-- Before the first merge every leaf is a root. -/
theorem Leaves.merging {t : Table Node} {k : Nat} (h : Leaves t k) : Merging t t k (k + 1) := by
  have root : ∀ i, 1 ≤ i → i ≤ k → (nodeIn t i).parent = 0#9 := fun i h1 h2 => by rw [h.leaves i h1 h2]; rfl
  have all : unmerged t (k + 1) = Finset.Ico 1 (k + 1) := by
    refine Finset.filter_true_of_mem fun i hi => ?_
    rw [Finset.mem_Ico] at hi
    exact root i hi.1 (by omega)
  refine ⟨h.wf, fun i hi => h.above i (by omega), fun i _ _ => rfl, fun i h1 h2 => by omega,
    fun i h1 h2 h3 => absurd (root i h1 (by omega)) h3, fun i h1 h2 => by omega, ?_, ?_⟩
  · rw [all, Nat.card_Ico]; omega
  · rw [all, weightSum_eq]

/-- The roots after a merge. -/
theorem unmerged_createNode {t : Table Node} {num x y : Nat} (h : Table.wf Node.zero 1 512 t = true) (h0 : 1 ≤ num)
    (h1 : num < 512) (hx : 1 ≤ x ∧ x < num) (hy : 1 ≤ y ∧ y < num) :
    unmerged (createNode t num x y) (num + 1) = insert num (((unmerged t num).erase x).erase y) := by
  have hne : BitVec.ofNat 9 num ≠ 0#9 := fun e => by
    have := toNat_ofNat_index h1
    rw [e] at this
    change 0 = num at this
    omega
  ext i
  rw [mem_unmerged, Finset.mem_insert, Finset.mem_erase, Finset.mem_erase, mem_unmerged]
  by_cases hi : i = num
  · rw [hi, nodeIn_createNode_new h h0 h1 hx.2.ne hy.2.ne]
    simp [h0]
  · rw [nodeIn_createNode_old h h1 hx hy hi]
    by_cases hxy : i = x ∨ i = y
    · simp only [if_pos hxy, hne, hi, false_or]
      tauto
    · simp only [if_neg hxy, hi, false_or]
      constructor
      · exact fun c => ⟨fun e => hxy (.inr e), fun e => hxy (.inl e), c.1, by omega, c.2.2⟩
      · exact fun c => ⟨c.2.2.1, by omega, c.2.2.2.2⟩

section MergeStep

variable {t0 t : Table Node} {k num x y : Nat} (h : Merging t0 t k num) (h1 : num < 512) (hne : x ≠ y)
  (hx : x ∈ unmerged t num) (hy : y ∈ unmerged t num)

include h hne hx hy in
/-- The weight of the leaves, split into that of the two merged roots and that of the others. -/
theorem Merging.sum_split :
    (nodeIn t x).weight.toNat + ((nodeIn t y).weight.toNat +
      ∑ i ∈ ((unmerged t num).erase x).erase y, (nodeIn t i).weight.toNat) = weightSum t0 k := by
  have hy' : y ∈ (unmerged t num).erase x := Finset.mem_erase.2 ⟨hne.symm, hy⟩
  rw [Finset.add_sum_erase _ (fun i => (nodeIn t i).weight.toNat) hy',
    Finset.add_sum_erase _ (fun i => (nodeIn t i).weight.toNat) hx, h.sum]

/-- A root is nobody's child. -/
theorem ne_of_child {i j : Nat} (hi : i ≠ 0) (hj : (nodeIn t j).parent.toNat = i) (hx : x ∈ unmerged t num) : j ≠ x := by
  rintro rfl
  rw [(mem_unmerged.1 hx).2.2] at hj
  exact hi hj.symm

include h h1 hx hy

theorem Merging.nodeIn_new : nodeIn (createNode t num x y) num
    = ⟨0#8, (nodeIn t x).weight + (nodeIn t y).weight, 0#9, BitVec.ofNat 9 x, BitVec.ofNat 9 y⟩ := by
  obtain ⟨x1, x2, -⟩ := mem_unmerged.1 hx
  obtain ⟨-, y2, -⟩ := mem_unmerged.1 hy
  exact nodeIn_createNode_new h.wf (by omega) h1 x2.ne y2.ne

theorem Merging.nodeIn_old {i : Nat} (hi : i ≠ num) : nodeIn (createNode t num x y) i
    = { nodeIn t i with parent := if i = x ∨ i = y then BitVec.ofNat 9 num else (nodeIn t i).parent } := by
  obtain ⟨x1, x2, -⟩ := mem_unmerged.1 hx
  obtain ⟨y1, y2, -⟩ := mem_unmerged.1 hy
  exact nodeIn_createNode_old h.wf h1 ⟨x1, x2⟩ ⟨y1, y2⟩ hi

include hne in
/-- The new node has the two merged roots as its children, and every older node keeps its own (R43 (b)). -/
theorem Merging.children_createNode {i : Nat} (i1 : k < i) (i2 : i < num + 1) :
    (nodeIn (createNode t num x y) i).left ≠ (nodeIn (createNode t num x y) i).right ∧
    1 ≤ (nodeIn (createNode t num x y) i).left.toNat ∧ (nodeIn (createNode t num x y) i).left.toNat < i ∧
    1 ≤ (nodeIn (createNode t num x y) i).right.toNat ∧ (nodeIn (createNode t num x y) i).right.toNat < i ∧
    (nodeIn (createNode t num x y) (nodeIn (createNode t num x y) i).left.toNat).parent.toNat = i ∧
    (nodeIn (createNode t num x y) (nodeIn (createNode t num x y) i).right.toNat).parent.toNat = i := by
  obtain ⟨x1, x2, -⟩ := mem_unmerged.1 hx
  obtain ⟨y1, y2, -⟩ := mem_unmerged.1 hy
  have old {i : Nat} (hi : i ≠ num) := h.nodeIn_old h1 hx hy hi
  by_cases hi : i = num
  · subst hi
    have nx := toNat_ofNat_index (show x < 512 by omega)
    have ny := toNat_ofNat_index (show y < 512 by omega)
    rw [h.nodeIn_new h1 hx hy]
    simp only [nx, ny]
    refine ⟨fun e => hne (by rw [← nx, ← ny, e]), x1, x2, y1, y2, ?_, ?_⟩
    · rw [old x2.ne, if_pos (.inl rfl), toNat_ofNat_index h1]
    · rw [old y2.ne, if_pos (.inr rfl), toNat_ofNat_index h1]
  · obtain ⟨c1, c2, c3, c4, c5, c6, c7⟩ := h.children i i1 (by omega)
    have hl := not_or.2 ⟨ne_of_child (by omega) c6 hx, ne_of_child (by omega) c6 hy⟩
    have hr := not_or.2 ⟨ne_of_child (by omega) c7 hx, ne_of_child (by omega) c7 hy⟩
    rw [old hi]
    simp only
    rw [old (show (nodeIn t i).left.toNat ≠ num by omega), old (show (nodeIn t i).right.toNat ≠ num by omega),
      if_neg hl, if_neg hr]
    exact ⟨c1, c2, c3, c4, c5, c6, c7⟩

/-- A node that is a child is a child of its parent, which stands above it and above K (R43 (c)). -/
theorem Merging.parents_createNode (hk : k < num) {i : Nat} (i2 : i < num + 1) (i1 : 1 ≤ i)
    (hp : (nodeIn (createNode t num x y) i).parent ≠ 0#9) :
    k < (nodeIn (createNode t num x y) i).parent.toNat ∧ i < (nodeIn (createNode t num x y) i).parent.toNat ∧
    (nodeIn (createNode t num x y) i).parent.toNat < num + 1 ∧
    ((nodeIn (createNode t num x y) (nodeIn (createNode t num x y) i).parent.toNat).left.toNat = i ∨
      (nodeIn (createNode t num x y) (nodeIn (createNode t num x y) i).parent.toNat).right.toNat = i) := by
  have new := h.nodeIn_new h1 hx hy
  by_cases hi : i = num
  · rw [hi, new] at hp; exact absurd rfl hp
  · rw [h.nodeIn_old h1 hx hy hi] at hp ⊢
    by_cases hxy : i = x ∨ i = y
    · simp only [if_pos hxy, toNat_ofNat_index h1]
      rw [new]
      simp only
      refine ⟨hk, by omega, by omega, hxy.imp ?_ ?_⟩ <;> rintro rfl <;> exact toNat_ofNat_index (by omega)
    · simp only [if_neg hxy] at hp ⊢
      obtain ⟨p1, p2, p3, p4⟩ := h.parents i i1 (by omega) hp
      rw [h.nodeIn_old h1 hx hy (show (nodeIn t i).parent.toNat ≠ num by omega)]
      exact ⟨p1, p2, by omega, p4⟩

include hne in
/-- The new node weighs as much as the two merged roots: the leaves' weight is below 2^32 (R43 (d), R146). -/
theorem Merging.weight_new (hW : weightSum t0 k < 2 ^ 32) : (nodeIn (createNode t num x y) num).weight.toNat
    = (nodeIn t x).weight.toNat + (nodeIn t y).weight.toNat := by
  have split := h.sum_split hne hx hy
  rw [h.nodeIn_new h1 hx hy, BitVec.toNat_add, Nat.mod_eq_of_lt (by omega)]

include hne in
/-- Every node above K weighs as much as its children (R43 (d)). -/
theorem Merging.weights_createNode (hW : weightSum t0 k < 2 ^ 32) {i : Nat} (i1 : k < i) (i2 : i < num + 1) :
    (nodeIn (createNode t num x y) i).weight.toNat
      = (nodeIn (createNode t num x y) (nodeIn (createNode t num x y) i).left.toNat).weight.toNat
        + (nodeIn (createNode t num x y) (nodeIn (createNode t num x y) i).right.toNat).weight.toNat := by
  obtain ⟨-, x2, -⟩ := mem_unmerged.1 hx
  obtain ⟨-, y2, -⟩ := mem_unmerged.1 hy
  have old {i : Nat} (hi : i ≠ num) := h.nodeIn_old h1 hx hy hi
  by_cases hi : i = num
  · rw [hi, h.weight_new h1 hne hx hy hW, h.nodeIn_new h1 hx hy]
    simp only [toNat_ofNat_index (show x < 512 by omega), toNat_ofNat_index (show y < 512 by omega)]
    rw [old x2.ne, old y2.ne]
  · obtain ⟨-, -, c3, -, c5, -, -⟩ := h.children i i1 (by omega)
    rw [old hi]
    simp only
    rw [old (show (nodeIn t i).left.toNat ≠ num by omega), old (show (nodeIn t i).right.toNat ≠ num by omega)]
    exact h.weights i i1 (by omega)

include hne in
/-- One iteration of the merge loop, whichever two roots it takes. -/
theorem Merging.createNode_succ (hk : k < num) (hW : weightSum t0 k < 2 ^ 32) :
    Merging t0 (createNode t num x y) k (num + 1) := by
  obtain ⟨x1, x2, -⟩ := mem_unmerged.1 hx
  obtain ⟨y1, y2, -⟩ := mem_unmerged.1 hy
  have old {i : Nat} (hi : i ≠ num) := h.nodeIn_old h1 hx hy hi
  have roots := unmerged_createNode h.wf (by omega) h1 ⟨x1, x2⟩ ⟨y1, y2⟩
  have rest : num ∉ ((unmerged t num).erase x).erase y := fun c =>
    (mem_unmerged.1 (Finset.mem_of_mem_erase (Finset.mem_of_mem_erase c))).2.1.ne rfl
  refine ⟨setParent_wf (setParent_wf (putNode_wf h.wf _ _) _ _) _ _, fun i hi => ?_, fun i i1 i2 => ?_,
    fun i i1 i2 => h.children_createNode h1 hne hx hy i1 i2,
    fun i i1 i2 hp => h.parents_createNode h1 hx hy hk i2 i1 hp,
    fun i i1 i2 => h.weights_createNode h1 hne hx hy hW i1 i2, ?_, ?_⟩
  · rw [old (by omega), h.above i (by omega), if_neg (by omega)]
  · rw [old (by omega), h.leaves i i1 i2]
  · have := h.card
    have := Finset.card_erase_add_one hx
    have := Finset.card_erase_add_one (Finset.mem_erase.2 ⟨hne.symm, hy⟩)
    rw [roots, Finset.card_insert_of_notMem rest]
    omega
  · have same : ∀ i ∈ ((unmerged t num).erase x).erase y,
        (nodeIn (createNode t num x y) i).weight.toNat = (nodeIn t i).weight.toNat :=
      fun i hi => by rw [old (ne_of_mem_of_not_mem hi rest)]
    rw [roots, Finset.sum_insert rest, Finset.sum_congr rfl same, h.weight_new h1 hne hx hy hW, Nat.add_assoc]
    exact h.sum_split hne hx hy

end MergeStep

/-- The merge loop, after `m` of its K - 1 iterations. -/
theorem Leaves.merging_foldl {t : Table Node} {k : Nat} (h : Leaves t k) (hk : k ≤ 256) (hW : weightSum t k < 2 ^ 32) :
    ∀ m ≤ k - 1, Merging t ((List.range' (k + 1) m).foldl mergeStep t) k (k + 1 + m) := by
  intro m
  induction m with
  | zero => exact fun _ => h.merging
  | succ m ih =>
    intro hm
    have hp := ih (by omega)
    rw [List.range'_1_concat, List.foldl_append]
    obtain ⟨hne, hx, hy⟩ := selectTwo_mem (t := (List.range' (k + 1) m).foldl mergeStep t) (num := k + 1 + m)
      (by have := hp.card; omega)
    exact hp.createNode_succ (by omega) hne hx hy (by omega) hW

end Sys2Proof.Safety
end

section
/-! PROOFS. What BUILD leaves (R43, R140, R147, R150). -/

namespace Sys2Proof.Safety

open Sys2Proof Sys2Proof.Machine

/-! ## The end of the merge loop -/

section Merged

variable {t0 t : Table Node} {k : Nat}

/-- After the last merge node 2K - 1 has no parent: a parent would be above it. -/
theorem Merging.root_parent (h : Merging t0 t k (2 * k)) (hk : 1 ≤ k) : (nodeIn t (rootIndex k)).parent = 0#9 := by
  by_contra hp
  obtain ⟨-, h1, h2, -⟩ := h.parents (rootIndex k) (by unfold rootIndex; omega) (by unfold rootIndex; omega) hp
  unfold rootIndex at h1 h2
  omega

/-- After the last merge node 2K - 1 is the only root. -/
theorem Merging.unmerged_eq (h : Merging t0 t k (2 * k)) (hk : 1 ≤ k) : unmerged t (2 * k) = {rootIndex k} := by
  have hmem : rootIndex k ∈ unmerged t (2 * k) :=
    mem_unmerged.2 ⟨by unfold rootIndex; omega, by unfold rootIndex; omega, h.root_parent hk⟩
  obtain ⟨i, hi⟩ := Finset.card_eq_one.1 (show (unmerged t (2 * k)).card = 1 by have := h.card; omega)
  rw [hi] at hmem ⊢
  rw [Finset.mem_singleton.1 hmem]

theorem Merging.root_weight (h : Merging t0 t k (2 * k)) (hk : 1 ≤ k) :
    (nodeIn t (rootIndex k)).weight.toNat = weightSum t0 k := by
  rw [← h.sum, h.unmerged_eq hk, Finset.sum_singleton]

/-- After the last merge every node but the root has a parent. -/
theorem Merging.parent_ne_zero (h : Merging t0 t k (2 * k)) (hk : 1 ≤ k) {i : Nat} (h1 : 1 ≤ i) (h2 : i < rootIndex k) :
    (nodeIn t i).parent ≠ 0#9 := by
  intro hp
  have : i ∈ unmerged t (2 * k) := mem_unmerged.2 ⟨h1, by unfold rootIndex at h2; omega, hp⟩
  rw [h.unmerged_eq hk, Finset.mem_singleton] at this
  omega

end Merged

/-! ## The tree -/

/-- For K of 2 or more the tree is the forest of the merge loop: the root's parent is 0 already (R147). -/
theorem Leaves.merging_buildTree {t : Table Node} {k : Nat} (h : Leaves t k) (h2 : 2 ≤ k) (hk : k ≤ 256)
    (hW : weightSum t k < 2 ^ 32) : Merging t (buildTree t k) k (2 * k) := by
  have hm := h.merging_foldl hk hW (k - 1) le_rfl
  rw [show k + 1 + (k - 1) = 2 * k by omega] at hm
  rw [buildTree, if_neg (by omega), mergeAll, setParent_self hm.wf (hm.root_parent (by omega))]
  exact hm

/-- For K = 1 the tree is one node, its own child to the left and to the right (R142). -/
theorem nodeIn_buildTree_one {t : Table Node} (h : Table.wf Node.zero 1 512 t = true) (i : Nat) :
    nodeIn (buildTree t 1) i = if i = 1 then { nodeIn t 1 with left := 1#9, right := 1#9 } else nodeIn t i := by
  rw [buildTree, if_pos rfl, selfLoop, nodeIn_putNode h]
  simp

/-- BUILD keeps the byte value and the weight of every leaf (R41). -/
theorem Leaves.buildTree_leaf {t : Table Node} {k : Nat} (h : Leaves t k) (hk : k ≤ 256) (hW : weightSum t k < 2 ^ 32)
    {i : Nat} (h1 : 1 ≤ i) (h2 : i ≤ k) :
    (nodeIn (buildTree t k) i).sym = (nodeIn t i).sym ∧ (nodeIn (buildTree t k) i).weight = (nodeIn t i).weight := by
  by_cases hk1 : k = 1
  · subst hk1
    rw [nodeIn_buildTree_one h.wf, if_pos (by omega), show i = 1 by omega]
    exact ⟨rfl, rfl⟩
  · rw [(h.merging_buildTree (by omega) hk hW).leaves i h1 h2]
    exact ⟨rfl, rfl⟩

/-- Leaves with the same byte values and weights make the same Symbol list. -/
theorem SymbolList.congr {t u : Table Node} {k : Nat} (h : SymbolList t k)
    (hu : ∀ i, 1 ≤ i → i ≤ k → (nodeIn u i).sym = (nodeIn t i).sym ∧ (nodeIn u i).weight = (nodeIn t i).weight) :
    SymbolList u k where
  ascending i j h1 h2 h3 := by
    rw [(hu i h1 (by omega)).1, (hu j (by omega) h3).1]
    exact h.ascending i j h1 h2 h3
  positive i h1 h2 := by
    rw [(hu i h1 h2).2]
    exact h.positive i h1 h2

/-- The seeded leaves of a state (R125, R227). -/
theorem Symbols.leaves {s : State} (hw : s.tablesWf = true) (hs : Symbols s) (hl : LeavesOnly s) : Leaves s.node s.k.toNat :=
  ⟨((tablesWf_iff s).1 hw).2.1, hs.list, hl.leaves, hl.above⟩

section Build

variable {s t : State} (hw : s.tablesWf = true) (hs : Symbols s) (hl : LeavesOnly s)
  (hn : t.node = buildTree s.node s.k.toNat) (hk : t.k = s.k) (ht : t.total = s.total)

include hw hs hl hn hk ht

/-- BUILD keeps the Symbol list. -/
theorem buildTree_symbols (hc : t.cfg = s.cfg) : Symbols t := by
  have leaf := fun i => (hs.leaves hw hl).buildTree_leaf hs.kMax (hs.total ▸ s.total.isLt) (i := i)
  refine ⟨hk ▸ hs.kPos, hk ▸ hs.kMax, ?_, ?_, by rw [ht, hc]; exact hs.totalMax⟩
  · rw [hn, hk]
    exact hs.list.congr leaf
  · rw [hn, hk, ht, hs.total]
    exact weightSum_congr fun i h1 h2 => (leaf i h1 h2).2.symm

/-- BUILD grows the well-formed tree of R43 from seeded leaves (R150). -/
theorem buildTree_treeBuilt (hnn : t.nn = BitVec.ofNat 10 (rootIndex s.k.toNat)) : TreeBuilt t := by
  have k1 := hs.kPos
  have k256 := hs.kMax
  have L := hs.leaves hw hl
  have hN : ∀ i, t.nodeAt i = nodeIn (buildTree s.node s.k.toNat) i := fun i => by rw [State.nodeAt, hn]
  have hroot : rootIndex s.k.toNat = 2 * s.k.toNat - 1 := rfl
  have hnn' : t.nn.toNat = rootIndex s.k.toNat := by
    rw [hnn, BitVec.toNat_ofNat, Nat.mod_eq_of_lt (by omega)]
  have M : 2 ≤ s.k.toNat → Merging s.node (buildTree s.node s.k.toNat) s.k.toNat (2 * s.k.toNat) :=
    fun h2 => L.merging_buildTree h2 k256 (hs.total ▸ s.total.isLt)
  constructor
  case nn => rw [hk, hnn']
  case children =>
    rw [hk]; simp only [hN]
    exact fun h2 i h3 h4 => (M h2).children i h3 (by omega)
  case parents =>
    rw [hk]; simp only [hN]
    intro h2 i h3 h4
    obtain ⟨p1, p2, p3, p4⟩ := (M h2).parents i h3 (by omega) ((M h2).parent_ne_zero k1 h3 h4)
    refine ⟨p1, p2, by omega, fun p h5 h6 => ⟨fun hp => ?_, fun hp => by rw [hp]; exact p4⟩⟩
    obtain ⟨-, -, -, -, -, c1, c2⟩ := (M h2).children p h5 (by omega)
    rcases hp with e | e
    · rw [← c1, e]
    · rw [← c2, e]
  case root =>
    rw [hk, hN]
    exact fun h2 => (M h2).root_parent k1
  case weights =>
    rw [hk]; simp only [hN]
    exact fun h2 i h3 h4 => (M h2).weights i h3 (by omega)
  case rootSum =>
    rw [hk, hN, ht]
    exact fun h2 => BitVec.eq_of_toNat_eq (((M h2).root_weight k1).trans hs.total.symm)
  case leaves =>
    rw [hk]; simp only [hN]
    intro h2 i h3 h4
    rw [(M h2).leaves i h3 h4, L.leaves i h3 h4]
    exact ⟨rfl, rfl⟩
  case single =>
    rw [hk]; simp only [hN]
    intro h1
    rw [h1, nodeIn_buildTree_one L.wf, if_pos rfl, L.leaves 1 le_rfl k1]
    exact ⟨rfl, rfl, rfl⟩
  case above =>
    rw [hnn']
    intro i hi
    rw [hN]
    by_cases h1 : s.k.toNat = 1
    · rw [h1, nodeIn_buildTree_one L.wf, if_neg (by omega), L.above i (by omega)]
    · exact (M (by omega)).above i (by omega)

end Build

end Sys2Proof.Safety
end

section
/-! PROOFS. GENCODE (R160 to R167): every leaf's walk ends, its code leads back to the leaf, and so no code begins another. -/

namespace Sys2Proof.Safety

open Sys2Proof Sys2Proof.Machine

/-! ## Walks down the tree -/

theorem descend_append (t : Table Node) (i : Index) (p q : List Bit) :
    descend t i (p ++ q) = descend t (descend t i p) q := List.foldl_append

/-- NODE[0] leads nowhere (R40). -/
theorem descend_zero (t : Table Node) (bits : List Bit) : descend t 0#9 bits = 0#9 := by
  induction bits with
  | nil => rfl
  | cons b bs ih => rw [descend_cons]; cases b <;> exact ih

/-- The bit of a move to the parent leads back (R162). -/
theorem childOf_branchBit {t : Table Node} {p cur : Index}
    (h : (nodeIn t p.toNat).left = cur ∨ (nodeIn t p.toNat).right = cur) :
    childOf (nodeIn t p.toNat) (branchBit t p cur) = cur := by
  unfold branchBit
  split
  · next hl => exact hl
  · next hl => exact h.resolve_left hl

/-! ## Walks up a well-formed tree -/

section Tree

variable {s : State} (hk : s.k.toNat ≤ 256) (hb : TreeBuilt s) (h2 : 2 ≤ s.k.toNat)

include hk

theorem rootPtr_toNat : (rootPtr s).toNat = rootIndex s.k.toNat :=
  toNat_ofNat_index (show 2 * s.k.toNat - 1 < 512 by omega)

include hb h2

/-- The walk from a node of the tree to the root ends; its bits lead from the root to that node, and they are not more than
the nodes above K that stand above it. -/
theorem walkUp_spec : ∀ (fuel : Nat) (cur : Index), 1 ≤ cur.toNat → cur.toNat ≤ rootIndex s.k.toNat →
    rootIndex s.k.toNat - cur.toNat < fuel →
    ∃ path, (∀ acc, walkUp s.node fuel cur acc = some (path ++ acc)) ∧ descend s.node (rootPtr s) path = cur ∧
      path.length ≤ rootIndex s.k.toNat - max cur.toNat s.k.toNat := by
  intro fuel
  induction fuel with
  | zero => exact fun cur _ _ h => absurd h (Nat.not_lt_zero _)
  | succ fuel ih =>
    intro cur h1 hr hf
    by_cases hroot : cur.toNat = rootIndex s.k.toNat
    · have hp : (nodeIn s.node cur.toNat).parent = 0#9 := by rw [hroot]; exact hb.root h2
      refine ⟨[], fun acc => by simp [walkUp, hp], ?_, Nat.zero_le _⟩
      exact BitVec.eq_of_toNat_eq ((rootPtr_toNat hk).trans hroot.symm)
    · obtain ⟨p1, p2, p3, p4⟩ := hb.parents h2 cur.toNat h1 (by omega)
      have up := (p4 _ p1 p3).2 rfl
      have hp : (nodeIn s.node cur.toNat).parent ≠ 0#9 := fun e => by
        rw [State.nodeAt, e] at p2
        exact absurd p2 (Nat.not_lt_zero _)
      obtain ⟨path, w1, w2, w3⟩ := ih (s.nodeAt cur.toNat).parent (by omega) p3 (by omega)
      refine ⟨path ++ [branchBit s.node (s.nodeAt cur.toNat).parent cur], fun acc => ?_, ?_, ?_⟩
      · rw [List.append_assoc, walkUp, if_neg hp]
        exact w1 _
      · rw [descend_append, w2]
        exact childOf_branchBit (up.imp BitVec.eq_of_toNat_eq BitVec.eq_of_toNat_eq)
      · rw [List.length_append, List.length_singleton]
        omega

/-- The code of a leaf: it leads from the root to the leaf (R160), and has 1 to K - 1 bits (R165). -/
theorem codeOfLeaf_spec {i : Nat} (i1 : 1 ≤ i) (i2 : i ≤ s.k.toNat) :
    ∃ c, codeOfLeaf s.node i = some c ∧ descend s.node (rootPtr s) c = BitVec.ofNat 9 i ∧
      1 ≤ c.length ∧ c.length ≤ s.k.toNat - 1 := by
  have hi : (BitVec.ofNat 9 i).toNat = i := toNat_ofNat_index (by omega)
  have hroot : rootIndex s.k.toNat = 2 * s.k.toNat - 1 := rfl
  obtain ⟨c, w1, w2, w3⟩ := walkUp_spec hk hb h2 512 (BitVec.ofNat 9 i) (by omega) (by omega) (by omega)
  refine ⟨c, by rw [codeOfLeaf, w1, List.append_nil], w2, ?_, by omega⟩
  rw [Nat.one_le_iff_ne_zero, Ne, List.length_eq_zero_iff]
  intro e
  have hr := rootPtr_toNat hk
  rw [e] at w2
  change rootPtr s = BitVec.ofNat 9 i at w2
  rw [w2] at hr
  omega

/-- From a leaf every walk leads to NODE[0]. -/
theorem descend_leaf {i : Nat} (i1 : 1 ≤ i) (i2 : i ≤ s.k.toNat) {bits : List Bit} (hne : bits ≠ []) :
    descend s.node (BitVec.ofNat 9 i) bits = 0#9 := by
  obtain ⟨b, bs, rfl⟩ := List.exists_cons_of_ne_nil hne
  have hi : (BitVec.ofNat 9 i).toNat = i := toNat_ofNat_index (by omega)
  obtain ⟨hl, hr⟩ := hb.leaves h2 i i1 i2
  have hc : childOf (nodeIn s.node i) b = 0#9 := by cases b <;> [exact hl; exact hr]
  rw [descend_cons, hi, hc, descend_zero]

/-- The code of no leaf begins the code of another (R167): a walk that has met a leaf meets no other node but NODE[0]. -/
theorem codeOfLeaf_noExtension {i j : Nat} (i1 : 1 ≤ i) (i2 : i ≤ s.k.toNat) (j1 : 1 ≤ j) (j2 : j ≤ s.k.toNat) (hij : i ≠ j)
    {c d : List Bit} (hc : codeOfLeaf s.node i = some c) (hd : codeOfLeaf s.node j = some d) : ¬ c <+: d := by
  rintro ⟨rest, rfl⟩
  obtain ⟨c', hc', dc, -⟩ := codeOfLeaf_spec hk hb h2 i1 i2
  obtain ⟨d', hd', dd, -⟩ := codeOfLeaf_spec hk hb h2 j1 j2
  rw [hc, Option.some_inj] at hc'
  rw [hd, Option.some_inj] at hd'
  subst hc' hd'
  have hi : (BitVec.ofNat 9 i).toNat = i := toNat_ofNat_index (by omega)
  have hj : (BitVec.ofNat 9 j).toNat = j := toNat_ofNat_index (by omega)
  rw [descend_append, dc] at dd
  by_cases hr : rest = []
  · rw [hr] at dd
    change BitVec.ofNat 9 i = BitVec.ofNat 9 j at dd
    rw [dd, hj] at hi
    exact hij hi.symm
  · rw [descend_leaf hk hb h2 i1 i2 hr] at dd
    rw [← dd] at hj
    change 0 = j at hj
    omega

end Tree

/-! ## The code table -/

/-- Entering the codes of leaves with different byte values: each entry is its leaf's walk, and no other entry is written
(R161, R164, R166). -/
theorem enterCodes_spec {t : Table Node} : ∀ (is : List Nat) {ct : Table Code},
    Table.wf Code.absent 0 256 ct = true → (∀ i ∈ is, ∃ c, codeOfLeaf t i = some c) →
    is.Pairwise (fun i j => (nodeIn t i).sym ≠ (nodeIn t j).sym) →
    ∃ ct', enterCodes t is ct = some ct' ∧ Table.wf Code.absent 0 256 ct' = true ∧
      (∀ i ∈ is, ∀ c, codeOfLeaf t i = some c →
        Table.read Code.absent ct' (nodeIn t i).sym.toNat = ⟨BitVec.ofNat 8 c.length, c⟩) ∧
      (∀ b : Byte, (∀ i ∈ is, (nodeIn t i).sym ≠ b) →
        Table.read Code.absent ct' b.toNat = Table.read Code.absent ct b.toNat) := by
  intro is
  induction is with
  | nil => exact fun hw _ _ => ⟨_, rfl, hw, nofun, fun _ _ => rfl⟩
  | cons i is ih =>
    intro ct hw hc hd
    obtain ⟨c, hci⟩ := hc i List.mem_cons_self
    obtain ⟨hdi, hd⟩ := List.pairwise_cons.1 hd
    obtain ⟨ct', e1, e2, e3, e4⟩ :=
      ih (putCode_wf hw (nodeIn t i).sym c) (fun j hj => hc j (List.mem_cons_of_mem _ hj)) hd
    refine ⟨ct', by rw [enterCodes, hci]; exact e1, e2, fun j hj d hdj => ?_, fun b hb => ?_⟩
    · rcases List.mem_cons.1 hj with rfl | hj
      · rw [hci, Option.some_inj] at hdj
        rw [e4 _ fun n hn => (hdi n hn).symm, read_putCode hw, if_pos rfl, hdj]
      · exact e3 j hj d hdj
    · rw [e4 b fun j hj => hb j (List.mem_cons_of_mem _ hj), read_putCode hw,
        if_neg (hb i List.mem_cons_self).symm]

theorem mem_leafIndices {i k : Nat} : i ∈ leafIndices k ↔ 1 ≤ i ∧ i ≤ k := by
  rw [leafIndices, List.mem_range'_1]
  omega

/-- The leaves of a Symbol list have different byte values. -/
theorem SymbolList.pairwise_sym_ne {t : Table Node} {k : Nat} (h : SymbolList t k) :
    (leafIndices k).Pairwise fun i j => (nodeIn t i).sym ≠ (nodeIn t j).sym := by
  refine List.Pairwise.imp_of_mem (fun {i j} hi hj hij e => ?_) List.pairwise_lt_range'
  have := h.ascending i j (mem_leafIndices.1 hi).1 hij (mem_leafIndices.1 hj).2
  exact this.ne (congrArg BitVec.toNat e)

section Codes

variable {s t : State} {ct : Table Code} (hs : Symbols s) (hb : TreeBuilt s) (h0 : s.code = [])
  (hg : genCodes s = some ct) (hn : t.node = s.node) (hk : t.k = s.k) (hc : t.code = ct)

include hs hb h0 hg

/-- GENCODE keeps the code table canonical. -/
theorem genCodes_wf : Table.wf Code.absent 0 256 ct = true := by
  unfold genCodes at hg
  rw [h0] at hg
  split at hg
  · cases hg; exact putCode_wf rfl _ _
  · have k1 := hs.kPos
    obtain ⟨ct', e, hw, -⟩ := enterCodes_spec (t := s.node) (leafIndices s.k.toNat) (ct := []) rfl
      (fun i hi => by
        obtain ⟨i1, i2⟩ := mem_leafIndices.1 hi
        obtain ⟨c, h, -⟩ := codeOfLeaf_spec hs.kMax hb (by omega) i1 i2
        exact ⟨c, h⟩) hs.list.pairwise_sym_ne
    rw [hg, Option.some_inj] at e
    rw [e]; exact hw

include hn hk hc

omit hs hb in
/-- K = 1: the code of the only symbol is the single bit 1 (R163). -/
theorem genCodes_codesFilled_one (h1 : s.k.toNat = 1) : CodesFilled t := by
  have hN : ∀ i, t.nodeAt i = s.nodeAt i := fun i => by rw [State.nodeAt, hn, State.nodeAt]
  have entry : ∀ b, t.codeAt b = if b = (s.nodeAt 1).sym then ⟨1#8, [true]⟩ else Code.absent := by
    intro b
    rw [genCodes, if_pos h1, h0, Option.some_inj] at hg
    rw [State.codeAt, hc, ← hg, read_putCode rfl]
    rfl
  have only : ∀ i, 1 ≤ i → i ≤ t.k.toNat → i = 1 := fun i i1 i2 => by rw [hk, h1] at i2; omega
  constructor
  case exact =>
    intro b
    rw [entry]
    split <;> rfl
  case leaves =>
    intro i i1 i2
    rw [only i i1 i2, hN, entry, if_pos rfl]
    exact Nat.le_refl 1
  case walks => rw [hk, h1]; exact fun h => absurd h (by decide)
  case others =>
    intro b hb
    have := hb 1 le_rfl (by rw [hk, h1])
    rw [hN] at this
    rw [entry, if_neg this.symm]
  case noExtension => rw [hk, h1]; exact fun h => absurd h (by decide)
  case single =>
    intro _
    rw [hN, entry, if_pos rfl]

/-- K of 2 or more: every leaf's walk stands in the entry of its byte value (R161 to R167). -/
theorem genCodes_codesFilled_many (h2 : 2 ≤ s.k.toNat) : CodesFilled t := by
  have hN : ∀ i, t.nodeAt i = nodeIn s.node i := fun i => by rw [State.nodeAt, hn]
  have walk := fun i => codeOfLeaf_spec hs.kMax hb h2 (i := i)
  obtain ⟨ct', e, -, entry, other⟩ := enterCodes_spec (t := s.node) (leafIndices s.k.toNat) (ct := []) rfl
    (fun i hi => by
      obtain ⟨c, h, -⟩ := walk i (mem_leafIndices.1 hi).1 (mem_leafIndices.1 hi).2
      exact ⟨c, h⟩) hs.list.pairwise_sym_ne
  rw [genCodes, if_neg (by omega), h0, e, Option.some_inj] at hg
  have hC : ∀ b, t.codeAt b = Table.read Code.absent ct' b.toNat := fun b => by rw [State.codeAt, hc, hg]
  have leaf : ∀ i, 1 ≤ i → i ≤ s.k.toNat → ∃ c, codeOfLeaf s.node i = some c ∧ 1 ≤ c.length ∧ c.length ≤ 255 ∧
      t.codeAt (nodeIn s.node i).sym = ⟨BitVec.ofNat 8 c.length, c⟩ := fun i i1 i2 => by
    obtain ⟨c, h, -, l1, l2⟩ := walk i i1 i2
    have := hs.kMax
    exact ⟨c, h, l1, by omega, by rw [hC]; exact entry i (mem_leafIndices.2 ⟨i1, i2⟩) c h⟩
  have absent : ∀ b, (∀ i, 1 ≤ i → i ≤ s.k.toNat → (nodeIn s.node i).sym ≠ b) → t.codeAt b = Code.absent := fun b hb => by
    rw [hC]
    exact other b fun i hi => hb i (mem_leafIndices.1 hi).1 (mem_leafIndices.1 hi).2
  have len : ∀ n, n ≤ 255 → (BitVec.ofNat 8 n).toNat = n := fun n hn => by
    rw [BitVec.toNat_ofNat, Nat.mod_eq_of_lt (by omega)]
  constructor
  case exact =>
    intro b
    by_cases hb : ∀ i, 1 ≤ i → i ≤ s.k.toNat → (nodeIn s.node i).sym ≠ b
    · rw [absent b hb]; rfl
    · push Not at hb
      obtain ⟨i, i1, i2, rfl⟩ := hb
      obtain ⟨c, -, -, l2, h⟩ := leaf i i1 i2
      rw [h, len _ l2]
  case leaves =>
    rw [hk]; simp only [hN]
    intro i i1 i2
    obtain ⟨c, -, l1, l2, h⟩ := leaf i i1 i2
    rwa [h, len _ l2]
  case walks =>
    rw [hk, hn]; simp only [hN]
    intro _ i i1 i2
    obtain ⟨c, hci, -, -, h⟩ := leaf i i1 i2
    rw [hci, h]
  case others => rw [hk]; simp only [hN]; exact absent
  case noExtension =>
    rw [hk]; simp only [hN]
    intro _ i j i1 i2 j1 j2 hij
    obtain ⟨c, hci, -, -, h⟩ := leaf i i1 i2
    obtain ⟨d, hdj, -, -, h'⟩ := leaf j j1 j2
    rw [h, h']
    exact codeOfLeaf_noExtension hs.kMax hb h2 i1 i2 j1 j2 hij hci hdj
  case single => rw [hk]; exact fun h => by omega

/-- GENCODE fills the code table as R44 asks (R161). -/
theorem genCodes_codesFilled : CodesFilled t := by
  by_cases h1 : s.k.toNat = 1
  · exact genCodes_codesFilled_one h0 hg hn hk hc h1
  · have := hs.kPos
    exact genCodes_codesFilled_many hs hb h0 hg hn hk hc (by omega)

end Codes

end Sys2Proof.Safety
end

section
/-! PROOFS. What PHASE and CUR say of the rest of the state depends on few fields, which most steps leave alone (R48, R51). -/

namespace Sys2Proof.Safety

open Sys2Proof Sys2Proof.Machine

/-! ## What CUR says, case by case -/

section Operation

variable {s : State}

theorem operation_none (hc : s.cur = .none) :
    operation s ↔ tablesIn s.phase s ∧ (s.phase ≠ .halted → HiddenCleared s) := by rw [operation, hc]

theorem operation_drain (hc : s.cur = .drain) :
    operation s ↔ s.phase ≠ .halted ∧ tablesIn s.phase s ∧ HiddenCleared s := by rw [operation, hc]

theorem operation_scan (hc : s.cur = .scan) : operation s ↔ s.phase = .idle ∧ Scanning s := by rw [operation, hc]

theorem operation_rdhdr (hc : s.cur = .rdhdr) : operation s ↔ s.phase = .idle ∧ Parsing s := by rw [operation, hc]

theorem operation_encode (hc : s.cur = .encode) : operation s ↔
    s.phase = .hdrWritten ∧ tablesIn .hdrWritten s ∧ s.acc.length ≤ 7 ∧ HiddenCleared { s with acc := [] } := by
  rw [operation, hc]

theorem operation_decode (hc : s.cur = .decode) :
    operation s ↔ s.phase = .builtD ∧ tablesIn .builtD s ∧ Unpacking s := by rw [operation, hc]

end Operation

/-! ## The cleared state (R50) -/

theorem cleared_iff (s : State) : Cleared s ↔
    s.freq = [] ∧ s.node = [] ∧ s.code = [] ∧ s.k = 0#9 ∧ s.nn = 0#10 ∧ s.total = 0#32 ∧ HiddenCleared s := by
  constructor
  · intro h
    rw [← h]
    exact ⟨rfl, rfl, rfl, rfl, rfl, rfl, rfl, rfl, rfl, rfl, rfl, rfl, rfl⟩
  · rintro ⟨h1, h2, h3, h4, h5, h6, h7, h8, h9, h10, h11, h12, h13⟩
    cases s
    simp only at h1 h2 h3 h4 h5 h6 h7 h8 h9 h10 h11 h12 h13
    subst h1 h2 h3 h4 h5 h6 h7 h8 h9 h10 h11 h12 h13
    rfl

/-- With the cleared tables, in IDLE, nothing is in progress, or a frame is drained. -/
theorem operation_of_cleared {s : State} (h : Cleared s) (hp : s.phase = .idle) (hc : s.cur = .none ∨ s.cur = .drain) :
    s.tablesWf = true ∧ operation s := by
  obtain ⟨hf, hn, hcd, -, -, -, hh⟩ := (cleared_iff s).1 h
  refine ⟨by rw [State.tablesWf, hf, hn, hcd]; rfl, ?_⟩
  obtain hc | hc := hc
  · exact (operation_none hc).2 ⟨by rw [hp]; exact h, fun _ => hh⟩
  · exact (operation_drain hc).2 ⟨by rw [hp]; nofun, by rw [hp]; exact h, hh⟩

/-- After a fault inside a stream command (R273). -/
theorem raiseFault_operation (e : Err) (dr : Bool) (s : State) :
    (raiseFault e dr s).tablesWf = true ∧ operation (raiseFault e dr s) :=
  operation_of_cleared rfl rfl (by cases dr <;> simp)

/-! ## The fields the tables' notions depend on -/

/-- `t` has MAX_LEN, K, NN, TOTAL and the tables of `s`. -/
structure SameTables (s t : State) : Prop where
  maxLen : t.cfg.maxLen = s.cfg.maxLen
  k      : t.k = s.k
  nn     : t.nn = s.nn
  total  : t.total = s.total
  freq   : t.freq = s.freq
  node   : t.node = s.node
  code   : t.code = s.code

section SameTables

variable {s t : State} (h : SameTables s t)

include h

theorem SameTables.nodeAt (i : Nat) : t.nodeAt i = s.nodeAt i := by rw [State.nodeAt, h.node, State.nodeAt]

theorem SameTables.codeAt (b : Byte) : t.codeAt b = s.codeAt b := by rw [State.codeAt, h.code, State.codeAt]

theorem SameTables.tablesWf (hs : s.tablesWf = true) : t.tablesWf = true := by
  rwa [State.tablesWf, h.freq, h.node, h.code]

theorem SameTables.symbols (hs : Symbols s) : Symbols t := by
  constructor <;> simp only [h.k, h.node, h.total, h.maxLen]
  exacts [hs.kPos, hs.kMax, hs.list, hs.total, hs.totalMax]

theorem SameTables.leavesOnly (hs : LeavesOnly s) : LeavesOnly t := by
  constructor <;> simp only [h.k, h.nn, h.nodeAt]
  exacts [hs.nn, hs.leaves, hs.above]

theorem SameTables.treeBuilt (hs : TreeBuilt s) : TreeBuilt t := by
  constructor <;> simp only [h.k, h.nn, h.total, h.nodeAt]
  exacts [hs.nn, hs.children, hs.parents, hs.root, hs.weights, hs.rootSum, hs.leaves, hs.single, hs.above]

theorem SameTables.codesFilled (hs : CodesFilled s) : CodesFilled t := by
  constructor <;> simp only [h.k, h.node, h.nodeAt, h.codeAt]
  exacts [hs.exact, hs.leaves, hs.walks, hs.others, hs.noExtension, hs.single]

/-- What the tables hold in a phase is kept with the tables; in IDLE the hidden state belongs to it (R51). -/
theorem SameTables.tablesIn {p : Phase} (hh : p = .idle → HiddenCleared t) (hs : tablesIn p s) : tablesIn p t := by
  cases p with
  | idle =>
    obtain ⟨h1, h2, h3, h4, h5, h6, -⟩ := (cleared_iff s).1 hs
    exact (cleared_iff t).2 ⟨h.freq ▸ h1, h.node ▸ h2, h.code ▸ h3, h.k ▸ h4, h.nn ▸ h5, h.total ▸ h6, hh rfl⟩
  | scanned =>
    obtain ⟨h1, h2, h3⟩ := hs
    exact ⟨h.symbols h1, h.leavesOnly h2, h.code ▸ h3⟩
  | hdrRead =>
    obtain ⟨h1, h2, h3, h4⟩ := hs
    exact ⟨h.symbols h1, h.leavesOnly h2, h.code ▸ h3, h.freq ▸ h4⟩
  | builtC =>
    obtain ⟨h1, h2, h3⟩ := hs
    exact ⟨h.symbols h1, h.treeBuilt h2, h.code ▸ h3⟩
  | builtD =>
    obtain ⟨h1, h2, h3, h4⟩ := hs
    exact ⟨h.symbols h1, h.treeBuilt h2, h.code ▸ h3, h.freq ▸ h4⟩
  | coded | hdrWritten =>
    obtain ⟨h1, h2, h3⟩ := hs
    exact ⟨h.symbols h1, h.treeBuilt h2, h.codesFilled h3⟩
  | halted => trivial

theorem SameTables.scanning (hh : HiddenCleared t) (hs : Scanning s) : Scanning t where
  cleared := by
    obtain ⟨-, h2, h3, h4, h5, -, -⟩ := (cleared_iff { s with freq := [], total := 0#32 }).1 hs.cleared
    exact (cleared_iff { t with freq := [], total := 0#32 }).2
      ⟨rfl, h.node.trans h2, h.code.trans h3, h.k.trans h4, h.nn.trans h5, rfl, hh⟩
  counts := by
    simp only [h.total, freqSum, State.freqAt, h.freq]
    exact hs.counts
  totalMax := by rw [h.total, h.maxLen]; exact hs.totalMax

end SameTables

theorem Scanning.hidden {s : State} (h : Scanning s) : HiddenCleared s := by
  obtain ⟨-, -, -, -, -, -, hh⟩ := (cleared_iff _).1 h.cleared
  exact hh

/-- Neither the ports nor the fault record matter for what PHASE and CUR say. -/
theorem operation_ports {s : State} (h : operation s) (host : HostSide) (q o : List Beat) (p : Nat) (d : Option Nat)
    (e : Err) (f : BitVec 8) : operation { s.withPorts host q o p d with err := e, faults := f } := by
  have same : SameTables s { s.withPorts host q o p d with err := e, faults := f } := ⟨rfl, rfl, rfl, rfl, rfl, rfl, rfl⟩
  cases hc : s.cur with
  | none =>
    obtain ⟨ht, hh⟩ := (operation_none hc).1 h
    exact (operation_none (by exact hc)).2 ⟨same.tablesIn (fun hi : s.phase = .idle => hh (by rw [hi]; nofun)) ht, hh⟩
  | drain =>
    obtain ⟨hp, ht, hh⟩ := (operation_drain hc).1 h
    exact (operation_drain (by exact hc)).2 ⟨hp, same.tablesIn (fun _ => hh) ht, hh⟩
  | scan =>
    obtain ⟨hp, hs⟩ := (operation_scan hc).1 h
    exact (operation_scan (by exact hc)).2 ⟨hp, same.scanning hs.hidden hs⟩
  | rdhdr =>
    obtain ⟨hp, hs⟩ := (operation_rdhdr hc).1 h
    exact (operation_rdhdr (by exact hc)).2 ⟨hp, hs.rest, hs.total, hs.totalMax, hs.count, hs.records⟩
  | encode =>
    obtain ⟨hp, ht, ha, hh⟩ := (operation_encode hc).1 h
    exact (operation_encode (by exact hc)).2 ⟨hp, same.tablesIn nofun ht, ha, hh⟩
  | decode =>
    obtain ⟨hp, ht, hu⟩ := (operation_decode hc).1 h
    exact (operation_decode (by exact hc)).2
      ⟨hp, same.tablesIn nofun ht, hu.remainPos, hu.remainMax, hu.single, hu.inside, hu.rest⟩

end Sys2Proof.Safety
end

section
/-! PROOFS. Every beat of a stream command keeps the tables canonical and what PHASE and CUR say (R122, R177, R198, R224, R253). -/

namespace Sys2Proof.Safety

open Sys2Proof Sys2Proof.Machine

/-! ## SCAN -/

theorem Scanning.node_eq {s : State} (h : Scanning s) : s.node = [] := ((cleared_iff _).1 h.cleared).2.1

theorem Scanning.code_eq {s : State} (h : Scanning s) : s.code = [] := ((cleared_iff _).1 h.cleared).2.2.1

/-- A data beat within MAX_LEN is counted (R123). -/
theorem Scanning.count {s : State} (h : Scanning s) (hw : s.tablesWf = true) (hm : s.cfg.maxLen < 2 ^ 31)
    (ht : s.total.toNat ≠ s.cfg.maxLen) (d : Byte) :
    Scanning { s.setFreq d (s.freqAt d + 1) with total := s.total + 1 } := by
  have hle := h.totalMax
  have hd := freqAt_le_freqSum s d
  rw [← h.counts] at hd
  have htot : (s.total + 1).toNat = s.total.toNat + 1 := toNat_add_one (by omega)
  refine ⟨h.cleared, ?_, ?_⟩
  · change (s.total + 1).toNat = freqSum (s.setFreq d (s.freqAt d + 1))
    rw [freqSum_setFreq hw d (by omega), htot, h.counts]
  · change (s.total + 1).toNat ≤ s.cfg.maxLen
    omega

/-- At the EOS of a frame that is not empty the leaves stand in NODE (R125). -/
theorem Scanning.seeded_leaves {s v t : State} (h : Scanning s) (hv : SeededBelow s v 256) (hk : v.k ≠ 0#9)
    (ht : t = { s with
      k := v.k, node := v.node, nn := v.k.setWidth 10, phase := .scanned, cur := .none, err := .ok }) :
    Symbols t ∧ LeavesOnly t := by
  have hmax := hv.kMax
  have hpos : 1 ≤ v.k.toNat := by
    rw [Nat.one_le_iff_ne_zero]
    exact fun e => hk (BitVec.eq_of_toNat_eq e)
  subst ht
  refine Leaves.symbols hv.leaves hpos hmax ?_ h.totalMax ?_
  · exact (h.counts.trans (freqSum_eq s)).trans hv.sum.symm
  · exact (BitVec.toNat_setWidth _ _).trans (Nat.mod_eq_of_lt (by omega))

theorem scanBeat_operation {s : State} (hw : s.tablesWf = true) (hcfg : s.cfg.wf = true) (h : operation s)
    (hc : s.cur = .scan) (b : Beat) : (scanBeat s b).tablesWf = true ∧ operation (scanBeat s b) := by
  obtain ⟨hp, hs⟩ := (operation_scan hc).1 h
  obtain ⟨e, dr, -, e⟩ | ⟨ht, e⟩ | ⟨hk, e⟩ := scanBeat_cases s b <;> rw [e]
  · exact raiseFault_operation _ _ s
  · exact ⟨setFreq_tablesWf hw _ _, (operation_scan (by exact hc)).2 ⟨hp, hs.count hw (maxLen_lt hcfg) ht b.data⟩⟩
  · have hv := seeded_spec hs.node_eq
    generalize seeded s = v at hk hv ⊢
    obtain ⟨hy, hl⟩ := hs.seeded_leaves hv hk rfl
    obtain ⟨wf, -, wc⟩ := (tablesWf_iff s).1 hw
    exact ⟨(tablesWf_iff _).2 ⟨wf, hv.leaves.wf, wc⟩,
      (operation_none rfl).2 ⟨⟨hy, hl, hs.code_eq⟩, fun _ => hs.hidden⟩⟩

/-! ## RDHDR -/

theorem recordRefused_eq_false {sym : Byte} {f : Int} {s : State} (h : recordRefused sym f s = false) :
    1 ≤ f ∧ (s.hprev ≠ noRecordYet → s.hprev.toNat < sym.toNat) ∧ (s.total.toNat : Int) + f ≤ s.cfg.maxLen := by
  simp only [recordRefused, Bool.or_eq_false_iff, Bool.and_eq_false_imp, bne_iff_ne, decide_eq_false_iff_not] at h
  obtain ⟨⟨h1, h2⟩, h3⟩ := h
  exact ⟨by omega, fun hp => by have := h2 hp; omega, by omega⟩

/-- The leaves of the records accepted so far (R227). -/
theorem Parsing.leaves {s : State} (h : Parsing s) (hw : s.tablesWf = true) (h1 : s.hstage = 1#1) :
    Leaves s.node (s.hi.toNat - 1) := by
  obtain ⟨-, k1, -, -, hl, hleaf, hz, -⟩ := h.records h1
  exact ⟨((tablesWf_iff s).1 hw).2.1, hl, fun i i1 i2 => hleaf i i1 (by omega), fun i hi => hz i (by omega)⟩

/-- The leaves after one record more: TOTAL is still the sum of their weights (R226, R227). -/
theorem Parsing.record {s : State} (h : Parsing s) (hw : s.tablesWf = true) (hm : s.cfg.maxLen < 2 ^ 31)
    (h1 : s.hstage = 1#1) {sym : Byte} {f : Int} (hf : recordRefused sym f s = false) :
    Leaves (putNode s.node s.hi.toNat (leafNode sym (BitVec.ofInt 32 f))) s.hi.toNat ∧
    (s.total + BitVec.ofInt 32 f).toNat
      = weightSum (putNode s.node s.hi.toNat (leafNode sym (BitVec.ofInt 32 f))) s.hi.toNat ∧
    (s.total + BitVec.ofInt 32 f).toNat ≤ s.cfg.maxLen := by
  obtain ⟨f1, f2, f3⟩ := recordRefused_eq_false hf
  obtain ⟨kMax, hi1, hik, -, hl, -, -, hp1, hp2⟩ := h.records h1
  obtain ⟨n, hn⟩ : ∃ n, s.hi.toNat = n + 1 := ⟨s.hi.toNat - 1, by omega⟩
  have hw' : (BitVec.ofInt 32 f).toNat = f.toNat := by
    rw [BitVec.toNat_ofInt]
    omega
  have hsum : (s.total + BitVec.ofInt 32 f).toNat = s.total.toNat + f.toNat := by
    rw [BitVec.toNat_add, hw', Nat.mod_eq_of_lt (by omega)]
  have hL := h.leaves hw h1
  have htot := h.total
  rw [hn, Nat.add_sub_cancel] at hL hl hp2 htot
  have last : ∀ i, 1 ≤ i → i ≤ n → (nodeIn s.node i).sym.toNat < sym.toNat := by
    intro i i1 i2
    have hprev := hp2 (by omega)
    have hlast : (nodeIn s.node n).sym.toNat < sym.toNat := by
      change s.hprev.toNat = (nodeIn s.node n).sym.toNat at hprev
      rw [← hprev]
      refine f2 fun e => ?_
      have := (nodeIn s.node n).sym.isLt
      rw [← hprev, e] at this
      exact absurd this (by decide)
    rcases Nat.lt_or_eq_of_le i2 with i3 | rfl
    · exact (hl.ascending i n i1 i3 le_rfl).trans hlast
    · exact hlast
  obtain ⟨hL', hW⟩ := hL.snoc (by omega) last (w := BitVec.ofInt 32 f) (by omega)
  rw [hn, hsum, hW, ← htot, hw']
  exact ⟨hL', rfl, by omega⟩

theorem seedRecord_operation {s : State} (hw : s.tablesWf = true) (hcfg : s.cfg.wf = true) (hp : s.phase = .idle)
    (hc : s.cur = .rdhdr) (h : Parsing s) (h1 : s.hstage = 1#1) {sym : Byte} {f : Int}
    (hf : recordRefused sym f s = false) :
    (seedRecord sym (BitVec.ofInt 32 f) s).tablesWf = true ∧ operation (seedRecord sym (BitVec.ofInt 32 f) s) := by
  obtain ⟨hL, htot, hmax⟩ := h.record hw (maxLen_lt hcfg) h1 hf
  obtain ⟨hfreq, hcode, hnn, hrem, hptr, hacc⟩ := h.rest
  obtain ⟨kMax, hi1, hik, -⟩ := h.records h1
  obtain ⟨wf, -, wc⟩ := (tablesWf_iff s).1 hw
  unfold seedRecord
  simp only
  split
  · next hk =>
    rw [hk] at hL htot hi1 ⊢
    obtain ⟨hy, hl⟩ := Leaves.symbols (s := { s with
      node := putNode s.node s.k.toNat (leafNode sym (BitVec.ofInt 32 f)), total := s.total + BitVec.ofInt 32 f,
      hprev := 0#9, hbuf := [], nn := s.k.setWidth 10, hstage := 0#1, hi := 0#9,
      phase := .hdrRead, cur := .none, err := .ok }) hL hi1 kMax htot hmax
      (by rw [BitVec.toNat_setWidth, Nat.mod_eq_of_lt (by omega)])
    exact ⟨(tablesWf_iff _).2 ⟨wf, hL.wf, wc⟩,
      (operation_none rfl).2 ⟨⟨hy, hl, hcode, hfreq⟩, fun _ => ⟨hrem, hptr, hacc, rfl, rfl, rfl, rfl⟩⟩⟩
  · next hk =>
    have hne : s.hi.toNat ≠ s.k.toNat := fun e => hk (BitVec.eq_of_toNat_eq e)
    have hi' : (s.hi + 1).toNat = s.hi.toNat + 1 := toNat_add_one (by omega)
    refine ⟨(tablesWf_iff _).2 ⟨wf, hL.wf, wc⟩, (operation_rdhdr (by exact hc)).2 ⟨hp, ?_⟩⟩
    refine ⟨⟨hfreq, hcode, hnn, hrem, hptr, hacc⟩, ?_, hmax, fun h0 => ?_, fun _ => ?_⟩
    · simp only [hi', Nat.add_sub_cancel]
      exact htot
    · rw [h1] at h0
      exact absurd h0 (by decide)
    · simp only [hi', Nat.add_sub_cancel]
      refine ⟨kMax, by omega, by omega, by decide, hL.list, fun i i1 i2 => hL.leaves i i1 (by omega),
        fun i i1 => hL.above i (by omega), fun e => by omega, fun _ => ?_⟩
      rw [State.nodeAt, nodeIn_putNode_same ((tablesWf_iff s).1 hw).2.1 _ hi1 (by omega)]
      show (sym.setWidth 9).toNat = sym.toNat
      rw [BitVec.toNat_setWidth, Nat.mod_eq_of_lt (by have := sym.isLt; omega)]

/-- A byte that completes nothing is only taken up (R224). -/
theorem Parsing.take_up {s : State} (h : Parsing s) (n0 : ¬ (s.hstage = 0#1 ∧ s.hbuf.length = 3))
    (n1 : ¬ (s.hstage = 1#1 ∧ s.hbuf.length = 4)) (d : Byte) : Parsing { s with hbuf := s.hbuf ++ [d] } := by
  have hlen : (s.hbuf ++ [d]).length = s.hbuf.length + 1 := List.length_append
  refine ⟨h.rest, h.total, h.totalMax, fun h0 => ?_, fun h1 => ?_⟩
  · obtain ⟨hk, hhi, hprev, hnode, hbuf⟩ := h.count h0
    have : s.hbuf.length ≠ 3 := fun hl => n0 ⟨h0, hl⟩
    exact ⟨hk, hhi, hprev, hnode, by rw [hlen]; omega⟩
  · obtain ⟨kMax, hi1, hik, hbuf, hrest⟩ := h.records h1
    have : s.hbuf.length ≠ 4 := fun hl => n1 ⟨h1, hl⟩
    exact ⟨kMax, hi1, hik, by rw [hlen]; omega, hrest⟩

/-- The K field is complete, and no record has been read (R225). -/
theorem Parsing.read_count {s : State} (h : Parsing s) (h0 : s.hstage = 0#1) {k : Int} (k1 : 1 ≤ k) (k2 : k ≤ 256) :
    Parsing { s with k := BitVec.ofInt 9 k, hstage := 1#1, hi := 1#9, hbuf := [] } := by
  obtain ⟨-, hhi, hprev, hnode, -⟩ := h.count h0
  have hk : (BitVec.ofInt 9 k).toNat = k.toNat := by
    rw [BitVec.toNat_ofInt]
    omega
  have htot := h.total
  rw [hhi] at htot
  have leaves : Leaves s.node 0 := hnode ▸ leaves_nil
  refine ⟨h.rest, htot, h.totalMax, fun e => absurd e (by decide : (1#1 : BitVec 1) ≠ 0#1), fun _ => ?_⟩
  simp only [hk]
  refine ⟨by omega, by decide, ?_, by decide, leaves.list, fun i i1 i2 => absurd i2 (Nat.not_lt.2 i1),
    leaves.above, fun _ => hprev, fun e => absurd e (by decide)⟩
  change 1 ≤ k.toNat
  omega

theorem rdhdrBeat_operation {s : State} (hw : s.tablesWf = true) (hcfg : s.cfg.wf = true) (h : operation s)
    (hc : s.cur = .rdhdr) (b : Beat) : (rdhdrBeat s b).tablesWf = true ∧ operation (rdhdrBeat s b) := by
  obtain ⟨hp, hs⟩ := (operation_rdhdr hc).1 h
  obtain ⟨dr, e⟩ | ⟨n0, n1, e⟩ | ⟨h0, k, k1, k2, e⟩ | ⟨h1, sym, f, hf, e⟩ := rdhdrBeat_cases s b <;> rw [e]
  · exact raiseFault_operation _ _ s
  · exact ⟨hw, (operation_rdhdr (by exact hc)).2 ⟨hp, hs.take_up n0 n1 b.data⟩⟩
  · exact ⟨hw, (operation_rdhdr (by exact hc)).2 ⟨hp, hs.read_count h0 k1 k2⟩⟩
  · exact seedRecord_operation hw hcfg hp hc hs h1 hf

/-! ## ENCODE -/

theorem encodeBeat_operation {s : State} (hw : s.tablesWf = true) (h : operation s) (hc : s.cur = .encode) (b : Beat) :
    (encodeBeat s b).tablesWf = true ∧ operation (encodeBeat s b) := by
  obtain ⟨hp, ht, -, hh⟩ := (operation_encode hc).1 h
  obtain e | ⟨bits, e⟩ | e := encodeBeat_cases s b <;> rw [e]
  · exact raiseFault_operation _ _ _
  · have same : SameTables s { pushOut (dataBeats (packPending bits).1) s with acc := (packPending bits).2 } :=
      ⟨rfl, rfl, rfl, rfl, rfl, rfl, rfl⟩
    have left := (packWhole_spec bits.length bits le_rfl).2
    exact ⟨hw, (operation_encode (by exact hc)).2 ⟨hp, same.tablesIn nofun ht, Nat.le_of_lt_succ left, hh⟩⟩
  · exact operation_of_cleared rfl rfl (.inl rfl)

/-! ## DECODE -/

/-- K = 1: every bit leads from the only node to itself (R204). -/
theorem TreeBuilt.child_single {s : State} (h : TreeBuilt s) (h1 : s.k.toNat = 1) (b : Bit) :
    childOf (s.nodeAt 1) b = 1#9 := by
  obtain ⟨hl, hr, -⟩ := h.single h1
  cases b
  · exact hl
  · exact hr

/-- From an internal node every bit leads further down (R43 (b)). -/
theorem TreeBuilt.child_lt {s : State} (h : TreeBuilt s) (h2 : 2 ≤ s.k.toNat) {i : Nat} (i1 : s.k.toNat < i)
    (i2 : i ≤ rootIndex s.k.toNat) (b : Bit) : (childOf (s.nodeAt i) b).toNat < i := by
  obtain ⟨-, -, hl, -, hr, -⟩ := h.children h2 i i1 i2
  cases b
  · exact hl
  · exact hr

/-- A bit that leads to no leaf leaves PTR inside the tree (R203). -/
theorem Unpacking.move {s : State} (h : Unpacking s) (hk : 1 ≤ s.k.toNat) (hb : TreeBuilt s) (b : Bit)
    (hn : ¬ (childOf (s.nodeAt s.ptr.toNat) b).toNat ≤ s.k.toNat) :
    Unpacking { s with ptr := childOf (s.nodeAt s.ptr.toNat) b } := by
  rcases Nat.lt_or_eq_of_le hk with h2 | h1
  · obtain ⟨p1, p2⟩ := h.inside h2
    have := hb.child_lt h2 p1 p2 b
    exact ⟨h.remainPos, h.remainMax, fun e => by change s.k.toNat = 1 at e; omega,
      fun _ => ⟨by change s.k.toNat < (childOf (s.nodeAt s.ptr.toNat) b).toNat; omega, by
        change (childOf (s.nodeAt s.ptr.toNat) b).toNat ≤ rootIndex s.k.toNat; omega⟩, h.rest⟩
  · have hp : s.ptr.toNat = 1 := by rw [h.single h1.symm]; rfl
    rw [hp, hb.child_single h1.symm, ← h1] at hn
    exact absurd (by decide) hn

/-- The root is where a walk begins (R197, R200). -/
theorem rootPtr_inside {s : State} (hk : s.k.toNat ≤ 256) : (s.k.toNat = 1 → rootPtr s = 1#9) ∧
    (2 ≤ s.k.toNat → s.k.toNat < (rootPtr s).toNat ∧ (rootPtr s).toNat ≤ rootIndex s.k.toNat) := by
  refine ⟨fun h1 => by rw [rootPtr, h1]; rfl, fun h2 => ?_⟩
  rw [rootPtr_toNat hk]
  exact ⟨by unfold rootIndex; omega, le_rfl⟩

/-- After a symbol that was not the last the walk is at the root again (R200). -/
theorem Unpacking.restart {s t : State} (h : Unpacking s) (hk : s.k.toNat ≤ 256) (hr : 1 ≤ t.remain.toNat)
    (hm : t.remain.toNat ≤ s.remain.toNat) (ht : t = { s with remain := t.remain, ptr := rootPtr s, outq := t.outq }) :
    Unpacking t := by
  rw [ht]
  exact ⟨hr, hm.trans h.remainMax, (rootPtr_inside hk).1, (rootPtr_inside hk).2, h.rest⟩

theorem walkBits_operation (bits : List Bit) : ∀ {s : State}, s.tablesWf = true → operation s → s.cur = .decode →
    (walkBits bits s).tablesWf = true ∧ operation (walkBits bits s) := by
  induction bits with
  | nil => exact fun hw h _ => ⟨hw, h⟩
  | cons b bs ih =>
    intro s hw h hc
    obtain ⟨hp, ht, hu⟩ := (operation_decode hc).1 h
    simp only [walkBits]
    split
    · split
      · exact operation_of_cleared rfl rfl (.inr rfl)
      · next hne =>
        refine ih hw ((operation_decode (by exact hc)).2 ⟨hp, ?_, ?_⟩) hc
        · refine SameTables.tablesIn (p := .builtD) (s := s) ?_ nofun ht
          exact ⟨rfl, rfl, rfl, rfl, rfl, rfl, rfl⟩
        · have hrem : (s.remain - 1).toNat = s.remain.toNat - 1 :=
            BitVec.toNat_sub_of_le (BitVec.le_def.2 hu.remainPos)
          refine hu.restart ht.1.kMax ?_ ?_ rfl
          · change 1 ≤ (s.remain - 1).toNat
            rw [Nat.one_le_iff_ne_zero]
            exact fun e => hne (BitVec.eq_of_toNat_eq e)
          · change (s.remain - 1).toNat ≤ s.remain.toNat
            omega
    · next hn =>
      refine ih hw ((operation_decode (by exact hc)).2 ⟨hp, ?_, hu.move ht.1.kPos ht.2.1 b hn⟩) hc
      refine SameTables.tablesIn (p := .builtD) (s := s) ?_ nofun ht
      exact ⟨rfl, rfl, rfl, rfl, rfl, rfl, rfl⟩

theorem decodeBeat_operation {s : State} (hw : s.tablesWf = true) (h : operation s) (hc : s.cur = .decode) (b : Beat) :
    (decodeBeat s b).tablesWf = true ∧ operation (decodeBeat s b) := by
  unfold decodeBeat
  split
  · exact raiseFault_operation _ _ _
  · exact walkBits_operation _ hw h hc

/-! ## Draining, and every beat -/

theorem drainBeat_operation {s : State} (hw : s.tablesWf = true) (h : operation s) (hc : s.cur = .drain) (b : Beat) :
    (drainBeat s b).tablesWf = true ∧ operation (drainBeat s b) := by
  obtain ⟨-, ht, hh⟩ := (operation_drain hc).1 h
  unfold drainBeat
  split
  · have same : SameTables s { s with cur := .none } := ⟨rfl, rfl, rfl, rfl, rfl, rfl, rfl⟩
    exact ⟨hw, (operation_none rfl).2 ⟨same.tablesIn (fun _ => hh) ht, fun _ => hh⟩⟩
  · exact ⟨hw, h⟩

theorem beatEffect_operation {s : State} (hw : s.tablesWf = true) (hcfg : s.cfg.wf = true) (h : operation s) (b : Beat) :
    (beatEffect s b).tablesWf = true ∧ operation (beatEffect s b) := by
  unfold beatEffect
  cases hc : s.cur with
  | none => exact ⟨hw, h⟩
  | scan => exact scanBeat_operation hw hcfg h hc b
  | encode => exact encodeBeat_operation hw h hc b
  | rdhdr => exact rdhdrBeat_operation hw hcfg h hc b
  | decode => exact decodeBeat_operation hw h hc b
  | drain => exact drainBeat_operation hw h hc b

end Sys2Proof.Safety
end

section
/-! PROOFS. Every command keeps the tables canonical and what PHASE and CUR say (R240 to R252). -/

namespace Sys2Proof.Safety

open Sys2Proof Sys2Proof.Machine

theorem sequenceError_operation {s : State} (hw : s.tablesWf = true) (h : operation s) :
    (sequenceError s).tablesWf = true ∧ operation (sequenceError s) :=
  ⟨hw, operation_ports h s.host s.inq s.outq s.sent s.cfg.outDepth _ _⟩

/-- While CMD takes a word no stream command is in progress and the hidden state is cleared (R48, R61). -/
theorem operation_of_ready {s : State} (h : operation s) (hr : s.ready = true) :
    s.cur = .none ∧ s.phase ≠ .halted ∧ tablesIn s.phase s ∧ HiddenCleared s := by
  obtain ⟨hc, hp⟩ := (ready_iff s).1 hr
  obtain ⟨ht, hh⟩ := (operation_none hc).1 h
  exact ⟨hc, hp, ht, hh hp⟩

theorem freqSum_of_nil {s : State} (h : s.freq = []) : freqSum s = 0 := by
  rw [freqSum_eq]
  exact Finset.sum_eq_zero fun n _ => by rw [State.freqAt, h]; rfl

/-- SCAN starts with all counts 0 (R121). -/
theorem scanning_start {s : State} (h : Cleared s) : Scanning { s with cur := .scan } := by
  obtain ⟨hf, h2, h3, h4, h5, h6, hh⟩ := (cleared_iff s).1 h
  refine ⟨(cleared_iff _).2 ⟨rfl, h2, h3, h4, h5, rfl, hh⟩, ?_, ?_⟩
  · exact (congrArg BitVec.toNat h6).trans (freqSum_of_nil (by exact hf)).symm
  · simp [h6]

/-- RDHDR starts with nothing read (R223). -/
theorem parsing_start {s : State} (h : Cleared s) :
    Parsing { s with cur := .rdhdr, hstage := 0, hbuf := [], hi := 0, hprev := noRecordYet } := by
  obtain ⟨hf, hn, hc, hk, hnn, ht, hrem, hptr, hacc, -⟩ := (cleared_iff s).1 h
  refine ⟨⟨hf, hc, hnn, hrem, hptr, hacc⟩, ?_, ?_, fun _ => ⟨hk, rfl, rfl, hn, Nat.zero_lt_succ 3⟩,
    fun h1 => absurd h1 (by decide : (0#1 : BitVec 1) ≠ 1#1)⟩
  · exact congrArg BitVec.toNat ht
  · simp [ht]

/-- A Symbol list that is not empty weighs something (R197). -/
theorem Symbols.total_pos {s : State} (h : Symbols s) : 1 ≤ s.total.toNat := by
  obtain ⟨n, hn⟩ : ∃ n, s.k.toNat = n + 1 := ⟨s.k.toNat - 1, by have := h.kPos; omega⟩
  have := h.list.positive (n + 1) (by omega) (by omega)
  rw [h.total, hn, weightSum_succ]
  omega

/-- DECODE starts at the root, with all TOTAL bytes to come (R197). -/
theorem unpacking_start {s : State} (hs : Symbols s) (hh : HiddenCleared s) :
    Unpacking { s with cur := .decode, remain := s.total, ptr := rootPtr s } := by
  obtain ⟨-, -, hacc, hst, hhi, hbuf, hprev⟩ := hh
  exact ⟨hs.total_pos, le_rfl, (rootPtr_inside hs.kMax).1, (rootPtr_inside hs.kMax).2, hacc, hst, hhi, hbuf, hprev⟩

theorem execBuild_operation {s t : State} (hw : s.tablesWf = true) (h : operation s) (he : exec .build s = .next t) :
    t.tablesWf = true ∧ operation t := by
  obtain ⟨hr, ⟨hp, rfl⟩ | ⟨-, rfl⟩⟩ := execBuild_next he
  · obtain ⟨hc, -, ht, hh⟩ := operation_of_ready h hr
    obtain ⟨wf, wn, wc⟩ := (tablesWf_iff s).1 hw
    refine ⟨(tablesWf_iff _).2 ⟨wf, buildTree_wf wn _, wc⟩, (operation_none (by exact hc)).2 ⟨?_, fun _ => hh⟩⟩
    rcases hp with hp | hp
    · rw [hp] at ht
      obtain ⟨hs, hl, hcode⟩ := ht
      simp only [if_pos hp]
      exact ⟨buildTree_symbols hw hs hl rfl rfl rfl rfl, buildTree_treeBuilt hw hs hl rfl rfl rfl rfl, hcode⟩
    · rw [hp] at ht
      obtain ⟨hs, hl, hcode, hfreq⟩ := ht
      simp only [if_neg (show ¬ s.phase = .scanned by rw [hp]; nofun)]
      exact ⟨buildTree_symbols hw hs hl rfl rfl rfl rfl, buildTree_treeBuilt hw hs hl rfl rfl rfl rfl, hcode, hfreq⟩
  · exact sequenceError_operation hw h

theorem execGencode_operation {s t : State} (hw : s.tablesWf = true) (h : operation s) (he : exec .gencode s = .next t) :
    t.tablesWf = true ∧ operation t := by
  obtain ⟨hr, ⟨hp, ct, hg, rfl⟩ | ⟨-, rfl⟩⟩ := execGencode_next he
  · obtain ⟨hc, -, ht, hh⟩ := operation_of_ready h hr
    rw [hp] at ht
    obtain ⟨hs, hb, h0⟩ := ht
    obtain ⟨wf, wn, -⟩ := (tablesWf_iff s).1 hw
    refine ⟨(tablesWf_iff _).2 ⟨wf, wn, genCodes_wf hs hb h0 hg⟩, (operation_none (by exact hc)).2 ⟨⟨?_, ?_, ?_⟩, fun _ => hh⟩⟩
    · exact ⟨hs.kPos, hs.kMax, hs.list, hs.total, hs.totalMax⟩
    · exact ⟨hb.nn, hb.children, hb.parents, hb.root, hb.weights, hb.rootSum, hb.leaves, hb.single, hb.above⟩
    · exact genCodes_codesFilled hs hb h0 hg rfl rfl rfl
  · exact sequenceError_operation hw h

/-- The step of WRHDR writes no table; its last push moves PHASE on (R216, R73). -/
theorem headerStep_operation {s t : State} (hw : s.tablesWf = true) (h : operation s) (hc : s.cur = .none)
    (hp : s.phase = .coded) (he : headerStep s = some t) : t.tablesWf = true ∧ operation t := by
  obtain ⟨ht, hh⟩ := (operation_none hc).1 h
  have hh := hh (by rw [hp]; nofun)
  have wait : ∀ o n, operation { s with outq := o, sent := n } := fun o n =>
    operation_ports h s.host s.inq o n s.cfg.outDepth s.err s.faults
  rw [hp] at ht
  have done : ∀ o n, operation { s with outq := o, sent := n, phase := .hdrWritten, err := .ok } := fun o n => by
    have same : SameTables s { s with outq := o, sent := n, phase := .hdrWritten, err := .ok } :=
      ⟨rfl, rfl, rfl, rfl, rfl, rfl, rfl⟩
    exact (operation_none (by exact hc)).2 ⟨same.tablesIn (p := .coded) nofun ht, fun _ => hh⟩
  obtain ⟨-, rfl⟩ | ⟨-, -, rfl⟩ := headerStep_some he
  · exact ⟨hw, done _ s.sent⟩
  · obtain ⟨-, e⟩ | ⟨-, e⟩ := pushHeaderBeat_cases s <;> rw [e]
    · exact ⟨hw, done _ 0⟩
    · exact ⟨hw, wait _ _⟩

theorem exec_operation {i : Instr} {s t : State} (hw : s.tablesWf = true) (h : operation s) (he : exec i s = .next t) :
    t.tablesWf = true ∧ operation t := by
  cases i with
  | clear =>
    obtain ⟨hr, ⟨-, rfl⟩ | ⟨-, rfl⟩⟩ := execClear_next he
    · exact operation_of_cleared rfl rfl (.inl (operation_of_ready h hr).1)
    · exact sequenceError_operation hw h
  | scan =>
    obtain ⟨hr, ⟨hp, rfl⟩ | ⟨-, rfl⟩⟩ := execScan_next he
    · obtain ⟨-, -, ht, -⟩ := operation_of_ready h hr
      rw [hp] at ht
      exact ⟨hw, (operation_scan rfl).2 ⟨hp, scanning_start ht⟩⟩
    · exact sequenceError_operation hw h
  | build => exact execBuild_operation hw h he
  | gencode => exact execGencode_operation hw h he
  | wrhdr =>
    obtain ⟨hr, ⟨hp, rfl⟩ | ⟨-, rfl⟩⟩ := execWrhdr_next he
    · obtain hs | ⟨-, hs⟩ := headerStep_getD_cases s
      · exact headerStep_operation hw h (operation_of_ready h hr).1 hp hs
      · rw [hs]; exact ⟨hw, h⟩
    · exact sequenceError_operation hw h
  | encode =>
    obtain ⟨hr, ⟨hp, rfl⟩ | ⟨-, rfl⟩⟩ := execEncode_next he
    · obtain ⟨-, -, ht, hrem, hptr, -, hh⟩ := operation_of_ready h hr
      rw [hp] at ht
      have same : SameTables s { s with cur := .encode, acc := [] } := ⟨rfl, rfl, rfl, rfl, rfl, rfl, rfl⟩
      exact ⟨hw, (operation_encode rfl).2 ⟨hp, same.tablesIn nofun ht, Nat.zero_le _, hrem, hptr, rfl, hh⟩⟩
    · exact sequenceError_operation hw h
  | rdhdr =>
    obtain ⟨hr, ⟨hp, rfl⟩ | ⟨-, rfl⟩⟩ := execRdhdr_next he
    · obtain ⟨-, -, ht, -⟩ := operation_of_ready h hr
      rw [hp] at ht
      exact ⟨hw, (operation_rdhdr rfl).2 ⟨hp, parsing_start ht⟩⟩
    · exact sequenceError_operation hw h
  | decode =>
    obtain ⟨hr, ⟨hp, rfl⟩ | ⟨-, rfl⟩⟩ := execDecode_next he
    · obtain ⟨-, -, ht, hh⟩ := operation_of_ready h hr
      rw [hp] at ht
      have same : SameTables s { s with cur := .decode, remain := s.total, ptr := rootPtr s } :=
        ⟨rfl, rfl, rfl, rfl, rfl, rfl, rfl⟩
      exact ⟨hw, (operation_decode rfl).2 ⟨hp, same.tablesIn nofun ht, unpacking_start ht.1 hh⟩⟩
    · exact sequenceError_operation hw h
  | halt =>
    obtain ⟨hr, ⟨-, rfl⟩ | ⟨-, rfl⟩⟩ := execHalt_next he
    · exact ⟨hw, (operation_none (by exact (operation_of_ready h hr).1)).2 ⟨trivial, fun hp => absurd rfl hp⟩⟩
    · exact sequenceError_operation hw h
  | drain =>
    obtain ⟨hr, ⟨hp, rfl⟩ | ⟨-, rfl⟩⟩ := execDrain_next he
    · obtain ⟨-, -, ht, hh⟩ := operation_of_ready h hr
      have same : SameTables s { s with cur := .drain, err := .ok } := ⟨rfl, rfl, rfl, rfl, rfl, rfl, rfl⟩
      exact ⟨hw, (operation_drain rfl).2 ⟨hp, same.tablesIn (fun _ => hh) ht, hh⟩⟩
    · exact sequenceError_operation hw h

end Sys2Proof.Safety
end

section
/-! PROOFS. Every step keeps the invariant (R23, R40 to R51, R261): what it does to the block, to the queues, and to a WRHDR that
is split (log 6). -/

namespace Sys2Proof.Safety

open Sys2Proof Sys2Proof.Machine

/-! ## Queues within their depths (R49) -/

theorem withinDepth_of_le {d : Option Nat} {q r : List Beat} (h : withinDepth d r) (hl : q.length ≤ r.length) :
    withinDepth d q := by
  cases d with
  | none => trivial
  | some d => exact hl.trans h

/-- With room for the beats pushed OUTQ stays within OUT_DEPTH (R84 (b)). -/
theorem withinDepth_push {s : State} (h : withinDepth s.cfg.outDepth s.outq) {out : List Beat}
    (hr : s.room out.length = true) : withinDepth s.cfg.outDepth (s.outq ++ out) := by
  cases hd : s.cfg.outDepth with
  | none => trivial
  | some d =>
    rw [hd] at h
    rw [room_iff hd] at hr
    change s.outq.length ≤ d at h
    show (s.outq ++ out).length ≤ d
    rw [List.length_append]
    omega

/-- With room for one beat INQ stays within IN_DEPTH (R62). -/
theorem withinDepth_pushIn {s : State} (hr : s.inRoom = true) (b : Beat) : withinDepth s.cfg.inDepth (s.inq ++ [b]) := by
  unfold State.inRoom at hr
  cases hd : s.cfg.inDepth with
  | none => trivial
  | some d =>
    simp only [hd, decide_eq_true_eq] at hr
    show (s.inq ++ [b]).length ≤ d
    rw [List.length_append]
    exact hr

/-- Of beats handed over no more are left than OUTQ holds (log 6). -/
theorem withinDepth_drop_excess (s : State) (q : List Beat) : withinDepth s.cfg.outDepth (q.drop (s.excess q.length)) := by
  cases hd : s.cfg.outDepth with
  | none => trivial
  | some d =>
    show (q.drop (s.excess q.length)).length ≤ d
    rw [excess_eq hd, List.length_drop]
    omega

/-! ## A WRHDR that is split (log 6) -/

/-- A header is pushed in parts only while its word waits at CMD. -/
theorem Sound.sent_eq_zero {s : State} (h : Sound s) (hw : s.headerWaits = false) : s.sent = 0 := by
  by_contra hs
  obtain ⟨hscr, hc, hp, hf, -⟩ := h.partSent hs
  have hroom : s.room (headerBytes s).length = false := by
    rw [← Bool.not_eq_true]
    exact fun hr => absurd (fits_of_room hr) (by rw [hf]; nofun)
  have hready : s.ready = true := (ready_iff s).2 ⟨hc, by rw [hp]; nofun⟩
  rw [(headerWaits_iff s).2 ⟨hscr, hready, hp, hroom⟩] at hw
  cases hw

theorem Sound.sent_of_busy {s : State} (h : Sound s) (hb : s.busy = true) : s.sent = 0 := by
  by_contra hs
  obtain ⟨-, hc, -⟩ := h.partSent hs
  exact (busy_iff s).1 hb hc

theorem partSent_of_zero {s : State} (h : s.sent = 0) : partSent s := fun hs => absurd h hs

/-- While the host goes on behind a WRHDR word, the word stays at CMD (R61). -/
theorem headerWaits_withScript {s : State} {a : Action} {as : List Action} (ht : hostTurn s = some (a, as))
    (ha : a ≠ .reset) (hw : s.headerWaits = true) : (withScript as s).headerWaits = true := by
  obtain ⟨hn, -⟩ | ⟨-, -, bs, -, hs⟩ := hostTurn_some ht
  · rw [hn] at hw; cases hw
  · rw [if_neg ha] at hs
    obtain ⟨-, hrest⟩ := (headerWaits_iff s).1 hw
    exact (headerWaits_iff _).2 ⟨⟨bs, hs⟩, hrest⟩

/-! ## The host's actions -/

/-- The host's record and the queues may change, within the depths, while what the host does next stays. -/
theorem Sound.queues {s : State} (h : Sound s) {host : HostSide} {q o : List Beat} (hs : host.script = s.host.script)
    (hq : withinDepth s.cfg.inDepth q) (ho : withinDepth s.cfg.outDepth o) :
    Sound { s with host := host, inq := q, outq := o } where
  cfg := h.cfg
  tables := h.tables
  inDepth := hq
  outDepth := ho
  record := h.record
  operation := operation_ports h.operation host q o s.sent s.cfg.outDepth s.err s.faults
  partSent hn := by
    obtain ⟨⟨as, hscr⟩, hrest⟩ := h.partSent hn
    exact ⟨⟨as, hs.trans hscr⟩, hrest⟩

theorem operation_withScript {s : State} (h : operation s) (as : List Action) : operation (withScript as s) :=
  operation_ports h { s.host with script := as } s.inq s.outq s.sent s.cfg.outDepth s.err s.faults

/-- The script may change while no part of a header is pushed. -/
theorem Sound.withScript_of_sent {s : State} (h : Sound s) (h0 : s.sent = 0) (as : List Action) : Sound (withScript as s) :=
  ⟨h.cfg, h.tables, h.inDepth, h.outDepth, h.record, operation_withScript h.operation as, partSent_of_zero h0⟩

/-- The host takes its next action out of its script; a WRHDR word that waits stays at its head. -/
theorem Sound.withScript {s : State} (h : Sound s) {a : Action} {as : List Action} (ht : hostTurn s = some (a, as))
    (ha : a ≠ .reset) : Sound (withScript as s) := by
  obtain ⟨hw, -⟩ | ⟨-, -, bs, -, hs⟩ := hostTurn_some ht
  · exact h.withScript_of_sent (h.sent_eq_zero hw) as
  · rw [if_neg ha] at hs
    refine ⟨h.cfg, h.tables, h.inDepth, h.outDepth, h.record, operation_withScript h.operation as, fun hn => ?_⟩
    obtain ⟨-, hrest⟩ := h.partSent hn
    exact ⟨⟨bs, hs⟩, hrest⟩

/-! ## The block's step -/

/-- What a beat that has been popped does, whatever OUTQ is afterwards. -/
theorem beatEffect_sound {s : State} (h : Sound s) (hb : s.busy = true) {b : Beat} {rest : List Beat} (hq : s.inq = b :: rest)
    {host : HostSide} {o : List Beat} (ho : withinDepth s.cfg.outDepth o) :
    Sound { beatEffect { s with inq := rest } b with host := host, outq := o } := by
  obtain ⟨hcfg, -⟩ := beatEffect_frame { s with inq := rest } b
  obtain ⟨-, -, hinq, hsent, -⟩ := beatEffect_ports { s with inq := rest } b
  have hop : operation { s with inq := rest } :=
    operation_ports h.operation s.host rest s.outq s.sent s.cfg.outDepth s.err s.faults
  obtain ⟨ht, hop⟩ := beatEffect_operation (s := { s with inq := rest }) h.tables h.cfg hop b
  have hrec := (beatEffect_record { s with inq := rest } b).legal h.record
  generalize beatEffect { s with inq := rest } b = t at hcfg hinq hsent ht hop hrec ⊢
  refine ⟨by rw [hcfg]; exact h.cfg, ht, ?_, by rw [hcfg]; exact ho, hrec,
    operation_ports hop host t.inq o t.sent t.cfg.outDepth t.err t.faults,
    partSent_of_zero (hsent.trans (h.sent_of_busy hb))⟩
  simp only [hcfg, hinq]
  exact withinDepth_of_le h.inDepth (by rw [hq]; exact Nat.le_succ _)

theorem blockTurn_sound {s : State} (h : Sound s) : Sound (blockTurn s) := by
  obtain e | ⟨-, e⟩ := blockTurn_cases s
  · obtain ⟨b, rest, hb, hq, e, hroom⟩ := beatStep_some e
    obtain ⟨out, ho, -⟩ := beatEffect_ports { s with inq := rest } b
    rw [e, pushedBeats_eq (s := s) ho] at hroom
    have ho' : withinDepth s.cfg.outDepth (beatEffect { s with inq := rest } b).outq := by
      rw [ho]; exact withinDepth_push h.outDepth hroom
    rw [e]
    exact beatEffect_sound h hb hq ho'
  · rw [e]; exact h

/-- A beat whose last beats find no place while the host pops the first (log 6). -/
theorem handOver_sound {s t : State} (h : Sound s) (he : handOver s = some t) : Sound t := by
  obtain ⟨b, rest, as, hb, hq, -, -, -, -, rfl⟩ := handOver_some he
  exact beatEffect_sound h hb hq (withinDepth_drop_excess s _)

/-! ## The step of WRHDR (R73, R84 (b), log 6) -/

/-- One push of a header that no OUTQ of this depth takes whole, while its word waits at CMD. -/
theorem headerStep_sound {s t : State} (h : Sound s) (hw : s.headerWaits = true) (he : headerStep s = some t) :
    Sound t ∧ (t.phase ≠ .coded → t.sent = 0) := by
  obtain ⟨⟨as, hscr⟩, hready, hp, hroom⟩ := (headerWaits_iff s).1 hw
  obtain ⟨hc, -⟩ := (ready_iff s).1 hready
  obtain ⟨ht, hop⟩ := headerStep_operation h.tables h.operation hc hp he
  have hrec := (headerStep_record he).legal h.record
  obtain ⟨hr, -⟩ | ⟨hf, h1, rfl⟩ := headerStep_some he
  · rw [hr] at hroom; cases hroom
  · have push : ∀ out : List Beat, out.length ≤ 1 → withinDepth s.cfg.outDepth (s.outq ++ out) :=
      fun out ho => withinDepth_push h.outDepth (room_mono ho h1)
    obtain ⟨hle, e⟩ | ⟨hlt, e⟩ := pushHeaderBeat_cases s <;> rw [e] at ht hop hrec ⊢
    · have hlen : ((dataBeats (headerBytes s)).drop s.sent).length ≤ 1 := by
        rw [List.length_drop, dataBeats_length]
        omega
      exact ⟨⟨h.cfg, ht, h.inDepth, push _ hlen, hrec, hop, partSent_of_zero rfl⟩, fun _ => rfl⟩
    · exact ⟨⟨h.cfg, ht, h.inDepth, push _ (List.length_take_le 1 _), hrec, hop,
        fun _ => ⟨⟨as, hscr⟩, hc, hp, hf, hlt⟩⟩, fun hn => absurd hp hn⟩

theorem headerTurn_sound {s : State} (h : Sound s) (hw : s.headerWaits = true) : Sound (headerTurn s) := by
  obtain ⟨-, e⟩ | ⟨t, he, -, e⟩ | ⟨t, he, hp, e⟩ := headerTurn_cases s <;> rw [e]
  · exact h
  · exact (headerStep_sound h hw he).1
  · obtain ⟨ht, h0⟩ := headerStep_sound h hw he
    exact ht.withScript_of_sent (h0 hp) _

theorem turn_sound {s : State} {as : List Action} (h : Sound (withScript as s))
    (hw : s.headerWaits = true → (withScript as s).headerWaits = true) : Sound (turn as s) := by
  obtain ⟨-, e⟩ | ⟨hs, e⟩ := turn_cases as s <;> rw [e]
  · exact blockTurn_sound h
  · exact headerTurn_sound h (hw hs)

/-! ## An accepted word -/

/-- No word but 0x05 is WRHDR (R92). -/
theorem eq_encode_wrhdr_of_decode : ∀ {w : Byte}, decode w = .ok .wrhdr → w = encode .wrhdr := by
  have h : ∀ w : Byte, (decode w).toOption = some .wrhdr → w = encode .wrhdr := by decide +kernel
  exact fun {w} e => h w (by rw [e]; rfl)

/-- No command but WRHDR pushes, and none touches what is left of a split one (R63, log 6). -/
theorem exec_outq {i : Instr} {s t : State} (hi : i ≠ .wrhdr) (h : exec i s = .next t) : t.outq = s.outq ∧ t.sent = s.sent := by
  cases i with
  | clear => obtain ⟨-, ⟨-, rfl⟩ | ⟨-, rfl⟩⟩ := execClear_next h <;> exact ⟨rfl, rfl⟩
  | scan => obtain ⟨-, ⟨-, rfl⟩ | ⟨-, rfl⟩⟩ := execScan_next h <;> exact ⟨rfl, rfl⟩
  | build => obtain ⟨-, ⟨-, rfl⟩ | ⟨-, rfl⟩⟩ := execBuild_next h <;> exact ⟨rfl, rfl⟩
  | gencode => obtain ⟨-, ⟨-, ct, -, rfl⟩ | ⟨-, rfl⟩⟩ := execGencode_next h <;> exact ⟨rfl, rfl⟩
  | wrhdr => exact absurd rfl hi
  | encode => obtain ⟨-, ⟨-, rfl⟩ | ⟨-, rfl⟩⟩ := execEncode_next h <;> exact ⟨rfl, rfl⟩
  | rdhdr => obtain ⟨-, ⟨-, rfl⟩ | ⟨-, rfl⟩⟩ := execRdhdr_next h <;> exact ⟨rfl, rfl⟩
  | decode => obtain ⟨-, ⟨-, rfl⟩ | ⟨-, rfl⟩⟩ := execDecode_next h <;> exact ⟨rfl, rfl⟩
  | halt => obtain ⟨-, ⟨-, rfl⟩ | ⟨-, rfl⟩⟩ := execHalt_next h <;> exact ⟨rfl, rfl⟩
  | drain => obtain ⟨-, ⟨-, rfl⟩ | ⟨-, rfl⟩⟩ := execDrain_next h <;> exact ⟨rfl, rfl⟩

/-- WRHDR with room for its header pushes it whole, or records that the phase is wrong (R216, R243). -/
theorem exec_wrhdr_outq {s t : State} (hr : s.phase = .coded → s.room (headerBytes s).length = true)
    (h : exec .wrhdr s = .next t) : t.sent = s.sent ∧ ∃ out, t.outq = s.outq ++ out ∧ s.room out.length = true := by
  obtain ⟨-, ⟨hp, rfl⟩ | ⟨-, rfl⟩⟩ := execWrhdr_next h
  · rw [headerStep_of_room (hr hp)]
    exact ⟨rfl, dataBeats (headerBytes s), rfl, by rw [dataBeats_length]; exact hr hp⟩
  · exact ⟨rfl, [], (List.append_nil _).symm, room_zero s⟩

/-- A command whose word does not wait for room keeps the invariant. -/
theorem exec_sound {i : Instr} {s t : State} (h : Sound s) (h0 : s.sent = 0)
    (hr : i = .wrhdr → s.phase = .coded → s.room (headerBytes s).length = true) (he : exec i s = .next t) : Sound t := by
  obtain ⟨hcfg, -, hinq⟩ := exec_frame he
  obtain ⟨ht, hop⟩ := exec_operation h.tables h.operation he
  have hports : t.sent = s.sent ∧ ∃ out, t.outq = s.outq ++ out ∧ s.room out.length = true := by
    by_cases hi : i = .wrhdr
    · subst hi; exact exec_wrhdr_outq (hr rfl) he
    · obtain ⟨ho, hs⟩ := exec_outq hi he
      exact ⟨hs, [], by rw [ho, List.append_nil], room_zero s⟩
  obtain ⟨hs, out, ho, hroom⟩ := hports
  refine ⟨hcfg ▸ h.cfg, ht, ?_, ?_, (exec_record he).legal h.record, hop, partSent_of_zero (hs.trans h0)⟩
  · rw [hcfg, hinq]; exact h.inDepth
  · rw [hcfg, ho]; exact withinDepth_push h.outDepth hroom

/-- A word that is taken from the host's script leaves the invariant to the command, or only records a fault (R240, R241). -/
theorem issue_sound {s : State} (h : Sound s) {w : Byte} {as : List Action} (hs : s.host.script = .issue w :: as)
    (hw : s.headerWaits = false) (hr : s.ready = true) : Sound (illegalWord (withScript as s)) ∧
    ∀ i t, decode w = .ok i → exec i (withScript as s) = .next t → Sound t := by
  have h0 := h.sent_eq_zero hw
  have h' := h.withScript_of_sent h0 as
  constructor
  · exact ⟨h.cfg, h.tables, h.inDepth, h.outDepth,
      (RecordStep.of_fault (e := .illegal) nofun nofun rfl rfl : RecordStep s (illegalWord (withScript as s))).legal h.record,
      operation_ports h'.operation _ s.inq s.outq s.sent s.cfg.outDepth _ _, partSent_of_zero h0⟩
  · intro i t hd he
    refine exec_sound h' h0 (fun hi hp => ?_) he
    rw [hi] at hd
    rw [eq_encode_wrhdr_of_decode hd] at hs
    by_contra hroom
    rw [(headerWaits_iff s).2 ⟨⟨as, hs⟩, hr, hp, Bool.eq_false_of_not_eq_true hroom⟩] at hw
    cases hw

/-! ## Every step -/

theorem step_sound {s t : State} (h : Sound s) (he : step s = .next t) : Sound t := by
  obtain e | ⟨as, ht, e⟩ | ⟨w, as, hs, hw, hr, hc⟩ | ⟨b, as, ht, hin, e⟩ | ⟨b, rest, as, ht, ho, e⟩ | ⟨addr, as, ht, e⟩ |
    ⟨as, -, e⟩ | ⟨as, -, e⟩ := step_cases he
  · rw [e]
    exact turn_sound h id
  · rw [e]
    exact turn_sound (h.withScript ht nofun) (headerWaits_withScript ht nofun)
  · obtain ⟨hill, hex⟩ := issue_sound h hs hw hr
    obtain ⟨-, -, e⟩ | ⟨i, hd, e⟩ := hc
    · rw [e]; exact hill
    · exact hex i t hd e
  · rw [e]
    exact (h.withScript ht nofun).queues rfl (withinDepth_pushIn hin b) h.outDepth
  · rw [e]
    exact (h.withScript ht nofun).queues rfl h.inDepth
      (withinDepth_of_le h.outDepth (by rw [ho]; exact Nat.le_succ _))
  · rw [e]
    exact (h.withScript ht nofun).queues rfl h.inDepth h.outDepth
  · rw [e]
    exact invariantHoldsAfterReset s.cfg h.cfg _
  · exact handOver_sound h e

/-- No step changes a parameter (R8). -/
theorem step_cfg {s t : State} (he : step s = .next t) : t.cfg = s.cfg := by
  obtain e | ⟨as, -, e⟩ | ⟨w, as, -, -, -, ⟨-, -, e⟩ | ⟨i, -, e⟩⟩ | ⟨b, as, -, -, e⟩ | ⟨b, rest, as, -, -, e⟩ |
    ⟨addr, as, -, e⟩ | ⟨as, -, e⟩ | ⟨as, -, e⟩ := step_cases he
  · rw [e]; exact (turn_frame _ s).1
  · rw [e]; exact (turn_frame _ s).1
  · exact (congrArg State.cfg e :)
  · exact (exec_frame e).1
  · exact (congrArg State.cfg e :)
  · exact (congrArg State.cfg e :)
  · exact (congrArg State.cfg e :)
  · exact (congrArg State.cfg e :)
  · obtain ⟨b, rest, as', -, -, -, -, -, -, e⟩ := handOver_some e
    rw [e]; exact (beatEffect_frame { s with inq := rest } b).1

/-- Settles O59: by the cases of a step, each of them a beat, a push of WRHDR, a command, or an action of the host at a port. -/
theorem everyStepKeepsTheInvariant : Obligations.EveryStepKeepsTheInvariant :=
  fun _ _ h he => ⟨step_sound h he, step_cfg he⟩

end Sys2Proof.Safety
end

section
/-! PROOFS. The word at CMD (R61, R73, R240, R304, log 6): the step of an offered word, of a word that waits for room, and of one
that is held; and what the commands leave in CUR (R31, R73). -/

namespace Sys2Proof.Safety

open Sys2Proof Sys2Proof.Machine

/-! ## The host's next action (R83, log 19) -/

/-- What the host goes on with is its next action. -/
theorem HostGoesOn.hostTurn_eq {s : State} {a : Action} {as : List Action} (h : HostGoesOn s a as) :
    hostTurn s = some (a, as) := by
  obtain ⟨hi, hr, ⟨hw, hs⟩ | ⟨hw, w, bs, hs, rfl⟩⟩ := h
  · exact hostTurn_of_head hs hw
  · cases a with
    | issue w => exact absurd rfl (hi w)
    | reset => exact absurd rfl hr
    | pushIn _ | popOut | inspect _ | beatStep => simp [hostTurn, hs, hw]

/-- The host's next action is a word, a reset, or what it goes on with. -/
theorem hostGoesOn_of_hostTurn {s : State} {a : Action} {as : List Action} (h : hostTurn s = some (a, as))
    (hi : ∀ w, a ≠ .issue w) (hr : a ≠ .reset) : HostGoesOn s a as := by
  obtain ⟨hw, hs⟩ | ⟨hw, -, bs, hs, e⟩ := hostTurn_some h
  · exact ⟨hi, hr, .inl ⟨hw, hs⟩⟩
  · rw [if_neg hr] at e
    exact ⟨hi, hr, .inr ⟨hw, _, bs, hs, e⟩⟩

/-- An enabled action that the host goes on with is the step. -/
theorem HostGoesOn.step_eq {s : State} {a : Action} {as : List Action} (h : HostGoesOn s a as) (he : enabled a s = true) :
    step s = performAction a as s := step_of_hostTurn h.hostTurn_eq he

/-! ## The step of a WRHDR word that waits (R73, R84 (b), log 6) -/

/-- A WRHDR word waits with the port open, in CODED. -/
theorem ready_of_headerWaits {s : State} (h : s.headerWaits = true) : s.ready = true ∧ s.cur = .none ∧ s.phase = .coded := by
  obtain ⟨-, hr, hp, -⟩ := (headerWaits_iff s).1 h
  exact ⟨hr, ((ready_iff s).1 hr).1, hp⟩

/-- Everything the step of WRHDR does to CUR and OUTQ: CUR stays, and beats are appended. -/
theorem headerStep_appends {s t : State} (h : headerStep s = some t) :
    t.cur = s.cur ∧ ∃ out, t.outq = s.outq ++ out := by
  obtain ⟨-, rfl⟩ | ⟨-, -, rfl⟩ := headerStep_some h
  · exact ⟨rfl, dataBeats (headerBytes s), rfl⟩
  · obtain ⟨-, e⟩ | ⟨-, e⟩ := pushHeaderBeat_cases s <;> rw [e] <;> exact ⟨rfl, _, rfl⟩

/-- WRHDR in CODED is its step, or nothing while that waits (R216). -/
theorem exec_wrhdr_of_coded {s : State} (hr : s.ready = true) (hp : s.phase = .coded) :
    exec .wrhdr s = .next ((headerStep s).getD s) := by
  rw [exec, execWrhdr, accept_of_legal hr (by rw [hp]; rfl)]

/-- The header does not depend on what the host is going to do. -/
theorem headerStep_withScript (as : List Action) (s : State) :
    headerStep (withScript as s) = (headerStep s).map (withScript as) := by
  have e : headerStep (withScript as s) = if s.room (headerBytes s).length then some (withScript as (writeHeader s))
      else if s.fits (headerBytes s).length then none
      else if s.room 1 then some (pushHeaderBeat (withScript as s)) else none := rfl
  have hp : pushHeaderBeat (withScript as s) = withScript as (pushHeaderBeat s) := by
    obtain ⟨h, e⟩ | ⟨h, e⟩ := pushHeaderBeat_cases s <;> rw [e] <;>
      obtain ⟨h', e'⟩ | ⟨h', e'⟩ := pushHeaderBeat_cases (withScript as s)
    · exact e'
    · exact absurd h' (Nat.not_lt.2 h)
    · exact absurd h (Nat.not_lt.2 h')
    · exact e'
  rw [e, hp]
  unfold headerStep
  split_ifs <;> rfl

/-- The turn of a word that waits is WRHDR's step; the word is given up with the last push. -/
theorem headerTurn_withScript {s : State} (hp : s.phase = .coded) (as : List Action) :
    headerTurn (withScript as s) =
      if ((headerStep s).getD s).phase = .coded then withScript as ((headerStep s).getD s)
      else withScript as.tail ((headerStep s).getD s) := by
  unfold headerTurn
  rw [headerStep_withScript]
  cases headerStep s with
  | none => exact (if_pos hp).symm
  | some t => rfl

/-- While a word waits, the turn is that of the word. -/
theorem turn_of_headerWaits {s : State} (as : List Action) (hw : s.headerWaits = true) :
    turn as s = headerTurn (withScript as s) := by simp [turn, hw]

/-- While a word waits and the host has no action to take, the step is the turn of the word. -/
theorem step_of_headerWaits {s : State} (hw : s.headerWaits = true)
    (hen : ∀ a bs, hostTurn s = some (a, bs) → enabled a s = false) : step s = .next (headerTurn s) := by
  have ht : turn s.host.script s = headerTurn s := by rw [turn_of_headerWaits _ hw, withScript_self]
  cases hs : hostTurn s with
  | none => simp [step, stepOnce, hs, ht]
  | some p =>
    rw [step_of_held hs (hen p.1 p.2 hs), heldTurn_of_idle (ready_of_headerWaits hw).2.1, ht]

/-! ## The offered word -/

/-- An offered word that is a command and does not wait for room is that command's step (R240). -/
theorem step_of_word {s : State} {w : Byte} {as : List Action} {i : Instr} (hs : s.host.script = .issue w :: as)
    (hr : s.ready = true) (hw : s.headerWaits = false) (hd : decode w = .ok i) : step s = exec i (withScript as s) := by
  rw [step_of_hostTurn (hostTurn_of_head hs hw) hr]
  simp only [performAction, issueWord, hd]

/-- Settles O5: a word that does not wait is its command's step; one that waits has its turn when the host takes no other
action. -/
theorem stepRunsTheOfferedCommand : Obligations.StepRunsTheOfferedCommand := by
  refine ⟨fun s w as i hs hr hw hd => step_of_word hs hr hw hd, fun s n i hr hw hd => ?_, fun s => ?_,
    fun s w as hs hw hen hres => ?_, fun s w as hs hw => ?_⟩
  · have hb : tableByte 8 n = BitVec.ofNat 8 n := BitVec.eq_of_toNat_eq (by simp [tableByte])
    rw [← hb] at hd
    exact step_of_word rfl hr hw hd
  · rw [headerWaits_iff, headerBytes_length]
    rfl
  · obtain ⟨hr, -, hp⟩ := ready_of_headerWaits hw
    have quiet : ∀ a bs, hostTurn s = some (a, bs) → enabled a s = false := by
      intro a bs ht
      obtain ⟨hn, -⟩ | ⟨-, hi, -⟩ := hostTurn_some ht
      · rw [hw] at hn; cases hn
      · by_cases ha : a = .reset
        · subst ha; exact absurd (hostResets_of_hostTurn ht) (hres bs)
        · exact hen a bs (hostGoesOn_of_hostTurn ht hi ha)
    have hex := exec_wrhdr_of_coded hr hp
    obtain ⟨-, hh, -⟩ := exec_frame hex
    have hturn := headerTurn_withScript hp s.host.script
    have held : withScript s.host.script ((headerStep s).getD s) = (headerStep s).getD s := by rw [← hh, withScript_self]
    rw [withScript_self, held, hs] at hturn
    exact ⟨_, hex, by rw [step_of_headerWaits hw quiet, hturn]; rfl⟩
  · obtain ⟨hr, -, hp⟩ := ready_of_headerWaits hw
    have ht : HostGoesOn s .beatStep (.issue w :: as) := ⟨nofun, nofun, .inr ⟨hw, _, _, hs, rfl⟩⟩
    refine ⟨_, exec_wrhdr_of_coded hr hp, ?_⟩
    rw [ht.step_eq rfl, performAction, turn_of_headerWaits _ hw, headerTurn_withScript hp]
    rfl

/-- Settles O6: a port that is closed holds the word, and nothing waits for room there. -/
theorem wordIsHeldWhenNotAccepted : Obligations.WordIsHeldWhenNotAccepted := by
  refine ⟨fun s w as hs hr => ?_, fun s h => ?_⟩
  · have hw : s.headerWaits = false := by
      rw [← Bool.not_eq_true, headerWaits_iff, hr]
      rintro ⟨-, h, -⟩
      cases h
    have hstep : step s = .next (blockTurn s) := by
      rw [step_of_held (hostTurn_of_head hs hw) hr, heldTurn_of_ne (a := .issue w) nofun, turn_of_quiet _ hw, withScript_self]
    exact ⟨hstep, (blockTurn_frame s).2, fun hc => by rw [hstep, blockTurn_of_idle hc]⟩
  · have hb : beatStep s = none := by
      cases hb : beatStep s with
      | none => rfl
      | some t =>
        obtain ⟨b, rest, hbusy, hq, -⟩ := beatStep_some hb
        obtain hc | hi := h
        · exact absurd hc ((busy_iff s).1 hbusy)
        · rw [hi] at hq; cases hq
    exact ⟨hb, by rw [blockTurn, hb]; rfl⟩

/-! ## CUR after a command (R31, R73) -/

/-- An atomic command is accepted with CUR = NONE, and does not write it (R73). -/
theorem exec_cur_of_atomic {i : Instr} {s t : State} (hi : i ∈ [Instr.clear, .build, .gencode, .wrhdr, .halt])
    (h : exec i s = .next t) : t.cur = .none := by
  have idle : s.ready = true → s.cur = .none := fun hr => ((ready_iff s).1 hr).1
  simp only [List.mem_cons, List.not_mem_nil, or_false] at hi
  obtain rfl | rfl | rfl | rfl | rfl := hi
  · obtain ⟨hr, ⟨-, rfl⟩ | ⟨-, rfl⟩⟩ := execClear_next h <;> exact idle hr
  · obtain ⟨hr, ⟨-, rfl⟩ | ⟨-, rfl⟩⟩ := execBuild_next h <;> exact idle hr
  · obtain ⟨hr, ⟨-, ct, -, rfl⟩ | ⟨-, rfl⟩⟩ := execGencode_next h <;> exact idle hr
  · obtain ⟨hr, ⟨-, rfl⟩ | ⟨-, rfl⟩⟩ := execWrhdr_next h
    · obtain hs | ⟨-, hs⟩ := headerStep_getD_cases s
      · exact (headerStep_appends hs).1.trans (idle hr)
      · rw [hs, idle hr]
    · exact idle hr
  · obtain ⟨hr, ⟨-, rfl⟩ | ⟨-, rfl⟩⟩ := execHalt_next h <;> exact idle hr

/-- Settles O7: an atomic command leaves CUR at NONE, where it was; a stream command in its phase writes it. -/
theorem atomicCommandsNeverShowBusy : Obligations.AtomicCommandsNeverShowBusy := by
  refine ⟨fun i s t hi h => (busy_eq_false_iff t).2 (exec_cur_of_atomic hi h), fun s t h hl => ?_, fun s t h hl => ?_,
    fun s t h hl => ?_, fun s t h hl => ?_, fun s t h hl => ?_⟩
  · obtain ⟨-, ⟨-, rfl⟩ | ⟨hn, -⟩⟩ := execScan_next h
    exacts [rfl, absurd hl (by rw [hn]; nofun)]
  · obtain ⟨-, ⟨-, rfl⟩ | ⟨hn, -⟩⟩ := execEncode_next h
    exacts [rfl, absurd hl (by rw [hn]; nofun)]
  · obtain ⟨-, ⟨-, rfl⟩ | ⟨hn, -⟩⟩ := execRdhdr_next h
    exacts [rfl, absurd hl (by rw [hn]; nofun)]
  · obtain ⟨-, ⟨-, rfl⟩ | ⟨hn, -⟩⟩ := execDecode_next h
    exacts [rfl, absurd hl (by rw [hn]; nofun)]
  · obtain ⟨-, ⟨-, rfl⟩ | ⟨hn, -⟩⟩ := execDrain_next h
    exacts [rfl, absurd hl (by rw [hn]; nofun)]

end Sys2Proof.Safety
end

section
/-! PROOFS. The ports (R62 to R66): an inspection, a push and a pop change nothing but their own port; what a step does to the
two queues (R80). -/

namespace Sys2Proof.Safety

open Sys2Proof Sys2Proof.Machine

/-- Settles O51: an inspection is always enabled and writes the host's record; the architected word does not depend on it. -/
theorem inspectionIsReadOnly : Obligations.InspectionIsReadOnly := by
  intro s addr as h
  refine ⟨inspectWord s addr, if isDraw s addr then s.host.draws + 1 else s.host.draws, h.step_eq rfl, ?_, ?_⟩
  · intro hc
    have hd : isDraw s addr = false := by
      obtain hb | rfl | rfl := hc
      · rw [isDraw, hb, Bool.false_and]
      · exact Bool.and_false _
      · exact Bool.and_false _
    simp [inspectWord, hd]
  · intro hb h0 h1
    have hd : isDraw s addr = true := by simp [isDraw, hb, alwaysArchitected, h0, h1]
    simp [inspectWord, hd]

/-! ## A held push or pop (R61, R84, log 2, log 6) -/

/-- With no word waiting, a held action leaves the turn to the block. -/
theorem turn_of_held {s : State} (hw : s.headerWaits = false) : turn s.host.script s = blockTurn s := by
  rw [turn_of_quiet _ hw, withScript_self]

/-- While a word waits, an action held behind it stays in the script, and no queue is taken from. -/
theorem step_held_behind {s : State} {a : Action} {as : List Action} (h : HostGoesOn s a as) (hw : s.headerWaits = true)
    (he : enabled a s = false) : ∃ t, step s = .next t ∧ t.inq = s.inq ∧ t.host.popped = s.host.popped ∧
      a ∈ t.host.script := by
  obtain ⟨-, hc, -⟩ := ready_of_headerWaits hw
  have ht := h.hostTurn_eq
  obtain ⟨-, -, ⟨hn, -⟩ | ⟨-, w, bs, hs, -⟩⟩ := h
  · rw [hw] at hn; cases hn
  refine ⟨headerTurn s, ?_, ?_⟩
  · rw [step_of_held ht he, heldTurn_of_idle hc, turn_of_headerWaits _ hw, withScript_self]
  · obtain ⟨-, e⟩ | ⟨t, ht, -, e⟩ | ⟨t, ht, -, e⟩ := headerTurn_cases s <;> rw [e]
    · exact ⟨rfl, rfl, by simp [hs]⟩
    · obtain ⟨-, hh, hi⟩ := headerStep_frame ht
      exact ⟨hi, by rw [hh], by simp [hh, hs]⟩
    · obtain ⟨-, hh, hi⟩ := headerStep_frame ht
      exact ⟨hi, by rw [withScript_host, hh], by simp [hs]⟩

/-! ## INQ (R62) -/

/-- A push is enabled exactly when INQ stays within IN_DEPTH (R62). -/
theorem inRoom_iff (s : State) (b : Beat) : s.inRoom = true ↔ withinDepth s.cfg.inDepth (s.inq ++ [b]) := by
  refine ⟨fun h => withinDepth_pushIn h b, fun h => ?_⟩
  unfold State.inRoom
  cases hd : s.cfg.inDepth with
  | none => rfl
  | some d =>
    rw [hd] at h
    change (s.inq ++ [b]).length ≤ d at h
    rw [List.length_append] at h
    exact decide_eq_true h

/-- The block's turn takes the head of INQ while BUSY = 1, or leaves INQ alone (R74). -/
theorem blockTurn_inq (s : State) : (blockTurn s).inq = s.inq ∨ (s.busy = true ∧ ∃ b, s.inq = b :: (blockTurn s).inq) := by
  obtain h | ⟨-, h⟩ := blockTurn_cases s
  · obtain ⟨b, rest, hb, hq, e, -⟩ := beatStep_some h
    obtain ⟨-, -, hi, -⟩ := beatEffect_ports { s with inq := rest } b
    exact .inr ⟨hb, b, by rw [hq, e, hi]⟩
  · exact .inl (by rw [h])

/-- The turn takes the head of INQ while BUSY = 1, or leaves INQ alone. -/
theorem turn_inq (as : List Action) (s : State) :
    (turn as s).inq = s.inq ∨ (s.busy = true ∧ ∃ b, s.inq = b :: (turn as s).inq) := by
  obtain ⟨-, e⟩ | ⟨-, e⟩ := turn_cases as s <;> rw [e]
  · exact blockTurn_inq (withScript as s)
  · left
    obtain ⟨-, e⟩ | ⟨t, h, -, e⟩ | ⟨t, h, -, e⟩ := headerTurn_cases (withScript as s) <;> rw [e]
    · rfl
    · exact (headerStep_frame h).2.2
    · exact (headerStep_frame h).2.2

/-- Everything a step can do to INQ (R62, R74, R290). -/
theorem step_inq {s t : State} (h : step s = .next t) :
    t.inq = s.inq ∨ (∃ b as, HostGoesOn s (.pushIn b) as ∧ t.inq = s.inq ++ [b]) ∨
    (s.busy = true ∧ ∃ b, s.inq = b :: t.inq) ∨ (∃ as, HostResets s as ∧ t.inq = []) := by
  have byTurn : ∀ as, t = turn as s → t.inq = s.inq ∨ (s.busy = true ∧ ∃ b, s.inq = b :: t.inq) := by
    rintro as rfl; exact turn_inq as s
  obtain e | ⟨as, -, e⟩ | ⟨w, as, -, -, -, ⟨-, -, e⟩ | ⟨i, -, e⟩⟩ | ⟨b, as, ht, -, e⟩ | ⟨b, rest, as, -, -, e⟩ |
    ⟨addr, as, -, e⟩ | ⟨as, ht, e⟩ | ⟨as, -, e⟩ := step_cases h
  · exact (byTurn _ e).imp_right fun hb => .inr (.inl hb)
  · exact (byTurn _ e).imp_right fun hb => .inr (.inl hb)
  · exact .inl (by rw [e]; rfl)
  · exact .inl (exec_frame e).2.2
  · exact .inr (.inl ⟨b, as, hostGoesOn_of_hostTurn ht nofun nofun, by rw [e]⟩)
  · exact .inl (by rw [e])
  · exact .inl (by rw [e]; rfl)
  · exact .inr (.inr (.inr ⟨as, hostResets_of_hostTurn ht, by rw [e]; rfl⟩))
  · obtain ⟨b, rest, as', hb, hq, -, -, -, -, e⟩ := handOver_some e
    obtain ⟨-, -, hi, -⟩ := beatEffect_ports { s with inq := rest } b
    exact .inr (.inr (.inl ⟨hb, b, by rw [hq, e, takeOut_inq, withScript_inq, hi]⟩))

/-- Settles O54: by the cases of a step; a push is enabled exactly with room for its beat. -/
theorem inQueueIsFirstInFirstOut : Obligations.InQueueIsFirstInFirstOut := by
  refine ⟨fun s t h => step_inq h, fun s b as h hd => h.step_eq ((inRoom_iff s b).2 hd), fun s b as h hd => ?_⟩
  have he : enabled (.pushIn b) s = false := Bool.eq_false_of_not_eq_true fun hr => hd ((inRoom_iff s b).1 hr)
  refine ⟨fun hw => ⟨?_, (blockTurn_frame s).2⟩, fun hw => ?_⟩
  · rw [step_of_held h.hostTurn_eq he, heldTurn_of_ne (a := .pushIn b) nofun, turn_of_held hw]
  · obtain ⟨t, hs, hi, -, hm⟩ := step_held_behind h hw he
    exact ⟨t, hs, hi, hm⟩

/-! ## OUTQ (R63) -/

/-- A beat of `s` appends beats to OUTQ, and only one of ENCODE or DECODE appends any (R63). -/
theorem beatEffect_appends (s : State) (rest : List Beat) (b : Beat) :
    (beatEffect { s with inq := rest } b).outq = s.outq ∨
    ((∃ out, (beatEffect { s with inq := rest } b).outq = s.outq ++ out) ∧ (s.cur = .encode ∨ s.cur = .decode)) := by
  by_cases hc : s.cur = .encode ∨ s.cur = .decode
  · obtain ⟨out, ho, -⟩ := beatEffect_ports { s with inq := rest } b
    exact .inr ⟨⟨out, ho⟩, hc⟩
  · rw [not_or] at hc
    exact .inl (beatEffect_quiet (s := { s with inq := rest }) hc.1 hc.2 b)

/-- What a turn may append to OUTQ: beats of ENCODE or DECODE, or of the header of a WRHDR word at CMD. -/
def Appends (s t : State) : Prop :=
  (∃ pushed, t.outq = s.outq ++ pushed) ∧
    (s.cur = .encode ∨ s.cur = .decode ∨ (s.phase = .coded ∧ ∃ as, s.host.script = .issue 0x05#8 :: as))

/-- The turn leaves OUTQ alone, or appends to it (R63). -/
theorem turn_outq (as : List Action) (s : State) : (turn as s).outq = s.outq ∨ Appends s (turn as s) := by
  obtain ⟨-, e⟩ | ⟨hw, e⟩ := turn_cases as s <;> rw [e]
  · obtain h | ⟨-, h⟩ := blockTurn_cases (withScript as s)
    · obtain ⟨b, rest, -, -, e, -⟩ := beatStep_some h
      rw [e]
      exact (beatEffect_appends (withScript as s) rest b).imp_right fun ⟨ho, hc⟩ => ⟨ho, hc.imp_right .inl⟩
    · rw [h]; exact .inl rfl
  · obtain ⟨hs, -, hp, -⟩ := (headerWaits_iff s).1 hw
    obtain ⟨-, e⟩ | ⟨t, h, -, e⟩ | ⟨t, h, -, e⟩ := headerTurn_cases (withScript as s) <;> rw [e]
    · exact .inl rfl
    · exact .inr ⟨(headerStep_appends h).2, .inr (.inr ⟨hp, hs⟩)⟩
    · exact .inr ⟨(headerStep_appends h).2, .inr (.inr ⟨hp, hs⟩)⟩

/-- A command leaves OUTQ alone, or is WRHDR in CODED and appends to it (R63). -/
theorem exec_appends {i : Instr} {s t : State} (h : exec i s = .next t) :
    t.outq = s.outq ∨ (i = .wrhdr ∧ s.phase = .coded ∧ ∃ out, t.outq = s.outq ++ out) := by
  by_cases hi : i = .wrhdr
  · subst hi
    obtain ⟨-, ⟨hp, rfl⟩ | ⟨-, rfl⟩⟩ := execWrhdr_next h
    · obtain hs | ⟨-, hs⟩ := headerStep_getD_cases s
      · exact .inr ⟨rfl, hp, (headerStep_appends hs).2⟩
      · exact .inl (by rw [hs])
    · exact .inl rfl
  · exact .inl (exec_outq hi h).1

/-- A beat is handed over only while ENCODE or DECODE runs: no other pushes more beats than OUTQ holds. -/
theorem handOver_cur {s t : State} (h : handOver s = some t) : s.cur = .encode ∨ s.cur = .decode := by
  obtain ⟨b, rest, as, -, -, ho, -, he, -⟩ := handOver_some h
  obtain hq | ⟨-, hc⟩ := beatEffect_appends s rest b
  · refine absurd ((excess_eq_zero s _).2 ?_) he
    rw [hq, ho]
    exact fits_of_room (room_zero s)
  · exact hc

/-- Everything a step can do to OUTQ and to what the host has received (R63, R74, R290, R309). -/
theorem step_outq {s t : State} (h : step s = .next t) :
    (t.outq = s.outq ∧ t.host.popped = s.host.popped) ∨
    (∃ b, s.outq = b :: t.outq ∧ t.host.popped = s.host.popped ++ [b]) ∨
    (∃ as, HostResets s as ∧ t.outq = [] ∧ t.host.popped = s.host.popped) ∨
    (t.host.popped = s.host.popped ∧ Appends s t) ∨
    (s.outq = [] ∧ (s.cur = .encode ∨ s.cur = .decode) ∧ (∃ as, HostGoesOn s .popOut as) ∧
      ∃ (pushed : List Beat) (n : Nat), t.outq = pushed.drop n ∧ t.host.popped = s.host.popped ++ pushed.take n) := by
  have kept : t.host.popped = s.host.popped → (t.outq = s.outq ∨ Appends s t) →
      (t.outq = s.outq ∧ t.host.popped = s.host.popped) ∨ (t.host.popped = s.host.popped ∧ Appends s t) :=
    fun hp ho => ho.imp (⟨·, hp⟩) (⟨hp, ·⟩)
  have byTurn : ∀ as, t = turn as s →
      (t.outq = s.outq ∧ t.host.popped = s.host.popped) ∨ (t.host.popped = s.host.popped ∧ Appends s t) := by
    rintro as rfl; exact kept (turn_frame as s).2.1 (turn_outq as s)
  obtain e | ⟨as, -, e⟩ | ⟨w, as, hs, -, -, ⟨-, -, e⟩ | ⟨i, hd, e⟩⟩ | ⟨b, as, -, -, e⟩ | ⟨b, rest, as, -, ho, e⟩ |
    ⟨addr, as, -, e⟩ | ⟨as, ht, e⟩ | ⟨as, ht, e⟩ := step_cases h
  · exact (byTurn _ e).imp_right fun ha => .inr (.inr (.inl ha))
  · exact (byTurn _ e).imp_right fun ha => .inr (.inr (.inl ha))
  · exact .inl ⟨by rw [e]; rfl, by rw [e]; rfl⟩
  · have hp : t.host.popped = s.host.popped := by rw [(exec_frame e).2.1]; rfl
    refine (kept hp ((exec_appends e).imp_right ?_)).imp_right fun ha => .inr (.inr (.inl ha))
    rintro ⟨rfl, hc, ho⟩
    rw [eq_encode_wrhdr_of_decode hd] at hs
    exact ⟨ho, .inr (.inr ⟨hc, as, hs⟩)⟩
  · exact .inl ⟨by rw [e]; rfl, by rw [e]; rfl⟩
  · exact .inr (.inl ⟨b, by rw [ho, e], by rw [e]⟩)
  · exact .inl ⟨by rw [e]; rfl, by rw [e]; rfl⟩
  · exact .inr (.inr (.inl ⟨as, hostResets_of_hostTurn ht, by rw [e]; rfl, by rw [e]; rfl⟩))
  · have hc := handOver_cur e
    obtain ⟨b, rest, as', -, -, ho, -, -, -, e⟩ := handOver_some e
    obtain ⟨-, hh⟩ := beatEffect_frame { s with inq := rest } b
    exact .inr (.inr (.inr (.inr ⟨ho, hc, ⟨as, hostGoesOn_of_hostTurn ht nofun nofun⟩, _, _, by rw [e]; rfl,
      by rw [e, takeOut_host, withScript_host, hh]⟩)))

/-- A pop of an empty OUTQ is not enabled (R83). -/
theorem enabled_popOut_of_nil {s : State} (h : s.outq = []) : enabled .popOut s = false := by simp [enabled, h]

/-- A pop of a non-empty OUTQ hands its head to the host, and does nothing else (R63). -/
theorem step_of_pop {s : State} {b : Beat} {rest : List Beat} {as : List Action} (h : HostGoesOn s .popOut as)
    (ho : s.outq = b :: rest) : step s = .next { s with
      outq := rest, host := { s.host with script := as, popped := s.host.popped ++ [b] } } := by
  rw [h.step_eq (by simp [enabled, ho])]
  simp only [performAction, popOut, takeOut, withScript_outq, withScript_host, ho]
  rfl

/-- A beat that pushes more beats than OUT_DEPTH is one step with the pops of what finds no place (R74, R309, log 6). -/
theorem step_of_handOver {s : State} {b : Beat} {rest : List Beat} {d n : Nat} {more : List Action} (hb : s.busy = true)
    (hq : s.inq = b :: rest) (ho : s.outq = []) (hd : s.cfg.outDepth = some d) (h1 : 1 ≤ d)
    (hn : n = (beatEffect { s with inq := rest } b).outq.length - d) (h0 : n ≠ 0)
    (hs : s.host.script = List.replicate n .popOut ++ more) :
    step s = .next (takeOut n (withScript more (beatEffect { s with inq := rest } b))) := by
  have hex := excess_eq hd (beatEffect { s with inq := rest } b).outq.length
  rw [← hn] at hex
  have hover : handOver s = some (takeOut n (withScript more (beatEffect { s with inq := rest } b))) := by
    rw [← hex]
    exact handOver_eq hb hq ho ((room_iff hd 1).2 (by rw [ho]; exact h1)) (by rw [hex]; exact h0)
      (by rw [hex, hs, afterPops_replicate])
  have hscr : s.host.script = .popOut :: (List.replicate (n - 1) .popOut ++ more) := by
    rw [hs, ← List.cons_append, ← List.replicate_succ, Nat.sub_add_cancel (Nat.one_le_iff_ne_zero.2 h0)]
  rw [step_of_held (hostTurn_of_head hscr (headerWaits_of_head hscr nofun)) (enabled_popOut_of_nil ho), heldTurn, hover]
  rfl

/-- Settles O55: by the cases of a step; a pop is enabled exactly with a beat in OUTQ, and is held else. -/
theorem outQueueIsFirstInFirstOut : Obligations.OutQueueIsFirstInFirstOut := by
  refine ⟨fun s t h => step_outq h, fun s b rest as h ho => step_of_pop h ho, fun s as h ho => ⟨fun hw hn => ⟨?_, ?_⟩, fun hw => ?_⟩,
    fun s h => handOver_of_fits h, fun s b rest pushed d more hc hq ho hp hd h1 hlt hs => ?_⟩
  · rw [step_of_held h.hostTurn_eq (enabled_popOut_of_nil ho), heldTurn, hn, Option.getD_none, turn_of_held hw]
  · exact (blockTurn_frame s).2
  · obtain ⟨t, hs, -, hpop, hm⟩ := step_held_behind h hw (enabled_popOut_of_nil ho)
    exact ⟨t, hs, hpop, hm⟩
  · obtain ⟨-, hh⟩ := beatEffect_frame { s with inq := rest } b
    rw [step_of_handOver ((busy_iff s).2 hc) hq ho hd h1 (by rw [hp]) (by omega) hs, takeOut, withScript_host, hh,
      withScript_outq, hp]
    rfl

end Sys2Proof.Safety
end

section
/-! PROOFS. The interleaving of host and block changes nothing the block computes (R79), and neither does a finite OUT_DEPTH
(R77, R84 (b), log 6): beats pushed into a finite OUTQ are popped or still there. -/

namespace Sys2Proof.Safety

open Sys2Proof Sys2Proof.Machine

/-! ## A push and a pop beside the block's step (R79) -/

/-- `f` is a step that stays enabled with more beats behind those in INQ and with a shorter OUTQ, does the same there, and
appends the same beats. -/
def QueueFree (f : State → Option State) : Prop :=
  ∀ s t, f s = some t → ∃ out, t.outq = s.outq ++ out ∧ ∀ more o, o.length ≤ s.outq.length →
    f { s with inq := s.inq ++ more, outq := o } = some { t with inq := t.inq ++ more, outq := o ++ out }

/-- Room depends on OUTQ only, and a shorter OUTQ has no less of it (R84 (b)). -/
theorem room_of_shorter {s : State} {n : Nat} (h : s.room n = true) (q : List Beat) {o : List Beat}
    (ho : o.length ≤ s.outq.length) : State.room { s with inq := q, outq := o } n = true := by
  cases hd : s.cfg.outDepth with
  | none => exact room_unbounded (by exact hd) n
  | some d =>
    rw [room_iff hd] at h
    exact (room_iff (by exact hd) n).2 (h.trans (Nat.sub_le_sub_left ho d))

/-- A beat that has been popped does the same beside another host and other queues, and appends the same beats to OUTQ. -/
theorem beatEffect_queues (s : State) (rest : List Beat) (b : Beat) : ∃ out,
    (beatEffect { s with inq := rest } b).outq = s.outq ++ out ∧ (beatEffect { s with inq := rest } b).inq = rest ∧
    ∀ h q o, beatEffect { s with host := h, inq := q, outq := o } b =
      { beatEffect { s with inq := rest } b with host := h, inq := q, outq := o ++ out } := by
  obtain ⟨out, ho, hi, hs, hports⟩ := beatEffect_ports { s with inq := rest } b
  obtain ⟨hcfg, -⟩ := beatEffect_frame { s with inq := rest } b
  refine ⟨out, ho, hi, fun h q o => (hports h q o s.sent s.cfg.outDepth).trans ?_⟩
  generalize beatEffect { s with inq := rest } b = e at hs hcfg ⊢
  change e.sent = s.sent at hs
  change e.cfg = s.cfg at hcfg
  rw [← hs, ← hcfg]
  rfl

theorem beatStep_queueFree : QueueFree beatStep := by
  intro s t h
  obtain ⟨b, rest, hb, hq, rfl, hroom⟩ := beatStep_some h
  obtain ⟨out, ho, hi, hqueues⟩ := beatEffect_queues s rest b
  have hh : (beatEffect { s with inq := rest } b).host = s.host := (beatEffect_frame { s with inq := rest } b).2
  rw [pushedBeats_eq ho] at hroom
  refine ⟨out, ho, fun more o hle => ?_⟩
  have he := hqueues s.host (rest ++ more) o
  generalize beatEffect { s with inq := rest } b = e at he hh hi ⊢
  have same : { e with inq := e.inq ++ more, outq := o ++ out } =
      { e with host := s.host, inq := rest ++ more, outq := o ++ out } := by rw [hi, ← hh]
  rw [same, ← he]
  refine beatStep_of_room (by exact hb) (by rw [hq]; rfl) ?_
  rw [pushedBeats_eq (by rw [he])]
  exact room_of_shorter hroom _ hle

/-- A header that no OUTQ of this depth takes whole is pushed beat by beat (R73, log 6). -/
theorem headerStep_of_split {s : State} (hf : s.fits (headerBytes s).length = false) (h1 : s.room 1 = true) :
    headerStep s = some (pushHeaderBeat s) := by
  have hroom : s.room (headerBytes s).length = false := by
    rw [← Bool.not_eq_true]
    exact fun hr => absurd (fits_of_room hr) (by rw [hf]; nofun)
  simp [headerStep, hroom, hf, h1]

theorem headerStep_queueFree : QueueFree headerStep := by
  intro s t h
  obtain ⟨hr, rfl⟩ | ⟨hf, h1, rfl⟩ := headerStep_some h
  · exact ⟨dataBeats (headerBytes s), rfl, fun more o hle => headerStep_of_room (room_of_shorter hr _ hle)⟩
  · have hstep : ∀ more o, o.length ≤ s.outq.length → headerStep { s with inq := s.inq ++ more, outq := o } =
        some (pushHeaderBeat { s with inq := s.inq ++ more, outq := o }) :=
      fun more o hle => headerStep_of_split hf (room_of_shorter h1 _ hle)
    obtain ⟨hle, e⟩ | ⟨hlt, e⟩ := pushHeaderBeat_cases s <;> rw [e]
    · refine ⟨_, rfl, fun more o ho => (hstep more o ho).trans ?_⟩
      obtain ⟨-, e'⟩ | ⟨h', -⟩ := pushHeaderBeat_cases { s with inq := s.inq ++ more, outq := o }
      · rw [e']; rfl
      · exact absurd h' (Nat.not_lt.2 hle)
    · refine ⟨_, rfl, fun more o ho => (hstep more o ho).trans ?_⟩
      obtain ⟨h', -⟩ | ⟨-, e'⟩ := pushHeaderBeat_cases { s with inq := s.inq ++ more, outq := o }
      · exact absurd hlt (Nat.not_lt.2 h')
      · rw [e']; rfl

/-- A push commutes with such a step (R79). -/
theorem QueueFree.push {f : State → Option State} (hf : QueueFree f) {s t : State} (h : f s = some t) (b : Beat) :
    f { s with inq := s.inq ++ [b] } = some { t with inq := t.inq ++ [b] } := by
  obtain ⟨out, ho, hstep⟩ := hf s t h
  have := hstep [b] s.outq le_rfl
  rwa [← ho] at this

/-- A pop commutes with such a step (R79). -/
theorem QueueFree.pop {f : State → Option State} (hf : QueueFree f) {s t : State} {b : Beat} {rest : List Beat}
    (hq : s.outq = b :: rest) (h : f s = some t) :
    f { s with outq := rest } = some { t with outq := t.outq.tail } ∧ t.outq.head? = some b := by
  obtain ⟨out, ho, hstep⟩ := hf s t h
  have := hstep [] rest (by rw [hq]; exact Nat.le_succ _)
  rw [List.append_nil, List.append_nil] at this
  rw [ho, hq]
  exact ⟨this, rfl⟩

/-! ## A host that pops (R63, R84 (b), log 6) -/

/-- What the host's pops of the whole of OUTQ lead to, with `m` more pops to come. -/
def popAll (m : Nat) (u : State) : State :=
  { u with outq := [], host := { u.host with script := List.replicate m .popOut, popped := u.host.popped ++ u.outq } }

/-- The host pops one beat a step until OUTQ is empty. -/
theorem runs_popAll (q : List Beat) : ∀ {u : State} {m : Nat}, u.outq = q →
    u.host.script = List.replicate (q.length + m) .popOut → runs q.length u (popAll m u) := by
  induction q with
  | nil =>
    intro u m ho hs
    have e : popAll m u = u := by
      rw [List.length_nil, Nat.zero_add] at hs
      rw [popAll, ← hs, ho, List.append_nil, ← ho]
    rw [e]
    exact runs_zero u
  | cons b q ih =>
    intro u m ho hs
    rw [List.length_cons, Nat.add_right_comm, List.replicate_succ] at hs
    have hstep := step_of_pop ⟨nofun, nofun, .inl ⟨headerWaits_of_head hs nofun, hs⟩⟩ ho
    have hrest := runs_succ hstep (ih (m := m) rfl rfl)
    rwa [popAll, List.append_assoc, List.singleton_append, ← ho] at hrest

/-- At an empty OUTQ a host that pops, or is done, leaves the block its turn, if nothing is to be handed over. -/
theorem step_of_waiting_pops {u : State} {m : Nat} (hs : u.host.script = List.replicate m .popOut) (ho : u.outq = [])
    (hn : handOver u = none) : step u = .next (blockTurn u) := by
  cases m with
  | zero => exact step_of_quiet hs
  | succ m =>
    have hw := headerWaits_of_head hs nofun
    rw [step_of_held (hostTurn_of_head hs hw) (enabled_popOut_of_nil ho), heldTurn, hn, Option.getD_none, turn_of_held hw]

/-- An empty OUTQ has room for all that fits (R84 (b)). -/
theorem room_of_fits {s : State} {n : Nat} (ho : s.outq = []) (h : s.fits n = true) : s.room n = true := by
  cases hd : s.cfg.outDepth with
  | none => exact room_unbounded hd n
  | some d =>
    rw [fits_iff hd] at h
    rwa [room_iff hd, ho]

/-- A beat at an empty OUTQ is one step while the host pops, whatever the OUT_DEPTH but 0: its beats are handed over or in
OUTQ. -/
theorem step_of_beat_at_empty {u : State} {b : Beat} {rest : List Beat} (hb : u.busy = true) (hq : u.inq = b :: rest)
    (ho : u.outq = []) (hd : u.cfg.outDepth ≠ some 0) {m : Nat}
    (hs : u.host.script = List.replicate ((beatEffect { u with inq := rest } b).outq.length + m) .popOut) :
    ∃ t k, step u = .next t ∧ t = { beatEffect { u with inq := rest } b with host := t.host, outq := t.outq } ∧
      t.host.script = List.replicate (m + k) .popOut ∧
      t.host.popped ++ t.outq = u.host.popped ++ (beatEffect { u with inq := rest } b).outq := by
  obtain ⟨-, hh⟩ := beatEffect_frame { u with inq := rest } b
  generalize he : beatEffect { u with inq := rest } b = e at hs hh
  by_cases hf : u.fits e.outq.length = true
  · have hover : handOver u = none := by
      refine handOver_of_fits fun b' rest' hq' => ?_
      rw [hq] at hq'
      cases hq'
      rw [he]; exact hf
    have hroom : u.room (pushedBeats u e).length = true := by
      rw [pushedBeats, ho]
      exact room_of_fits ho hf
    have hturn : blockTurn u = e := blockTurn_of_beatStep (by rw [beatStep_of_room hb hq (by rw [he]; exact hroom), he])
    refine ⟨e, e.outq.length, ?_, rfl, ?_, by rw [hh]⟩
    · rw [step_of_waiting_pops hs ho hover, hturn]
    · rw [hh, Nat.add_comm m]; exact hs
  · obtain ⟨d, hd'⟩ : ∃ d, u.cfg.outDepth = some d := by
      cases hd' : u.cfg.outDepth with
      | none => exact absurd (by simp [State.fits, hd']) hf
      | some d => exact ⟨d, rfl⟩
    rw [fits_iff hd'] at hf
    have h1 : 1 ≤ d := Nat.one_le_iff_ne_zero.2 fun h0 => hd (by rw [hd', h0])
    have hscr : u.host.script = List.replicate (e.outq.length - d) .popOut ++ List.replicate (m + d) .popOut := by
      rw [hs, List.replicate_append_replicate]
      congr 1
      omega
    have hstep := step_of_handOver hb hq ho hd' h1 (by rw [he]) (by omega) hscr
    rw [he] at hstep
    refine ⟨_, d, hstep, rfl, rfl, ?_⟩
    rw [takeOut_host, takeOut_outq, withScript_host, withScript_outq, hh, List.append_assoc, List.take_append_drop]

/-- A beat of a stream command while the host pops, whatever the OUT_DEPTH but 0: it happens as with room for all its beats, and
its beats are handed over or in OUTQ, behind those that were there. -/
theorem runs_of_beat {u : State} {b : Beat} {rest : List Beat} (hb : u.busy = true) (hq : u.inq = b :: rest)
    (hd : u.cfg.outDepth ≠ some 0) {m : Nat}
    (hs : u.host.script = List.replicate ((beatEffect { u with inq := rest } b).outq.length + m) .popOut) :
    ∃ n t k, runs n u t ∧ t = { beatEffect { u with inq := rest } b with host := t.host, outq := t.outq } ∧
      t.host.script = List.replicate (m + k) .popOut ∧
      t.host.popped ++ t.outq = u.host.popped ++ (beatEffect { u with inq := rest } b).outq := by
  obtain ⟨out, ho, hi, hqueues⟩ := beatEffect_queues u rest b
  generalize beatEffect { u with inq := rest } b = e at hs ho hi hqueues ⊢
  rw [ho, List.length_append, Nat.add_assoc] at hs
  have he : beatEffect { popAll (out.length + m) u with inq := rest } b =
      { e with host := (popAll (out.length + m) u).host, inq := rest, outq := out } := hqueues _ rest []
  obtain ⟨t, k, hstep, ht, hscr, hbeats⟩ :=
    step_of_beat_at_empty (u := popAll (out.length + m) u) hb hq rfl hd (by rw [he]; rfl)
  rw [he] at ht hbeats
  refine ⟨_, t, k, runs_add (runs_popAll u.outq rfl hs) (runs_one hstep), ht.trans ?_, hscr, ?_⟩
  · rw [← hi]
  · rw [hbeats, ho, ← List.append_assoc]
    rfl

/-! ## A run with an unbounded OUTQ and one with a finite one (R77, log 6) -/

/-- `u` is the block of `a` with OUT_DEPTH `d`, before another host: what stands in OUTQ of `a` has been received by the host of
`u` or stands in OUTQ there, behind the beats `before`. -/
structure Mirrors (d : Option Nat) (before : List Beat) (a u : State) : Prop where
  block : u = a.withPorts u.host a.inq u.outq a.sent d
  beats : u.host.popped ++ u.outq = before ++ a.outq

/-- A run of one step more begins with a step. -/
theorem runs_succ_iff {n : Nat} {s u : State} : runs (n + 1) s u ↔ ∃ t, step s = .next t ∧ runs n t u := by
  refine ⟨fun h => ?_, fun ⟨t, hs, hr⟩ => runs_succ hs hr⟩
  simp only [runs, Host.Core.run, Sys2Proof.core] at h
  cases hs : step s with
  | next t => rw [hs] at h; exact ⟨t, rfl, h⟩
  | fault r => rw [hs] at h; cases h
  | refused r => rw [hs] at h; cases h

/-- No run changes a parameter (R8). -/
theorem runs_cfg : ∀ {n : Nat} {s t : State}, runs n s t → t.cfg = s.cfg
  | 0, _, _, h => by cases h; rfl
  | _ + 1, _, _, h => by
    obtain ⟨_, hs, hr⟩ := runs_succ_iff.1 h
    exact (runs_cfg hr).trans (step_cfg hs)

/-- What a beat does to the block, it does to the block with another OUT_DEPTH while the host pops. -/
theorem Mirrors.beat {d : Option Nat} {before : List Beat} {a a' u : State} (hm : Mirrors d before a u) (hd : d ≠ some 0)
    (h : beatStep a = some a') {m : Nat} (hs : u.host.script = List.replicate ((before ++ a'.outq).length + m) .popOut) :
    ∃ n t k, runs n u t ∧ Mirrors d before a' t ∧ t.host.script = List.replicate (m + k) .popOut := by
  obtain ⟨b, rest, hb, hq, rfl, -⟩ := beatStep_some h
  obtain ⟨out, ho, hi, hsent, hports⟩ := beatEffect_ports { a with inq := rest } b
  obtain ⟨hblock, hbeats⟩ := hm
  have hu : ({ u with inq := rest } : State) = ({ a with inq := rest } : State).withPorts u.host rest u.outq a.sent d :=
    congrArg (fun v : State => { v with inq := rest }) hblock
  have he := hports u.host rest u.outq a.sent d
  rw [← hu] at he
  generalize beatEffect { a with inq := rest } b = a' at hs ho hi hsent he ⊢
  change a'.outq = a.outq ++ out at ho
  change a'.inq = rest at hi
  change a'.sent = a.sent at hsent
  have hlen : (before ++ a'.outq).length = u.host.popped.length + (u.outq ++ out).length := by
    rw [ho, ← List.append_assoc, ← hbeats, List.append_assoc, List.length_append]
  rw [hlen, Nat.add_comm u.host.popped.length, Nat.add_assoc] at hs
  obtain ⟨n, t, k, hr, ht, hscr, hb'⟩ := runs_of_beat (u := u) (b := b) (rest := rest) (by rw [hblock]; exact hb)
    (by rw [hblock]; exact hq) (by rw [hblock]; exact hd) (by rw [he]; exact hs)
  rw [he] at ht hb'
  refine ⟨n, t, u.host.popped.length + k, hr, ⟨ht.trans ?_, ?_⟩, ?_⟩
  · rw [hi, hsent]; rfl
  · rw [hb', ho, ← List.append_assoc, ← hbeats, List.append_assoc]; rfl
  · rw [hscr, ← Nat.add_assoc, Nat.add_comm m]

/-- What a run of the block alone leads to, the block with another OUT_DEPTH is led to while the host pops often enough. -/
theorem Mirrors.run {d : Option Nat} (before : List Beat) (hd : d ≠ some 0) : ∀ {n : Nat} {a t : State}, a.host.script = [] →
    runs n a t → ∃ enough, ∀ u m, Mirrors d before a u → u.host.script = List.replicate (enough + m) .popOut →
      ∃ n' v, runs n' u v ∧ Mirrors d before t v
  | 0, a, t, _, h => by
    cases h
    exact ⟨0, fun u m hm _ => ⟨0, u, runs_zero u, hm⟩⟩
  | n + 1, a, t, hs, h => by
    obtain ⟨a', hstep, hr⟩ := runs_succ_iff.1 h
    rw [step_of_quiet hs] at hstep
    cases hstep
    obtain ⟨enough, hrun⟩ := Mirrors.run before hd (by rw [(blockTurn_frame a).2, hs]) hr
    obtain hbeat | ⟨-, e⟩ := blockTurn_cases a
    · refine ⟨(before ++ (blockTurn a).outq).length + enough, fun u m hm hu => ?_⟩
      rw [Nat.add_assoc] at hu
      obtain ⟨n₁, v, k, hr₁, hm₁, hv⟩ := hm.beat hd hbeat hu
      rw [Nat.add_assoc] at hv
      obtain ⟨n₂, w, hr₂, hm₂⟩ := hrun v _ hm₁ hv
      exact ⟨n₁ + n₂, w, runs_add hr₁ hr₂, hm₂⟩
    · rw [e] at hrun
      exact ⟨enough, hrun⟩

/-- Settles O56: the block's steps look at the queues only through the head of INQ and the room in OUTQ; and a run with a finite
OUT_DEPTH mirrors one without, beat by beat. -/
theorem hostActionsCommuteWithBeats : Obligations.HostActionsCommuteWithBeats := by
  refine ⟨fun f hf => ?_, fun s t n _ hs hd hr => ?_⟩
  · have hfree : QueueFree f := by
      obtain rfl | rfl := hf
      exacts [beatStep_queueFree, headerStep_queueFree]
    exact ⟨fun s t b h => hfree.push h b, fun s t b rest hq h => hfree.pop hq h⟩
  · obtain ⟨enough, hrun⟩ := Mirrors.run s.host.popped hd (by exact hs) hr
    refine ⟨enough, fun m hm => ?_⟩
    obtain ⟨n', v, hv, ⟨hblock, hbeats⟩⟩ := hrun (withScript (List.replicate m .popOut) s) (m - enough) ⟨rfl, rfl⟩
      (by rw [Nat.add_sub_cancel' hm]; rfl)
    have hcfg : { t.cfg with outDepth := s.cfg.outDepth } = s.cfg := by rw [runs_cfg hr]
    exact ⟨n', v, hv, by rw [← hcfg]; exact hblock, hbeats⟩

end Sys2Proof.Safety
end

section
/-! PROOFS. Command words (R91 to R93, R105): which words are commands, and what an accepted word that is none does (R241). -/

namespace Sys2Proof.Safety

open Sys2Proof Sys2Proof.Machine

/-! ## The opcode map (R92, R93) -/

@[simp] theorem decode_encode (i : Instr) : decode (encode i) = .ok i := by cases i <;> rfl

/-- A word that decodes has zero upper bits, and its lower bits are the opcode of the command (R91, R93). -/
theorem eq_encode_of_decode {w : Byte} {i : Instr} (h : decode w = .ok i) : w = encode i := by
  unfold decode at h
  split at h
  · cases h
  · next hu =>
    have hop : w.extractLsb' 0 4 = opcode i := by
      apply BitVec.eq_of_toNat_eq
      split at h <;> cases h <;> assumption
    calc w = w.extractLsb' 4 4 ++ w.extractLsb' 0 4 := (BitVec.extractLsb'_append_extractLsb' (w := 4) (len := 4)).symm
      _ = encode i := by rw [not_not.1 hu, hop, encode]

/-- Settles O1: a command's word decodes to it, and a word that decodes is made of the command's opcode. -/
theorem eachCommandHasExactlyOneWord : Obligations.EachCommandHasExactlyOneWord :=
  fun _ i => ⟨eq_encode_of_decode, fun h => h ▸ decode_encode i⟩

/-- Settles O2: each of the ten words is the word of its command. -/
theorem opcodeMapWordsDecode : Obligations.OpcodeMapWordsDecode :=
  ⟨decode_encode .clear, decode_encode .scan, decode_encode .build, decode_encode .gencode, decode_encode .wrhdr,
    decode_encode .encode, decode_encode .rdhdr, decode_encode .decode, decode_encode .halt, decode_encode .drain⟩

/-! ## Illegal words (R105, R241) -/

theorem upperBits_toNat (w : Byte) : (w.extractLsb' 4 4).toNat = w.toNat / 16 := by
  have := w.isLt
  rw [BitVec.extractLsb'_toNat, Nat.shiftRight_eq_div_pow]
  omega

theorem upperBits_eq_zero_iff (w : Byte) : w.extractLsb' 4 4 = 0#4 ↔ w.toNat < 16 := by
  rw [← BitVec.toNat_inj, upperBits_toNat, BitVec.toNat_ofNat]
  omega

theorem opcodeBits_toNat (w : Byte) : (w.extractLsb' 0 4).toNat = w.toNat % 16 := by
  rw [BitVec.extractLsb'_toNat, Nat.shiftRight_zero]

/-- A word is no command exactly when it is none of the numbers 1 to 10 (R105). -/
theorem decode_error_iff (w : Byte) : (∃ e, decode w = .error e) ↔ w.toNat = 0 ∨ 10 < w.toNat := by
  unfold decode
  split
  · next hu =>
    rw [ne_eq, upperBits_eq_zero_iff] at hu
    exact iff_of_true ⟨_, rfl⟩ (by omega)
  · next hu =>
    rw [ne_eq, not_not, upperBits_eq_zero_iff] at hu
    rw [opcodeBits_toNat]
    split
    case h_11 =>
      simp only [imp_false] at *
      exact iff_of_true ⟨_, rfl⟩ (by omega)
    all_goals exact iff_of_false nofun (by omega)

/-- An illegal word at the open port is the whole of E_ILLEGAL's effect; it never waits for room (R241). -/
theorem step_of_illegal_word {s : State} {w : Byte} {as : List Action} {e : DecodeError}
    (hs : s.host.script = .issue w :: as) (hr : s.ready = true) (hd : decode w = .error e) :
    step s = .next (illegalWord (withScript as s)) := by
  have hw : s.headerWaits = false := headerWaits_of_head hs fun h => by
    cases h; rw [decode_encode] at hd; cases hd
  rw [step_of_hostTurn (hostTurn_of_head hs hw) hr]
  simp only [performAction, issueWord, hd]

/-- Settles O3: a word is illegal by its number; the step of one that is accepted records E_ILLEGAL, and leaves the port open. -/
theorem illegalWordOnlyRecordsItsFault : Obligations.IllegalWordOnlyRecordsItsFault := by
  refine ⟨fun w => ?_, ?_, fun s w as ⟨e, hd⟩ hr hs => ⟨step_of_illegal_word hs hr hd, hr⟩⟩
  · rw [decode_error_iff, ne_eq, upperBits_eq_zero_iff, ← BitVec.toNat_inj, BitVec.le_def, BitVec.le_def]
    simp only [BitVec.toNat_ofNat]
    omega
  · decide +kernel

end Sys2Proof.Safety
end

section
/-! PROOFS. DRAIN (R252, R253): a frame is discarded beat by beat. -/

namespace Sys2Proof.Safety

open Sys2Proof Sys2Proof.Machine

/-- DRAIN is legal wherever the port is open (R242, R252). -/
theorem exec_drain_of_ready {s : State} (hr : s.ready = true) : exec .drain s = .next { s with cur := .drain, err := .ok } := by
  have hl : legalIn .drain s.phase = true := by simpa [legalIn] using ((ready_iff s).1 hr).2
  rw [exec, execDrain, accept_of_legal hr hl]

/-- A draining beat is discarded, and an EOS ends the draining; nothing is pushed, so it never waits (R253). -/
theorem beatStep_of_drain {s : State} {b : Beat} {rest : List Beat} (hc : s.cur = .drain) (hq : s.inq = b :: rest) :
    beatStep s = some { s with inq := rest, cur := if b.eos then .none else .drain } := by
  have effect : beatEffect { s with inq := rest } b = { s with inq := rest, cur := if b.eos then .none else .drain } := by
    simp only [beatEffect, hc, drainBeat]
    split
    · rfl
    · rw [← hc]
  rw [beatStep_of_quiet ((busy_iff s).2 (by rw [hc]; nofun)) hq (by rw [effect]), effect]

/-- A frame is drained in one step for each of its beats (R254). -/
theorem runs_drain (junk : Byte) (rest : List Beat) : ∀ (bytes : List Byte) {s : State}, s.cur = .drain → s.host.script = [] →
    s.inq = frame bytes junk ++ rest → runs (bytes.length + 1) s { s with inq := rest, cur := .none }
  | [], _, hc, hs, hq => runs_one (step_of_beatStep hs (beatStep_of_drain hc hq))
  | _ :: bytes, _, hc, hs, hq =>
    runs_succ (step_of_beatStep hs (beatStep_of_drain hc hq)) (runs_drain junk rest bytes rfl hs rfl)

/-- Settles O13, by induction over the frame: DRAIN sets CUR, each data beat is discarded, and the EOS takes CUR back. -/
theorem drainConsumesOneFrame : Obligations.DrainConsumesOneFrame := by
  intro s bytes junk rest hr hs hq
  refine ⟨_, exec_drain_of_ready hr, ?_⟩
  have hrun := runs_drain junk rest bytes (s := { s with cur := .drain, err := .ok }) rfl hs hq
  rwa [← ((ready_iff s).1 hr).1] at hrun

end Sys2Proof.Safety
end

section
/-! PROOFS. The inspection words (R64 to R66, R108 to R113): STATUS at all times, and the map while BUSY = 0. -/

namespace Sys2Proof.Safety

open Sys2Proof Sys2Proof.Machine

/-! ## STATUS (R109) -/

/-- STATUS is architected while BUSY = 1 too (R65). -/
theorem inspectWord_status (s : State) : inspectWord s 0x0001#16 = statusWord s := by
  simp [inspectWord, isDraw, alwaysArchitected, architectedWord]

/-- Settles O49: STATUS is put together from the fields, each in its place. -/
theorem statusWordHasItsFields : Obligations.StatusWordHasItsFields := by
  intro s
  rw [inspectWord_status, statusWord]
  refine ⟨?_, ?_, ?_, ?_, ?_, ?_, ?_, ?_⟩
  case refine_4 | refine_5 =>
    simp [BitVec.getLsbD_append (m := 4), BitVec.getLsbD_append (m := 1), - BitVec.getLsbD_eq_getElem, busy_iff, State.halted]
  all_goals
    simp [BitVec.extractLsb'_append_eq_of_le (w := 4), BitVec.extractLsb'_append_eq_of_le (w := 1),
      BitVec.extractLsb'_append_eq_of_le (w := 2), BitVec.extractLsb'_append_eq_of_le (w := 8),
      BitVec.extractLsb'_append_eq_of_add_le (w := 4), BitVec.extractLsb'_append_eq_of_add_le (w := 2),
      BitVec.extractLsb'_append_eq_of_add_le (w := 8)]

/-! ## The map (R108, R110, R111) -/

/-- With BUSY = 0 no read is a draw (R65). -/
theorem inspectWord_of_not_busy {s : State} (hb : s.busy = false) (a : BitVec 16) : inspectWord s a = architectedWord s a := by
  simp [inspectWord, isDraw, hb]

/-- The addresses of a window of the map do not wrap. -/
theorem window_toNat {n : Nat} (base : Nat) (x : BitVec n) (h : base + 2 ^ n ≤ 2 ^ 16) :
    (BitVec.ofNat 16 base + x.setWidth 16).toNat = base + x.toNat := by
  have := x.isLt
  rw [BitVec.toNat_add, BitVec.toNat_ofNat, BitVec.toNat_setWidth]
  omega

/-- Each window of the map shows one table, entry by entry (R108). -/
theorem architectedWord_windows (s : State) :
    (∀ b : Byte, architectedWord s (0x0100#16 + b.setWidth 16) = s.freqAt b) ∧
    (∀ i : Index, architectedWord s (0x0200#16 + i.setWidth 16) = (s.nodeAt i.toNat).weight) ∧
    (∀ i : Index, architectedWord s (0x0400#16 + i.setWidth 16) = linkWord (s.nodeAt i.toNat)) ∧
    (∀ i : Index, architectedWord s (0x0600#16 + i.setWidth 16) = (s.nodeAt i.toNat).sym.setWidth 32) ∧
    (∀ b : Byte, architectedWord s (0x0800#16 + b.setWidth 16) = (s.codeAt b).len.setWidth 32) := by
  refine ⟨?_, ?_, ?_, ?_, ?_⟩
  all_goals
    intro x
    have := x.isLt
    simp (disch := omega) only [architectedWord, window_toNat, if_neg, if_pos, Nat.add_sub_cancel_left, BitVec.ofNat_toNat,
      BitVec.setWidth_eq]

/-- The code words are eight to a byte value (R112). -/
theorem architectedWord_codeBits {s : State} {a : BitVec 16} {b : Byte} {j : Nat} (hj : j < 8)
    (ha : a.toNat = 0x1000 + (8 * b.toNat + j)) : architectedWord s a = codeBitsWord (s.codeAt b) j := by
  have := b.isLt
  simp (disch := omega) only [architectedWord, ha, if_neg, if_pos, Nat.add_sub_cancel_left, Nat.mul_add_div,
    Nat.mul_add_mod, Nat.div_eq_of_lt, Nat.mod_eq_of_lt, Nat.add_zero, BitVec.ofNat_toNat, BitVec.setWidth_eq]

/-- An address between the windows, or above them, reads 0 (R66). -/
theorem architectedWord_unassigned {s : State} {a : BitVec 16}
    (ha : (5 ≤ a.toNat ∧ a.toNat < 0x0100) ∨ (0x0900 ≤ a.toNat ∧ a.toNat < 0x1000) ∨ 0x1800 ≤ a.toNat) :
    architectedWord s a = 0#32 := by
  simp (disch := omega) only [architectedWord, if_neg]

/-- NODE_LINK holds the three links, each in its nine bits (R111). -/
theorem linkWord_fields (n : Node) :
    (linkWord n).extractLsb' 0 9 = n.parent ∧ (linkWord n).extractLsb' 9 9 = n.left ∧
    (linkWord n).extractLsb' 18 9 = n.right ∧ (linkWord n).extractLsb' 27 5 = 0#5 := by
  simp [linkWord, BitVec.extractLsb'_append_eq_of_le (w := 9), BitVec.extractLsb'_append_eq_of_add_le (w := 9)]

/-! ## The bits of a code (R112) -/

/-- The number a bit sequence spells has these bits, the last one least significant. -/
theorem testBit_bitsNat (bits : List Bit) : ∀ i, (bitsNat bits).testBit i = bits.reverse.getD i false := by
  induction bits using List.reverseRecOn with
  | nil => intro i; simp [bitsNat]
  | append_singleton bits b ih =>
    have hb : bitsNat (bits ++ [b]) = Nat.bit b (bitsNat bits) := by
      rw [Nat.bit_val, bitsNat, List.foldl_append]
      rfl
    intro i
    rw [hb, List.reverse_append]
    cases i with
    | zero => exact Nat.testBit_bit_zero b _
    | succ i => rw [Nat.testBit_bit_succ, ih]; rfl

/-- Bit 31 - t of CODE_BITS[b][j] is bit 32j + t of the code (R112). -/
theorem codeBitsWord_getLsbD (c : Code) (j : Nat) {t : Nat} (ht : t < 32) :
    (codeBitsWord c j).getLsbD (31 - t) =
      (decide (32 * j + t < c.len.toNat) && c.bits.getD (32 * j + t) false) := by
  rw [codeBitsWord, BitVec.getLsbD_ofNat, testBit_bitsNat]
  simp [show 31 - t < 32 by omega, show 31 - (31 - t) = t by omega]

/-- Settles O50: with BUSY = 0 every read is architected; each window reads its table, and what no window holds reads 0. -/
theorem inspectionMapReadsTheState : Obligations.InspectionMapReadsTheState := by
  intro s hb
  have read := inspectWord_of_not_busy hb
  obtain ⟨freq, weight, link, sym, len⟩ := architectedWord_windows s
  refine ⟨read _, read _, read _, read _, fun b => ?_, fun i => ?_, fun i => ?_, fun i => ?_, fun b => ?_,
    fun a ha => ?_, fun b j t hj ht => ?_⟩
  all_goals rw [read]
  · exact freq b
  · exact weight i
  · rw [link]; exact linkWord_fields _
  · exact sym i
  · exact len b
  · exact architectedWord_unassigned ha
  · have ha : (BitVec.ofNat 16 (0x1000 + 8 * b.toNat + j)).toNat = 0x1000 + (8 * b.toNat + j) := by
      have := b.isLt
      rw [BitVec.toNat_ofNat]
      omega
    rw [architectedWord_codeBits hj ha, codeBitsWord_getLsbD _ _ ht]

end Sys2Proof.Safety
end

section
/-! PROOFS. SCAN (R121 to R129): a data beat counts its byte, the EOS seeds one leaf for each byte value that occurred, and so a
whole frame is counted and its distinct values are seeded. -/

namespace Sys2Proof.Safety

open Sys2Proof Sys2Proof.Machine

/-! ## Acceptance (R121) -/

/-- Settles O14: IDLE is SCAN's one legal phase. -/
theorem scanIsAccepted : Obligations.ScanIsAccepted := by
  intro s hr hp
  rw [exec, execScan, accept_of_legal hr (by rw [hp]; rfl)]

/-! ## One data beat (R123, R124) -/

/-- A byte is counted: its entry of FREQ and TOTAL grow by one (R123). -/
def countByte (s : State) (d : Byte) : State := { s.setFreq d (s.freqAt d + 1) with total := s.total + 1 }

theorem scanData_of_room {s : State} (ht : s.total.toNat ≠ s.cfg.maxLen) (d : Byte) : scanData d s = countByte s d := by
  rw [scanData, if_neg ht, countByte]

theorem scanData_of_full {s : State} (ht : s.total.toNat = s.cfg.maxLen) (d : Byte) :
    scanData d s = raiseFault .overflow true s := by
  rw [scanData, if_pos ht]

theorem countByte_freqAt {s : State} (hw : s.tablesWf = true) (d b : Byte) :
    (countByte s d).freqAt b = if b = d then s.freqAt d + 1 else s.freqAt b := freqAt_setFreq hw d b _

theorem countByte_tablesWf {s : State} (hw : s.tablesWf = true) (d : Byte) : (countByte s d).tablesWf = true :=
  setFreq_tablesWf hw d _

/-- A beat of SCAN pushes nothing, so it never waits for OUTQ (R122). -/
theorem beatStep_of_scan {s : State} {b : Beat} {rest : List Beat} (hc : s.cur = .scan) (hq : s.inq = b :: rest) :
    beatStep s = some (scanBeat { s with inq := rest } b) := by
  rw [beatStep_quiet (.inl hc) hq]
  simp only [beatEffect, hc]

theorem beatStep_of_scan_data {s : State} {d : Byte} {rest : List Beat} (hc : s.cur = .scan) (hq : s.inq = dataBeat d :: rest)
    (ht : s.total.toNat ≠ s.cfg.maxLen) : beatStep s = some (countByte { s with inq := rest } d) :=
  (beatStep_of_scan hc hq).trans (congrArg some (scanData_of_room (s := { s with inq := rest }) ht d))

/-- Settles O15: the beat counts its byte, and a write to FREQ is read back at its own place only. -/
theorem scanCountsOneByte : Obligations.ScanCountsOneByte := by
  intro s d rest hc hq ht hw
  have read := countByte_freqAt (s := { s with inq := rest }) hw d
  exact ⟨_, beatStep_of_scan_data hc hq ht, rfl, (read d).trans (if_pos rfl), fun b hb => (read b).trans (if_neg hb)⟩

/-- Settles O16: at TOTAL = MAX_LEN the beat is the fault E_OVERFLOW with draining. -/
theorem scanOverflowDrains : Obligations.ScanOverflowDrains := by
  intro s d rest hc hq ht
  exact (beatStep_of_scan hc hq).trans (congrArg some (scanData_of_full (s := { s with inq := rest }) ht d))

/-! ## The leaves (R125) -/

/-- Leaves 1..K, in order. -/
def leafList (s : State) : List Node := (leafIndices s.k.toNat).map s.nodeAt

/-- The byte values that occurred, ascending. -/
def occurred (s : State) : List Byte := byteValues.filter fun b => decide (s.freqAt b ≠ 0#32)

theorem mem_byteValues (b : Byte) : b ∈ byteValues :=
  List.mem_map.2 ⟨b.toNat, List.mem_range.2 b.isLt, by simp⟩

theorem leafList_length (s : State) : (leafList s).length = s.k.toNat := by simp [leafList, leafIndices]

theorem seedByte_of_absent {s : State} {b : Byte} (hb : s.freqAt b = 0#32) : seedByte s b = s := by
  rw [seedByte, if_pos hb]

theorem seedByte_of_present {s : State} {b : Byte} (hb : s.freqAt b ≠ 0#32) : seedByte s b =
    { s with k := s.k + 1, node := putNode s.node (s.k + 1).toNat (leafNode b (s.freqAt b)) } := by
  rw [seedByte, if_neg hb]

/-- A byte value that occurred becomes the leaf after those there are. -/
theorem leafList_seedByte_of_present {s : State} {b : Byte} (hb : s.freqAt b ≠ 0#32)
    (hw : Table.wf Node.zero 1 512 s.node = true) (hk : (s.k + 1).toNat = s.k.toNat + 1) :
    leafList (seedByte s b) = leafList s ++ [leafNode b (s.freqAt b)] := by
  have hlt := (s.k + 1).isLt
  rw [seedByte_of_present hb]
  simp only [leafList, leafIndices, State.nodeAt, hk, List.range'_1_concat, List.map_append, List.map_singleton]
  congr 1
  · refine List.map_congr_left fun i hi => nodeIn_putNode_other _ _ ?_
    have := List.mem_range'_1.1 hi
    omega
  · rw [Nat.add_comm 1, nodeIn_putNode_same hw _ (by omega) (by omega)]

/-- The seeding loop adds the byte values that occurred to the leaves, in the order it meets them. -/
theorem leafList_foldl_seedByte : ∀ (bs : List Byte) {s : State}, Table.wf Node.zero 1 512 s.node = true →
    s.k.toNat + bs.length < 512 → leafList (bs.foldl seedByte s) =
      leafList s ++ (bs.filter fun b => decide (s.freqAt b ≠ 0#32)).map fun b => leafNode b (s.freqAt b)
  | [], _, _, _ => by simp
  | b :: bs, s, hw, hk => by
    rw [List.length_cons] at hk
    rw [List.foldl_cons]
    by_cases hb : s.freqAt b = 0#32
    · rw [seedByte_of_absent hb, leafList_foldl_seedByte bs hw (by omega), List.filter_cons_of_neg (by simpa using hb)]
    · have hk1 : (s.k + 1).toNat = s.k.toNat + 1 := toNat_add_one (by omega)
      have ih := leafList_foldl_seedByte bs (s := seedByte s b)
        (by rw [seedByte_of_present hb]; exact putNode_wf hw _ _) (by rw [seedByte_of_present hb]; simp only [hk1]; omega)
      have same : (seedByte s b).freqAt = s.freqAt := by rw [seedByte_of_present hb]; rfl
      rw [ih, same, leafList_seedByte_of_present hb hw hk1, List.filter_cons_of_pos (by simpa using hb), List.map_cons,
        List.append_assoc, List.singleton_append]

theorem leafList_seeded {s : State} (hn : s.node = []) :
    leafList (seeded s) = (occurred s).map fun b => leafNode b (s.freqAt b) :=
  leafList_foldl_seedByte byteValues (s := { s with k := 0#9 }) (by simp only [hn]; rfl) (by simp [byteValues])

/-- K counts the byte values that occurred. -/
theorem seeded_k {s : State} (hn : s.node = []) : (seeded s).k.toNat = (occurred s).length := by
  rw [← leafList_length, leafList_seeded hn, List.length_map]

theorem seeded_k_eq_zero_iff {s : State} (hn : s.node = []) : (seeded s).k = 0#9 ↔ ∀ b, s.freqAt b = 0#32 := by
  rw [← BitVec.toNat_inj, seeded_k hn]
  simp [occurred, mem_byteValues]

/-! ## The EOS beat (R125, R126) -/

/-- Without a leaf the frame was empty, which is E_EMPTY without draining. -/
theorem scanEos_eq (s : State) : scanEos s = if (seeded s).k = 0#9 then raiseFault .empty false s else { s with
    k := (seeded s).k, node := (seeded s).node, nn := (seeded s).k.setWidth 10, phase := .scanned, cur := .none, err := .ok } := by
  have kept := seeded_frame s
  unfold scanEos
  rw [← seeded]
  generalize seeded s = v at kept
  simp only
  split
  · rw [kept]; rfl
  · rw [kept]

theorem beatStep_of_scan_eos {s : State} {e : Beat} {rest : List Beat} (hc : s.cur = .scan) (hq : s.inq = e :: rest)
    (he : e.eos = true) : beatStep s = some (scanEos { s with inq := rest }) := by
  rw [beatStep_of_scan hc hq, scanBeat, if_pos he]

/-- Settles O17: the seeding loop appends one leaf for each byte value that occurred, in ascending order, so K = 0 exactly
when none did. -/
theorem scanSeedsTheLeavesInOrder : Obligations.ScanSeedsTheLeavesInOrder := by
  intro s e rest hc hq he _ hn
  have beat := beatStep_of_scan_eos hc hq he
  have hk := seeded_k_eq_zero_iff (s := { s with inq := rest }) hn
  have spec := seeded_spec (s := { s with inq := rest }) hn
  have hmax := spec.kMax
  constructor
  · rintro ⟨b, hb⟩
    rw [scanEos_eq, if_neg fun h0 => hb (hk.1 h0 b)] at beat
    have leaves := leafList_seeded (s := { s with inq := rest }) hn
    generalize seeded { s with inq := rest } = v at beat spec hmax leaves
    refine ⟨_, beat, rfl, ?_, leaves, spec.leaves.above⟩
    exact (BitVec.toNat_setWidth _ _).trans (Nat.mod_eq_of_lt (by omega))
  · intro h0
    rw [scanEos_eq, if_pos (hk.2 h0)] at beat
    exact beat

/-! ## A whole frame (R129) -/

theorem add_one_add_ofNat (x : Word) (n : Nat) : x + 1 + BitVec.ofNat 32 n = x + BitVec.ofNat 32 (n + 1) := by
  rw [BitVec.add_assoc, Nat.add_comm n 1, BitVec.ofNat_add]
  rfl

/-- The bytes are counted, from `s` to `u`: FREQ and TOTAL grow by as many as there are, and nothing else changes. -/
structure Counted (bytes : List Byte) (s u : State) : Prop where
  frame  : u = { s with freq := u.freq, total := u.total }
  tables : u.tablesWf = true
  total  : u.total = s.total + BitVec.ofNat 32 bytes.length
  freq   : ∀ b, u.freqAt b = s.freqAt b + BitVec.ofNat 32 (bytes.count b)

theorem counted_nil {s : State} (hw : s.tablesWf = true) : Counted [] s s where
  frame := rfl
  tables := hw
  total := (BitVec.add_zero _).symm
  freq _ := (BitVec.add_zero _).symm

theorem Counted.cons {bytes : List Byte} {s u : State} {d : Byte} (h : Counted bytes (countByte s d) u)
    (hw : s.tablesWf = true) : Counted (d :: bytes) s u where
  frame := h.frame
  tables := h.tables
  total := h.total.trans (add_one_add_ofNat _ _)
  freq b := by
    rw [h.freq, countByte_freqAt hw]
    by_cases hb : b = d
    · rw [if_pos hb, hb, List.count_cons_self, add_one_add_ofNat]
    · rw [if_neg hb, List.count_cons_of_ne (Ne.symm hb)]

section FromCleared

variable {bytes : List Byte} {s u : State} (h : Counted bytes s u) (hs : Cleared s) (hlen : bytes.length < 2 ^ 32)

include h hs

theorem Counted.freqAt_of_cleared (b : Byte) : u.freqAt b = BitVec.ofNat 32 (bytes.count b) := by
  obtain ⟨hf, -⟩ := (cleared_iff s).1 hs
  rw [h.freq, State.freqAt, hf, Table.read_nil, BitVec.zero_add]

include hlen

theorem Counted.total_toNat : u.total.toNat = bytes.length := by
  obtain ⟨-, -, -, -, -, h0, -⟩ := (cleared_iff s).1 hs
  rw [h.total, h0, BitVec.zero_add, BitVec.toNat_ofNat, Nat.mod_eq_of_lt hlen]

theorem Counted.freqAt_toNat (b : Byte) : (u.freqAt b).toNat = bytes.count b := by
  rw [h.freqAt_of_cleared hs, BitVec.toNat_ofNat, Nat.mod_eq_of_lt (List.count_le_length.trans_lt hlen)]

theorem Counted.freqAt_ne_zero_iff (b : Byte) : u.freqAt b ≠ 0#32 ↔ b ∈ bytes := by
  rw [← List.count_pos_iff, ← h.freqAt_toNat hs hlen b, Nat.pos_iff_ne_zero, Ne, ← BitVec.toNat_inj, BitVec.toNat_zero]

theorem Counted.occurred_eq : occurred u = distinctAscending bytes := by
  simp only [occurred, distinctAscending, h.freqAt_ne_zero_iff hs hlen]

end FromCleared

/-- Data beats that do not reach beyond MAX_LEN are counted in one step each. -/
theorem runs_scan_data (tail : List Beat) : ∀ (bytes : List Byte) {s : State}, s.cur = .scan → s.host.script = [] →
    s.cfg.wf = true → s.tablesWf = true → s.total.toNat + bytes.length ≤ s.cfg.maxLen → s.inq = dataBeats bytes ++ tail →
    ∃ u, runs bytes.length s u ∧ Counted bytes { s with inq := tail } u
  | [], s, _, _, _, hw, _, hq => by
    have hq : s.inq = tail := hq
    rw [← hq]
    exact ⟨s, runs_zero s, counted_nil hw⟩
  | d :: bytes, s, hc, hs, hcfg, hw, ht, hq => by
    rw [List.length_cons] at ht
    have hmax := maxLen_lt hcfg
    have htot : (s.total + 1).toNat = s.total.toNat + 1 := toNat_add_one (by omega)
    obtain ⟨u, hrun, hu⟩ := runs_scan_data tail bytes (s := countByte { s with inq := dataBeats bytes ++ tail } d) hc hs hcfg
      (countByte_tablesWf hw d) (by show (s.total + 1).toNat + bytes.length ≤ s.cfg.maxLen; omega) rfl
    exact ⟨u, runs_succ (step_of_beatStep hs (beatStep_of_scan_data hc hq (by omega))) hrun,
      Counted.cons (s := { s with inq := tail }) hu hw⟩

/-- Settles O18: from the cleared state the data beats leave FREQ and TOTAL at the numbers of the frame, which no register
overflows since |F| <= MAX_LEN, and then the EOS seeds the leaves (O17). -/
theorem scanOfAFrameCountsIt : Obligations.ScanOfAFrameCountsIt := by
  intro s bytes junk rest hr hp hcl hcfg hs h1 hlen hq
  obtain ⟨hc, -⟩ := (ready_iff s).1 hr
  obtain ⟨-, hn, -, -, -, h0, -⟩ := (cleared_iff s).1 hcl
  obtain ⟨hw, -⟩ := operation_of_cleared hcl hp (.inl hc)
  have hlt : bytes.length < 2 ^ 32 := by have := maxLen_lt hcfg; omega
  obtain ⟨u, hrun, hu⟩ := runs_scan_data (⟨true, junk⟩ :: rest) bytes (s := { s with cur := .scan }) rfl hs hcfg hw
    (by simpa [h0] using hlen) (by simpa [frame] using hq)
  have hclu : Cleared { s with cur := .scan, inq := ⟨true, junk⟩ :: rest } := (cleared_iff _).2 ((cleared_iff s).1 hcl)
  have hframe := hu.frame
  have occurs : ∃ b, u.freqAt b ≠ 0#32 := ⟨bytes[0], (hu.freqAt_ne_zero_iff hclu hlt _).2 (List.getElem_mem h1)⟩
  obtain ⟨t, hbeat, ht, hnn, hleaves, habove⟩ := (scanSeedsTheLeavesInOrder u ⟨true, junk⟩ rest (by rw [hframe]) (by rw [hframe])
    rfl hu.tables (by rw [hframe]; exact hn)).1 occurs
  have last : step u = .next t := step_of_beatStep (by rw [hframe]; exact hs) hbeat
  have hfreq : t.freqAt = u.freqAt := by rw [ht]; rfl
  have htotal : t.total = u.total := by rw [ht]
  refine ⟨_, t, scanIsAccepted s hr hp, runs_add hrun (runs_one last), ?_, ?_, ?_, hnn, ?_, habove⟩
  · rw [ht, hframe, hc]
  · rw [hfreq]; exact hu.freqAt_toNat hclu hlt
  · rw [htotal]; exact hu.total_toNat hclu hlt
  · rw [hleaves, ← occurred, hu.occurred_eq hclu hlt]; simp only [hu.freqAt_of_cleared hclu]

end Sys2Proof.Safety
end

section
/-! PROOFS. BUILD, its scan (R144, R145): the two minima are the least and the second least unmerged node in the order
(weight, index). -/

namespace Sys2Proof.Safety

open Sys2Proof Sys2Proof.Machine

/-! ## The order (weight, index) -/

/-- Node `a` is not after node `b` in the order (weight, index) (R144). -/
def NotAfter (t : Table Node) (a b : Nat) : Prop :=
  (nodeIn t a).weight < (nodeIn t b).weight ∨ ((nodeIn t a).weight = (nodeIn t b).weight ∧ a ≤ b)

theorem NotAfter.refl (t : Table Node) (a : Nat) : NotAfter t a a := .inr ⟨rfl, le_rfl⟩

/-- A node met earlier in the scan gives way only to a strictly lighter one. -/
theorem notAfter_of_not_lt {t : Table Node} {a b : Nat} (hab : a ≤ b) (h : ¬ (nodeIn t b).weight < (nodeIn t a).weight) :
    NotAfter t a b := by
  by_cases he : (nodeIn t a).weight = (nodeIn t b).weight
  · exact .inr ⟨he, hab⟩
  · exact .inl (BitVec.lt_of_le_ne (BitVec.not_lt.1 h) he)

theorem NotAfter.of_lt {t : Table Node} {a b c : Nat} (hab : (nodeIn t a).weight < (nodeIn t b).weight)
    (h : NotAfter t b c) : NotAfter t a c := by
  obtain h | ⟨h, -⟩ := h
  · exact .inl (BitVec.lt_trans hab h)
  · exact .inl (h ▸ hab)

/-! ## The scan -/

/-- What the scan of R145 has tracked among the unmerged nodes below `num`: none of them is before s1, and none but s1 is
before s2. An index of 0 stands for "none yet", and NODE[0] weighs 0 (R40), so m1 and m2 are weights in any case. -/
structure Tracked (t : Table Node) (num : Nat) (p : Minima) : Prop where
  lt1    : p.s1 < num
  lt2    : p.s2 < num
  m1     : p.m1 = (nodeIn t p.s1).weight
  m2     : p.m2 = (nodeIn t p.s2).weight
  least  : ∀ u ∈ unmerged t num, p.s1 ≠ 0 ∧ NotAfter t p.s1 u
  second : ∀ u ∈ unmerged t num, u ≠ p.s1 → p.s2 ≠ 0 ∧ NotAfter t p.s2 u

/-- Before the first round nothing has been seen. -/
theorem tracked_start (t : Table Node) : Tracked t 1 ⟨0, 0#32, 0, 0#32⟩ where
  lt1 := Nat.zero_lt_one
  lt2 := Nat.zero_lt_one
  m1 := rfl
  m2 := rfl
  least u hu := absurd hu (by simp [unmerged])
  second u hu := absurd hu (by simp [unmerged])

section Round

variable {t : Table Node} {num : Nat} {p : Minima} (h : Tracked t num p)

include h

/-- A node that has a parent is passed over. -/
theorem Tracked.skip (hn : 1 ≤ num) (hp : (nodeIn t num).parent ≠ 0#9) : Tracked t (num + 1) p where
  lt1 := Nat.lt_succ_of_lt h.lt1
  lt2 := Nat.lt_succ_of_lt h.lt2
  m1 := h.m1
  m2 := h.m2
  least := by rw [unmerged_succ_of_child hn hp]; exact h.least
  second := by rw [unmerged_succ_of_child hn hp]; exact h.second

variable (hu : unmerged t (num + 1) = insert num (unmerged t num))

include hu

/-- A node lighter than s1 becomes the least, and s1 the second least. -/
theorem Tracked.newLeast (hn : 1 ≤ num) (hlt : p.s1 = 0 ∨ (nodeIn t num).weight < p.m1) :
    Tracked t (num + 1) ⟨num, (nodeIn t num).weight, p.s1, p.m1⟩ where
  lt1 := Nat.lt_succ_self num
  lt2 := Nat.lt_succ_of_lt h.lt1
  m1 := rfl
  m2 := h.m1
  least u hmem := by
    refine ⟨by simp only; omega, ?_⟩
    rw [hu, Finset.mem_insert] at hmem
    obtain rfl | hmem := hmem
    · exact .refl t u
    · obtain ⟨h0, hle⟩ := h.least u hmem
      exact hle.of_lt (h.m1 ▸ hlt.resolve_left h0)
  second u hmem hne := h.least u (Finset.mem_of_mem_insert_of_ne (hu ▸ hmem) hne)

/-- With a node not lighter than s1, s1 is the least still. -/
theorem Tracked.least_of_not_lt (h1 : ¬ (p.s1 = 0 ∨ (nodeIn t num).weight < p.m1)) :
    ∀ u ∈ unmerged t (num + 1), p.s1 ≠ 0 ∧ NotAfter t p.s1 u := by
  intro u hmem
  obtain ⟨h0, hw⟩ := not_or.1 h1
  rw [hu, Finset.mem_insert] at hmem
  obtain rfl | hmem := hmem
  · exact ⟨h0, notAfter_of_not_lt h.lt1.le (h.m1 ▸ hw)⟩
  · exact h.least u hmem

/-- A node not lighter than s1, but lighter than s2, becomes the second least. -/
theorem Tracked.newSecond (h1 : ¬ (p.s1 = 0 ∨ (nodeIn t num).weight < p.m1))
    (hlt : p.s2 = 0 ∨ (nodeIn t num).weight < p.m2) :
    Tracked t (num + 1) ⟨p.s1, p.m1, num, (nodeIn t num).weight⟩ where
  lt1 := Nat.lt_succ_of_lt h.lt1
  lt2 := Nat.lt_succ_self num
  m1 := h.m1
  m2 := rfl
  least := h.least_of_not_lt hu h1
  second u hmem hne := by
    refine ⟨Nat.ne_zero_of_lt h.lt1, ?_⟩
    rw [hu, Finset.mem_insert] at hmem
    obtain rfl | hmem := hmem
    · exact .refl t u
    · obtain ⟨h0, hle⟩ := h.second u hmem hne
      exact hle.of_lt (h.m2 ▸ hlt.resolve_left h0)

/-- A node lighter than neither changes nothing. -/
theorem Tracked.keep (h1 : ¬ (p.s1 = 0 ∨ (nodeIn t num).weight < p.m1))
    (h2 : ¬ (p.s2 = 0 ∨ (nodeIn t num).weight < p.m2)) : Tracked t (num + 1) p where
  lt1 := Nat.lt_succ_of_lt h.lt1
  lt2 := Nat.lt_succ_of_lt h.lt2
  m1 := h.m1
  m2 := h.m2
  least := h.least_of_not_lt hu h1
  second u hmem hne := by
    obtain ⟨h0, hw⟩ := not_or.1 h2
    rw [hu, Finset.mem_insert] at hmem
    obtain rfl | hmem := hmem
    · exact ⟨h0, notAfter_of_not_lt h.lt2.le (h.m2 ▸ hw)⟩
    · exact h.second u hmem hne

end Round

/-- One round of the scan. -/
theorem Tracked.seeNode_succ {t : Table Node} {num : Nat} {p : Minima} (h : Tracked t num p) (hn : 1 ≤ num) :
    Tracked t (num + 1) (seeNode t p num) := by
  unfold seeNode
  simp only
  split
  · next hp => exact h.skip hn hp
  · next hp =>
    have hu := unmerged_succ_of_root hn (not_not.1 hp)
    split
    · next c1 => exact h.newLeast hu hn c1
    · next c1 =>
      split
      · next c2 => exact h.newSecond hu c1 c2
      · next c2 => exact h.keep hu c1 c2

theorem tracked_foldl (t : Table Node) (n : Nat) :
    Tracked t (n + 1) ((List.range' 1 n).foldl (seeNode t) ⟨0, 0#32, 0, 0#32⟩) := by
  induction n with
  | zero => exact tracked_start t
  | succ n ih =>
    rw [List.range'_1_concat, List.foldl_append, Nat.add_comm 1 n]
    exact ih.seeNode_succ (by omega)

/-! ## The two minima -/

section SelectTwo

variable (t : Table Node) {num : Nat} (hn : 1 ≤ num)

include hn

/-- What `selectTwo` reads its answer from. -/
theorem tracked_scan : Tracked t num ((List.range' 1 (num - 1)).foldl (seeNode t) ⟨0, 0#32, 0, 0#32⟩) := by
  have h := tracked_foldl t (num - 1)
  rwa [Nat.sub_add_cancel hn] at h

/-- The minima are below `num`, whether or not there are two unmerged nodes. -/
theorem selectTwo_lt : (selectTwo t num).1 < num ∧ (selectTwo t num).2 < num :=
  ⟨(tracked_scan t hn).lt1, (tracked_scan t hn).lt2⟩

/-- No unmerged node is before the first minimum, and no other one before the second. -/
theorem selectTwo_notAfter {u : Nat} (hu : u ∈ unmerged t num) :
    NotAfter t (selectTwo t num).1 u ∧ (u ≠ (selectTwo t num).1 → NotAfter t (selectTwo t num).2 u) :=
  ⟨((tracked_scan t hn).least u hu).2, fun hne => ((tracked_scan t hn).second u hu hne).2⟩

end SelectTwo

/-- Settles O21: the scan finds two unmerged nodes, and what it tracks is least and second least in every round. -/
theorem selectionFindsTheTwoLeast : Obligations.SelectionFindsTheTwoLeast := by
  intro t num i j hi hij hj hpi hpj
  have two : 2 ≤ (unmerged t num).card := Finset.one_lt_card.2
    ⟨i, mem_unmerged.2 ⟨hi, by omega, hpi⟩, j, mem_unmerged.2 ⟨by omega, hj, hpj⟩, hij.ne⟩
  obtain ⟨hne, hx, hy⟩ := selectTwo_mem two
  obtain ⟨x1, x2, x3⟩ := mem_unmerged.1 hx
  obtain ⟨y1, y2, y3⟩ := mem_unmerged.1 hy
  exact ⟨_, _, rfl, hne, x1, x2, x3, y1, y2, y3,
    fun u u1 u2 u3 => selectTwo_notAfter t (by omega) (mem_unmerged.2 ⟨u1, u2, u3⟩)⟩

end Sys2Proof.Safety
end

section
/-! PROOFS. BUILD (R141, R142, R146, R149, R150): what one merge writes, what the whole command writes and keeps for any
canonical table, and the tree it grows from seeded leaves. -/

namespace Sys2Proof.Safety

open Sys2Proof Sys2Proof.Machine

/-! ## One iteration (R146) -/

theorem mergeStep_of_selectTwo {t : Table Node} {num x y : Nat} (h : selectTwo t num = (x, y)) :
    mergeStep t num = createNode t num x y := by
  rw [mergeStep, h]

/-- Settles O22: one iteration is the creation of node `num` from the two minima. -/
theorem mergeCreatesOneNode : Obligations.MergeCreatesOneNode := by
  intro t num x y hw hsel x1 x2 y1 y2 _ hnum
  have old {i : Nat} (hi : i ≠ num) := nodeIn_createNode_old hw hnum ⟨x1, x2⟩ ⟨y1, y2⟩ hi
  rw [mergeStep_of_selectTwo hsel]
  refine ⟨nodeIn_createNode_new hw (by omega) hnum x2.ne y2.ne, ?_, ?_, fun i hi hix hiy => ?_⟩
  · rw [old x2.ne, if_pos (.inl rfl)]
  · rw [old y2.ne, if_pos (.inr rfl)]
  · rw [old hi, if_neg (not_or.2 ⟨hix, hiy⟩)]

/-! ## What the writes of BUILD keep (R149) -/

/-- From the table `t` to `u`, a canonical one, leaves 1..k keep their byte values and weights, and no node above `top` is
changed. -/
structure KeepsLeaves (k top : Nat) (t u : Table Node) : Prop where
  wf     : Table.wf Node.zero 1 512 u = true
  leaves : ∀ i ≤ k, (nodeIn u i).sym = (nodeIn t i).sym ∧ (nodeIn u i).weight = (nodeIn t i).weight
  above  : ∀ i, top < i → nodeIn u i = nodeIn t i

section KeepsLeaves

variable {k top : Nat} {t u v : Table Node}

theorem KeepsLeaves.refl (h : Table.wf Node.zero 1 512 t = true) : KeepsLeaves k top t t :=
  ⟨h, fun _ _ => ⟨rfl, rfl⟩, fun _ _ => rfl⟩

theorem KeepsLeaves.trans (h : KeepsLeaves k top t u) (h' : KeepsLeaves k top u v) : KeepsLeaves k top t v where
  wf := h'.wf
  leaves i hi := ⟨(h'.leaves i hi).1.trans (h.leaves i hi).1, (h'.leaves i hi).2.trans (h.leaves i hi).2⟩
  above i hi := (h'.above i hi).trans (h.above i hi)

variable (h : Table.wf Node.zero 1 512 t = true)

include h

/-- One write: of a node that is no leaf, or of a leaf with its own byte value and weight. -/
theorem putNode_keepsLeaves {j : Nat} {n : Node} (hj : j ≤ top)
    (hn : j ≤ k → n.sym = (nodeIn t j).sym ∧ n.weight = (nodeIn t j).weight) : KeepsLeaves k top t (putNode t j n) where
  wf := putNode_wf h j n
  leaves i hi := by
    rw [nodeIn_putNode h]
    split
    · next c => rw [c.1]; exact hn (c.1 ▸ hi)
    · exact ⟨rfl, rfl⟩
  above i hi := nodeIn_putNode_other t n (by omega)

theorem setParent_keepsLeaves {j : Nat} (hj : j ≤ top) (p : Index) : KeepsLeaves k top t (setParent t j p) :=
  putNode_keepsLeaves h hj fun _ => ⟨rfl, rfl⟩

theorem mergeStep_keepsLeaves {num : Nat} (hk : k < num) (hnum : num ≤ top) : KeepsLeaves k top t (mergeStep t num) := by
  obtain ⟨hx, hy⟩ := selectTwo_lt t (show 1 ≤ num by omega)
  have w1 (n : Node) := putNode_wf h num n
  exact ((putNode_keepsLeaves h hnum fun hle => absurd hle (by omega)).trans
    (setParent_keepsLeaves (w1 _) (hx.le.trans hnum) _)).trans
    (setParent_keepsLeaves (setParent_wf (w1 _) _ _) (hy.le.trans hnum) _)

/-- The merge loop, after `m` iterations. -/
theorem foldl_mergeStep_keepsLeaves : ∀ m, k + m ≤ top → KeepsLeaves k top t ((List.range' (k + 1) m).foldl mergeStep t)
  | 0, _ => .refl h
  | m + 1, hm => by
    have ih := foldl_mergeStep_keepsLeaves m (by omega)
    rw [List.range'_1_concat, List.foldl_append]
    exact ih.trans (mergeStep_keepsLeaves ih.wf (by omega) (by omega))

/-- BUILD keeps the leaves, and writes nothing above the root. -/
theorem buildTree_keepsLeaves (hk : 1 ≤ k) : KeepsLeaves k (rootIndex k) t (buildTree t k) := by
  have root : k + (k - 1) ≤ rootIndex k := by unfold rootIndex; omega
  unfold buildTree
  split
  · exact putNode_keepsLeaves h (by omega) fun _ => ⟨rfl, rfl⟩
  · have merged := foldl_mergeStep_keepsLeaves h (k - 1) root
    exact merged.trans (setParent_keepsLeaves merged.wf le_rfl 0#9)

end KeepsLeaves

/-! ## The command (R141) -/

/-- The state BUILD leaves (R141). -/
def built (s : State) : State := { s with
  node := buildTree s.node s.k.toNat, nn := BitVec.ofNat 10 (rootIndex s.k.toNat),
  phase := if s.phase = .scanned then .builtC else .builtD, err := .ok }

/-- BUILD completes in both its legal phases, whatever the leaves are. -/
theorem exec_build_of_legal {s : State} (hr : s.ready = true) (hp : s.phase = .scanned ∨ s.phase = .hdrRead) :
    exec .build s = .next (built s) := by
  have hl : legalIn .build s.phase = true := by simpa [legalIn] using hp
  rw [exec, execBuild, accept_of_legal hr hl, built]

/-- Settles O19: for K = 1 the one write is the self-loop. -/
theorem buildOfOneSymbolIsASelfLoop : Obligations.BuildOfOneSymbolIsASelfLoop := by
  intro s hr hp hk hw
  obtain ⟨-, hn, -⟩ := (tablesWf_iff s).1 hw
  have hk1 : s.k.toNat = 1 := congrArg BitVec.toNat hk
  have node (i : Nat) : (built s).nodeAt i
      = if i = 1 then { s.nodeAt 1 with left := 1#9, right := 1#9 } else s.nodeAt i := by
    rw [State.nodeAt, built, hk1]
    exact nodeIn_buildTree_one hn i
  refine ⟨built s, exec_build_of_legal hr hp, ?_, (node 1).trans (if_pos rfl), fun i hi => (node i).trans (if_neg hi)⟩
  rw [built, hk1]
  rfl

/-- Settles O20: each write of BUILD is of a node above K, of a parent or of a self-loop, none above the root. -/
theorem buildWritesTheTreeOnly : Obligations.BuildWritesTheTreeOnly := by
  intro s hr hp h1 h256 hw
  obtain ⟨-, hn, -⟩ := (tablesWf_iff s).1 hw
  have kept := buildTree_keepsLeaves hn h1
  have hnn : (built s).nn.toNat = rootIndex s.k.toNat := by
    rw [built, BitVec.toNat_ofNat, Nat.mod_eq_of_lt (by unfold rootIndex; omega)]
  exact ⟨built s, exec_build_of_legal hr hp, rfl, hnn, fun i _ hi => kept.leaves i hi, kept.above⟩

/-- Settles O23: the merge loop ends with one tree over the leaves. -/
theorem buildGrowsAWellFormedTree : Obligations.BuildGrowsAWellFormedTree := by
  intro s hr hp _ hw hs hl
  obtain ⟨wf, wn, wc⟩ := (tablesWf_iff s).1 hw
  exact ⟨built s, exec_build_of_legal hr hp, buildTree_treeBuilt hw hs hl rfl rfl rfl rfl,
    buildTree_symbols hw hs hl rfl rfl rfl rfl, (tablesWf_iff _).2 ⟨wf, buildTree_wf wn _, wc⟩⟩

end Sys2Proof.Safety
end

section
/-! PROOFS. The GENCODE command (R161 to R167): it completes, what it enters for one symbol and for more, where a code leads
when it is followed from the root, and that no code begins another. -/

namespace Sys2Proof.Safety

open Sys2Proof Sys2Proof.Machine

/-! ## The command (R161) -/

/-- The state GENCODE leaves when it has made the code table `ct` (R161). -/
def codedWith (s : State) (ct : Table Code) : State := { s with code := ct, phase := .coded, err := .ok }

/-- GENCODE completes in its legal phase whenever every walk ends. -/
theorem exec_gencode_of_genCodes {s : State} {ct : Table Code} (hr : s.ready = true) (hp : s.phase = .builtC)
    (hg : genCodes s = some ct) : exec .gencode s = .next (codedWith s ct) := by
  have hl : legalIn .gencode s.phase = true := by rw [hp]; rfl
  rw [exec, execGencode, accept_of_legal hr hl, hg, codedWith]

/-- Settles O25: for K = 1 the one write is of the single bit 1. -/
theorem gencodeOfOneSymbolIsOne : Obligations.GencodeOfOneSymbolIsOne := by
  intro s hr hp hw hk
  obtain ⟨-, -, wc⟩ := (tablesWf_iff s).1 hw
  have hg : genCodes s = some (putCode s.code (s.nodeAt 1).sym [true]) := if_pos (congrArg BitVec.toNat hk)
  have entry := fun b => read_putCode wc (s.nodeAt 1).sym b [true]
  exact ⟨_, exec_gencode_of_genCodes hr hp hg, rfl, (entry _).trans (if_pos rfl),
    fun b hb => (entry b).trans (if_neg hb)⟩

/-! ## Two symbols or more -/

section Tree

variable {s : State} (hs : Symbols s) (hb : TreeBuilt s) (h2 : 2 ≤ s.k.toNat)

include hs hb h2

/-- Whatever canonical table stands before, GENCODE enters the walk of every leaf and changes no other entry. -/
theorem genCodes_many (wc : Table.wf Code.absent 0 256 s.code = true) :
    ∃ ct, genCodes s = some ct ∧
      (∀ i, 1 ≤ i → i ≤ s.k.toNat → ∀ c, codeOfLeaf s.node i = some c →
        (codedWith s ct).codeAt (s.nodeAt i).sym = ⟨BitVec.ofNat 8 c.length, c⟩) ∧
      (∀ b, (∀ i, 1 ≤ i → i ≤ s.k.toNat → (s.nodeAt i).sym ≠ b) → (codedWith s ct).codeAt b = s.codeAt b) := by
  have walkEnds : ∀ i ∈ leafIndices s.k.toNat, ∃ c, codeOfLeaf s.node i = some c := fun i hi => by
    obtain ⟨i1, i2⟩ := mem_leafIndices.1 hi
    obtain ⟨c, hc, -⟩ := codeOfLeaf_spec hs.kMax hb h2 i1 i2
    exact ⟨c, hc⟩
  obtain ⟨ct, hg, -, entry, other⟩ := enterCodes_spec _ wc walkEnds hs.list.pairwise_sym_ne
  refine ⟨ct, ?_, fun i i1 i2 => entry i (mem_leafIndices.2 ⟨i1, i2⟩), fun b hne => other b fun i hi => ?_⟩
  · rw [genCodes, if_neg (by omega), hg]
  · obtain ⟨i1, i2⟩ := mem_leafIndices.1 hi
    exact hne i i1 i2

/-- A node from which a leaf is still to be reached by one move or more stands above K: NODE[0] and the leaves lead to
NODE[0] only (R40, R43). -/
theorem k_lt_of_descend_ne_zero {p : Index} {bits : List Bit} (hne : bits ≠ []) (h : descend s.node p bits ≠ 0#9) :
    s.k.toNat < p.toNat := by
  by_contra hle
  refine h ?_
  rcases Nat.eq_zero_or_pos p.toNat with h0 | h0
  · have hp : p = 0#9 := BitVec.eq_of_toNat_eq h0
    rw [hp, descend_zero]
  · have hz := descend_leaf hs.kMax hb h2 h0 (Nat.le_of_not_lt hle) hne
    rwa [BitVec.ofNat_toNat, BitVec.setWidth_eq] at hz

end Tree

/-- Settles O24: every walk ends, and the table entered is the table of the walks. -/
theorem gencodeEntersEveryWalk : Obligations.GencodeEntersEveryWalk := by
  intro s hr hp hw hs hb h2
  obtain ⟨-, -, wc⟩ := (tablesWf_iff s).1 hw
  obtain ⟨ct, hg, entry, other⟩ := genCodes_many hs hb h2 wc
  refine ⟨codedWith s ct, exec_gencode_of_genCodes hr hp hg, rfl, fun i i1 i2 => ?_, other⟩
  obtain ⟨c, hc, -, l1, l2⟩ := codeOfLeaf_spec hs.kMax hb h2 i1 i2
  exact ⟨c, hc, entry i i1 i2 c hc, l1, l2⟩

/-- Settles O26: the walk up retraced downwards; a proper beginning has a move left, so it has not met a leaf. -/
theorem codesLeadFromRootToLeaf : Obligations.CodesLeadFromRootToLeaf := by
  intro s i c _ hs hb h2 i1 i2 hc
  obtain ⟨c', hc', down, -⟩ := codeOfLeaf_spec hs.kMax hb h2 i1 i2
  obtain rfl : c = c' := Option.some_inj.1 (hc.symm.trans hc')
  have hi : (descend s.node (rootPtr s) c).toNat = i := by
    rw [down]
    exact toNat_ofNat_index (by have := hs.kMax; omega)
  refine ⟨hi, ?_⟩
  rintro p ⟨rest, rfl⟩ hne
  have hrest : rest ≠ [] := fun e => hne (by rw [e, List.append_nil])
  rw [descend_append] at hi
  refine k_lt_of_descend_ne_zero hs hb h2 hrest fun hz => ?_
  rw [hz] at hi
  exact absurd i1 (by rw [← hi]; decide)

/-- Settles O27: the entries are the walks, and no leaf's walk begins another's. -/
theorem codesAreBeginningFree : Obligations.CodesAreBeginningFree := by
  intro s hr hp hw hs hb h2
  obtain ⟨t, ht, -, entry, -⟩ := gencodeEntersEveryWalk s hr hp hw hs hb h2
  refine ⟨t, ht, fun i j i1 i2 j1 j2 hij => ?_⟩
  obtain ⟨c, hc, ec, -⟩ := entry i i1 i2
  obtain ⟨d, hd, ed, -⟩ := entry j j1 j2
  rw [ec, ed]
  exact codeOfLeaf_noExtension hs.kMax hb h2 i1 i2 j1 j2 hij hc hd

end Sys2Proof.Safety
end

section
/-! PROOFS. ENCODE (R176 to R181): what each of its beats pushes, and the packing of a whole frame. -/

namespace Sys2Proof.Safety

open Sys2Proof Sys2Proof.Machine

/-! ## Acceptance (R176) -/

/-- Settles O35: HDR_WRITTEN is ENCODE's one legal phase. -/
theorem encodeIsAccepted : Obligations.EncodeIsAccepted := by
  intro s hr hp
  rw [exec, execEncode, accept_of_legal hr (by rw [hp]; rfl)]

/-! ## One beat (R177) -/

theorem beatEffect_of_encode {s : State} (hc : s.cur = .encode) (b : Beat) : beatEffect s b = encodeBeat s b := by
  rw [beatEffect, hc]

/-- A beat of ENCODE that leads to `t` pushes what `t` has in OUTQ after what was there. -/
theorem beatPushes_of_encodeBeat {s t : State} {b : Beat} {rest out : List Beat} (hc : s.cur = .encode)
    (hq : s.inq = b :: rest) (ht : encodeBeat { s with inq := rest } b = t) (ho : t.outq = s.outq ++ out) :
    BeatPushes s out t := by
  have effect : beatEffect { s with inq := rest } b = t := (beatEffect_of_encode (by exact hc) b).trans ht
  rw [← effect] at ho ⊢
  exact beatPushes_of ((busy_iff s).2 (by rw [hc]; nofun)) hq ho

theorem encodeBeat_dataBeat (s : State) (d : Byte) : encodeBeat s (dataBeat d) = encodeData d s := rfl

/-- A byte with a code: however the bits are split into bytes and fewer than 8 bits, that is the packing (R178). -/
theorem encodeBeat_of_code {s : State} {d : Byte} {bytes : List Byte} {left : List Bit} (hd : (s.codeAt d).len ≠ 0#8)
    (hl : left.length < 8) (hsplit : s.acc ++ (s.codeAt d).bits = bytes.flatMap byteBits ++ left) :
    encodeBeat s (dataBeat d) = { s with acc := left, outq := s.outq ++ dataBeats bytes } := by
  rw [encodeBeat_dataBeat, encodeData, if_neg hd, packPending_eq hl hsplit]
  rfl

/-- A byte without a code (R179). -/
theorem encodeBeat_of_noCode {s : State} {d : Byte} (hd : (s.codeAt d).len = 0#8) :
    encodeBeat s (dataBeat d) = raiseFault .noCode true (pushOut [eosBeat] s) := by
  rw [encodeBeat_dataBeat, encodeData, if_pos hd]

theorem encodeBeat_of_eos {s : State} {e : Beat} (he : e.eos = true) : encodeBeat s e = encodeEos s := by
  rw [encodeBeat, if_pos he]

/-- All bits can be split into whole bytes and fewer than 8 bits (R178). -/
theorem exists_bytes_append (bits : List Bit) : ∃ (bytes : List Byte) (left : List Bit),
    bits = bytes.flatMap byteBits ++ left ∧ left.length < 8 ∧ bytes.length = bits.length / 8 := by
  obtain ⟨hsplit, hl⟩ := packWhole_spec bits.length bits le_rfl
  refine ⟨_, _, hsplit, hl, ?_⟩
  have hlen := congrArg List.length hsplit
  rw [List.length_append, flatMap_byteBits_length] at hlen
  omega

/-- Settles O36: the packing loop pushes the whole bytes of the one split there is. -/
theorem encodePacksOneByte : Obligations.EncodePacksOneByte := by
  intro s d rest hc hq hd
  obtain ⟨bytes, left, hsplit, hl, hlen⟩ := exists_bytes_append (s.acc ++ (s.codeAt d).bits)
  rw [List.length_append] at hlen
  exact ⟨bytes, left, hsplit, hl, hlen,
    beatPushes_of_encodeBeat hc hq (encodeBeat_of_code (s := { s with inq := rest }) hd hl hsplit) rfl⟩

/-- Settles O37: the beat is the fault E_NOCODE with draining, behind the EOS that closes the OUT frame. -/
theorem encodeByteWithoutCodeDrains : Obligations.EncodeByteWithoutCodeDrains := by
  intro s d rest hc hq hd
  exact beatPushes_of_encodeBeat hc hq (encodeBeat_of_noCode (s := { s with inq := rest }) hd) rfl

/-! ## The EOS beat (R180) -/

/-- The state in which ENCODE leaves the block when the beats `out` are the last it pushes: the operation is cleared. -/
def encodedFrame (s : State) (rest out : List Beat) : State := { clearState s with
  inq := rest, outq := s.outq ++ out, phase := .idle, cur := .none, err := .ok }

/-- The EOS beat pushes the flush and closes the frame, whatever is pending. -/
theorem beatPushes_of_encode_eos {s : State} {e : Beat} {rest : List Beat} (hc : s.cur = .encode) (hq : s.inq = e :: rest)
    (he : e.eos = true) : BeatPushes s (dataBeats (flushBytes s.acc) ++ [eosBeat])
      (encodedFrame s rest (dataBeats (flushBytes s.acc) ++ [eosBeat])) :=
  beatPushes_of_encodeBeat hc hq (encodeBeat_of_eos he) rfl

@[simp] theorem flushBytes_nil : flushBytes [] = [] := rfl

theorem flushBytes_of_ne_nil {acc : List Bit} (h : acc ≠ []) : flushBytes acc = [pack8 (padZeros acc)] := if_neg h

/-- The flushed byte holds the pending bits and the zeros (R102). -/
theorem byteBits_pack8_padZeros {acc : List Bit} (h : acc.length ≤ 8) : byteBits (pack8 (padZeros acc)) = padZeros acc :=
  byteBits_pack8 (by rw [padZeros, List.length_append, List.length_replicate]; omega)

/-- Settles O38: the flush is empty, or the one padded byte. -/
theorem encodeFlushesAtTheEnd : Obligations.EncodeFlushesAtTheEnd := by
  constructor
  · intro s e rest hc hq he hacc
    have beat := beatPushes_of_encode_eos hc hq he
    rw [hacc, flushBytes_nil] at beat
    exact beat
  · intro s e rest hc hq he h1 h7
    have beat := beatPushes_of_encode_eos hc hq he
    rw [flushBytes_of_ne_nil (List.length_pos_iff.1 h1)] at beat
    exact ⟨_, byteBits_pack8_padZeros (by omega), beat⟩

/-! ## A whole frame (R181) -/

/-- Whole bytes at the front are packed as they are (R99). -/
theorem packAll_bytes_append (bytes : List Byte) (bits : List Bit) :
    packAll (bytes.flatMap byteBits ++ bits) = bytes ++ packAll bits := by
  obtain ⟨more, left, rfl, hl, -⟩ := exists_bytes_append bits
  rw [← List.append_assoc, ← List.flatMap_append, packAll_eq _ _ hl, packAll_eq _ _ hl, List.append_assoc]

/-- Fewer than 8 bits are packed by the flush (R180). -/
theorem packAll_of_lt {bits : List Bit} (h : bits.length < 8) : packAll bits = flushBytes bits := packAll_eq [] bits h

theorem codeBits_cons (s : State) (b : Byte) (bytes : List Byte) :
    codeBits s (b :: bytes) = (s.codeAt b).bits ++ codeBits s bytes := List.flatMap_cons

theorem dataBeats_append (bs cs : List Byte) : dataBeats (bs ++ cs) = dataBeats bs ++ dataBeats cs := List.map_append

/-- Room for two pushes one after the other is room for the second once the first has happened. -/
theorem room_of_pushed {s t : State} {out : List Beat} {n : Nat} (hcfg : t.cfg = s.cfg) (ho : t.outq = s.outq ++ out)
    (h : s.room (out.length + n) = true) : t.room n = true := by
  cases hd : s.cfg.outDepth with
  | none => exact room_unbounded (by rw [hcfg, hd]) n
  | some d =>
    rw [room_iff hd] at h
    rw [room_iff (by rw [hcfg, hd]), ho, List.length_append]
    omega

/-- The beats of a frame, from any pending bits on: one step each. -/
theorem runs_encode (junk : Byte) (rest : List Beat) : ∀ (bytes : List Byte) {s : State}, s.cur = .encode →
    s.host.script = [] → s.acc.length < 8 → s.room ((packAll (s.acc ++ codeBits s bytes)).length + 1) = true →
    s.inq = frame bytes junk ++ rest → (∀ b ∈ bytes, (s.codeAt b).len ≠ 0#8) →
    runs (bytes.length + 1) s (encodedFrame s rest (dataBeats (packAll (s.acc ++ codeBits s bytes)) ++ [eosBeat]))
  | [], s, hc, hs, ha, hroom, hq, _ => by
    have flush : packAll (s.acc ++ codeBits s []) = flushBytes s.acc := by
      rw [codeBits, List.flatMap_nil, List.append_nil, packAll_of_lt ha]
    rw [flush] at hroom ⊢
    have beat := beatPushes_of_encode_eos hc hq rfl
    exact runs_one (step_of_beatStep hs (beat.whole (by simpa using hroom)))
  | b :: bytes, s, hc, hs, ha, hroom, hq, hcodes => by
    obtain ⟨whole, left, hsplit, hl, -, beat⟩ := encodePacksOneByte s b _ hc hq (hcodes b List.mem_cons_self)
    have pack : packAll (s.acc ++ codeBits s (b :: bytes)) = whole ++ packAll (left ++ codeBits s bytes) := by
      rw [codeBits_cons, ← List.append_assoc, hsplit, List.append_assoc, packAll_bytes_append]
    rw [pack, List.length_append, Nat.add_assoc, ← dataBeats_length whole] at hroom
    have hrun := runs_encode junk rest bytes
      (s := { s with inq := frame bytes junk ++ rest, acc := left, outq := s.outq ++ dataBeats whole })
      hc hs hl (room_of_pushed (s := s) rfl rfl hroom) rfl fun b hb => hcodes b (List.mem_cons_of_mem _ hb)
    have hstep := step_of_beatStep hs (beat.whole (room_mono (Nat.le_add_right _ _) hroom))
    rw [pack, dataBeats_append, List.append_assoc]
    rw [encodedFrame, List.append_assoc] at hrun
    exact runs_succ hstep hrun

/-- Settles O39: ENCODE begins with nothing pending, and each beat of the frame packs its code behind what is pending. -/
theorem encodePacksAWholeFrame : Obligations.EncodePacksAWholeFrame := by
  intro s bytes junk rest hr hp hs hroom hq hcodes
  refine ⟨_, encodeIsAccepted s hr hp, ?_⟩
  have hrun := runs_encode junk rest bytes (s := { s with cur := .encode, acc := [] }) rfl hs (Nat.zero_lt_succ 7) hroom hq hcodes
  rw [encodedFrame, ← List.append_assoc, ← ((ready_iff s).1 hr).1] at hrun
  exact hrun

end Sys2Proof.Safety
end

section
/-! PROOFS. DECODE (R196 to R207): what each of its beats pushes and where its walk stands, a whole frame, and the packing of
ENCODE undone. -/

namespace Sys2Proof.Safety

open Sys2Proof Sys2Proof.Machine

/-! ## Acceptance (R197) -/

/-- Settles O40: BUILT_D is DECODE's one legal phase. -/
theorem decodeIsAccepted : Obligations.DecodeIsAccepted := by
  intro s hr hp
  rw [exec, execDecode, accept_of_legal hr (by rw [hp]; rfl)]
  rfl

/-! ## The walk of R200, apart from REMAIN -/

/-- The symbols that the bits give from node `p` of the table `t` with K = `k`, and the node where the walk stops. -/
def readBits (t : Table Node) (k : BitVec 9) : Index → List Bit → List Byte × Index
  | p, []      => ([], p)
  | p, b :: bs =>
    let c := childOf (nodeIn t p.toNat) b
    if c.toNat ≤ k.toNat then
      let r := readBits t k (BitVec.ofNat 9 (rootIndex k.toNat)) bs
      ((nodeIn t c.toNat).sym :: r.1, r.2)
    else readBits t k c bs

section ReadBits

variable {t : Table Node} {k : BitVec 9}

@[simp] theorem readBits_nil (p : Index) : readBits t k p [] = ([], p) := rfl

/-- A bit that leads to a leaf gives its symbol. -/
theorem readBits_leaf {p : Index} {b : Bit} (h : (childOf (nodeIn t p.toNat) b).toNat ≤ k.toNat) (bs : List Bit) :
    readBits t k p (b :: bs) =
      ((nodeIn t (childOf (nodeIn t p.toNat) b).toNat).sym :: (readBits t k (BitVec.ofNat 9 (rootIndex k.toNat)) bs).1,
        (readBits t k (BitVec.ofNat 9 (rootIndex k.toNat)) bs).2) := if_pos h

/-- A bit that leads to a node above K only moves the walk there. -/
theorem readBits_inner {p : Index} {b : Bit} (h : ¬ (childOf (nodeIn t p.toNat) b).toNat ≤ k.toNat) (bs : List Bit) :
    readBits t k p (b :: bs) = readBits t k (childOf (nodeIn t p.toNat) b) bs := if_neg h

/-- The walk over more bits goes on where it stopped. -/
theorem readBits_append (bs : List Bit) : ∀ (as : List Bit) (p : Index), readBits t k p (as ++ bs) =
    ((readBits t k p as).1 ++ (readBits t k (readBits t k p as).2 bs).1, (readBits t k (readBits t k p as).2 bs).2)
  | [], p => rfl
  | a :: as, p => by
    rw [List.cons_append]
    by_cases h : (childOf (nodeIn t p.toNat) a).toNat ≤ k.toNat
    · rw [readBits_leaf h, readBits_leaf h, readBits_append bs as]
      rfl
    · rw [readBits_inner h, readBits_inner h, readBits_append bs as]

/-- No bit gives more than one symbol. -/
theorem readBits_length_le : ∀ (bits : List Bit) (p : Index), (readBits t k p bits).1.length ≤ bits.length
  | [], _ => le_rfl
  | b :: bs, p => by
    by_cases h : (childOf (nodeIn t p.toNat) b).toNat ≤ k.toNat
    · rw [readBits_leaf h]
      exact Nat.succ_le_succ (readBits_length_le bs _)
    · rw [readBits_inner h]
      exact (readBits_length_le bs _).trans (Nat.le_succ _)

/-- A path that meets nodes above K only before it ends at a leaf gives the leaf's symbol, and the walk goes on at the root. -/
theorem readBits_path {bits : List Bit} : ∀ (path : List Bit) (p : Index), path ≠ [] →
    (∀ before, before <+: path → before ≠ [] → before ≠ path → k.toNat < (descend t p before).toNat) →
    (descend t p path).toNat ≤ k.toNat →
    (readBits t k p (path ++ bits)).1 = (nodeIn t (descend t p path).toNat).sym ::
      (readBits t k (BitVec.ofNat 9 (rootIndex k.toNat)) bits).1
  | [], _, hne, _, _ => absurd rfl hne
  | [b], p, _, _, hleaf => by
    rw [List.singleton_append, readBits_leaf (by exact hleaf)]
    rfl
  | b :: c :: path, p, _, above, hleaf => by
    have first : k.toNat < (childOf (nodeIn t p.toNat) b).toNat := above [b] ⟨c :: path, rfl⟩ nofun nofun
    rw [List.cons_append, readBits_inner (Nat.not_le_of_lt first),
      readBits_path (c :: path) _ nofun (fun before h1 _ h3 => above (b :: before) ((List.prefix_cons_inj b).2 h1) nofun
        fun e => h3 ((List.cons_inj_right b).1 e)) hleaf]
    rfl

/-- K = 1: every bit gives the only symbol (R204). -/
theorem readBits_single (hl : (nodeIn t 1).left = 1#9) (hr : (nodeIn t 1).right = 1#9) : ∀ bits : List Bit,
    readBits t 1#9 1#9 bits = (List.replicate bits.length (nodeIn t 1).sym, 1#9)
  | [] => rfl
  | b :: bs => by
    have child : childOf (nodeIn t (1#9).toNat) b = 1#9 := by cases b <;> [exact hl; exact hr]
    have root : BitVec.ofNat 9 (rootIndex (1#9).toNat) = 1#9 := rfl
    rw [readBits_leaf (by rw [child]), child, root, readBits_single hl hr bs]
    rfl

end ReadBits

/-- The walk is the one the spec tells of. -/
theorem reads_readBits (s : State) : ∀ (bits : List Bit) (p : Index),
    Reads s p bits (readBits s.node s.k p bits).1 (readBits s.node s.k p bits).2
  | [], p => Reads.stop p [] fun _ h1 h2 => absurd (List.prefix_nil.1 h1) h2
  | b :: bs, p => by
    by_cases h : (childOf (s.nodeAt p.toNat) b).toNat ≤ s.k.toNat
    · rw [readBits_leaf h]
      exact reads_leaf h (reads_readBits s bs _)
    · rw [readBits_inner h]
      exact reads_inner (Nat.lt_of_not_le h) (reads_readBits s bs _)

/-! ## The loop of R200 -/

/-- The state after DECODE has given fewer symbols than were to come, its walk standing at `q`. -/
def unpacked (s : State) (symbols : List Byte) (q : Index) : State := { s with
  outq := s.outq ++ dataBeats symbols, ptr := q, remain := s.remain - BitVec.ofNat 32 symbols.length }

/-- The state after DECODE has given its last symbols (R201). -/
def unpackedAll (s : State) (symbols : List Byte) : State := { clearState s with
  outq := s.outq ++ dataBeats symbols ++ [eosBeat], err := .ok, phase := .idle, cur := .drain }

theorem unpacked_remain {s : State} {symbols : List Byte} (h : symbols.length < s.remain.toNat) (q : Index) :
    (unpacked s symbols q).remain.toNat = s.remain.toNat - symbols.length := by
  have hn : (BitVec.ofNat 32 symbols.length).toNat = symbols.length :=
    Nat.mod_eq_of_lt (h.trans s.remain.isLt)
  change (s.remain - BitVec.ofNat 32 symbols.length).toNat = _
  rw [BitVec.toNat_sub_of_le (BitVec.le_def.2 (by omega)), hn]

/-- Symbols given one after the other are the symbols given together. -/
theorem unpacked_unpacked (s : State) (as bs : List Byte) (p q : Index) :
    unpacked (unpacked s as p) bs q = unpacked s (as ++ bs) q := by
  simp only [unpacked, dataBeats_append, List.append_assoc, List.length_append, BitVec.ofNat_add, sub_sub]

theorem unpackedAll_unpacked (s : State) (as bs : List Byte) (p : Index) :
    unpackedAll (unpacked s as p) bs = unpackedAll s (as ++ bs) := by
  simp only [unpackedAll, unpacked, dataBeats_append, List.append_assoc]
  rfl

/-- A bit that leads to a leaf: the last symbol to come ends the operation, any other takes the walk to the root. -/
theorem walkBits_leaf {s : State} {b : Bit} (h : (childOf (s.nodeAt s.ptr.toNat) b).toNat ≤ s.k.toNat) (bs : List Bit) :
    walkBits (b :: bs) s = if s.remain - 1 = 0#32 then
      unpackedAll s [(s.nodeAt (childOf (s.nodeAt s.ptr.toNat) b).toNat).sym]
    else walkBits bs (unpacked s [(s.nodeAt (childOf (s.nodeAt s.ptr.toNat) b).toNat).sym] (rootPtr s)) := if_pos h

theorem walkBits_inner {s : State} {b : Bit} (h : ¬ (childOf (s.nodeAt s.ptr.toNat) b).toNat ≤ s.k.toNat) (bs : List Bit) :
    walkBits (b :: bs) s = walkBits bs { s with ptr := childOf (s.nodeAt s.ptr.toNat) b } := if_neg h

/-- The loop gives what the walk gives, and ends with the symbol that takes REMAIN to 0 (R201). -/
theorem walkBits_eq : ∀ (bits : List Bit) {s : State}, 1 ≤ s.remain.toNat → walkBits bits s =
    if (readBits s.node s.k s.ptr bits).1.length < s.remain.toNat then
      unpacked s (readBits s.node s.k s.ptr bits).1 (readBits s.node s.k s.ptr bits).2
    else unpackedAll s ((readBits s.node s.k s.ptr bits).1.take s.remain.toNat)
  | [], s, h1 => by
    rw [if_pos (by exact h1)]
    simp [walkBits, unpacked, dataBeats]
  | b :: bs, s, h1 => by
    by_cases hleaf : (childOf (s.nodeAt s.ptr.toNat) b).toNat ≤ s.k.toNat
    · have hrem : (s.remain - 1).toNat = s.remain.toNat - 1 := BitVec.toNat_sub_of_le (BitVec.le_def.2 h1)
      rw [walkBits_leaf hleaf, readBits_leaf hleaf]
      split
      · next hlast =>
        have hone : s.remain.toNat = 1 := by rw [hlast] at hrem; change 0 = _ at hrem; omega
        rw [if_neg (by rw [hone]; exact Nat.not_lt.2 (Nat.succ_le_succ (Nat.zero_le _))), hone]
        rfl
      · next hmore =>
        have h2 : 1 < s.remain.toNat := Nat.lt_of_le_of_ne h1 fun e => hmore (BitVec.eq_of_toNat_eq (by rw [hrem, ← e]; rfl))
        obtain ⟨n, hn⟩ : ∃ n, s.remain.toNat = n + 1 := ⟨_, (Nat.sub_add_cancel h1).symm⟩
        have left := unpacked_remain (symbols := [(s.nodeAt (childOf (s.nodeAt s.ptr.toNat) b).toNat).sym]) h2 (rootPtr s)
        rw [hn, List.length_singleton, Nat.add_sub_cancel] at left
        rw [walkBits_eq bs (by omega), unpacked_unpacked, unpackedAll_unpacked, left, hn]
        simp only [List.length_cons, Nat.add_lt_add_iff_right, List.take_succ_cons]
        rfl
    · rw [walkBits_inner hleaf, readBits_inner hleaf]
      exact walkBits_eq bs h1

/-! ## One beat (R198) -/

theorem beatEffect_of_decode {s : State} (hc : s.cur = .decode) (b : Beat) : beatEffect s b = decodeBeat s b := by
  rw [beatEffect, hc]

/-- A beat of DECODE that leads to `t` pushes what `t` has in OUTQ after what was there. -/
theorem beatPushes_of_decodeBeat {s t : State} {b : Beat} {rest out : List Beat} (hc : s.cur = .decode)
    (hq : s.inq = b :: rest) (ht : decodeBeat { s with inq := rest } b = t) (ho : t.outq = s.outq ++ out) :
    BeatPushes s out t := by
  have effect : beatEffect { s with inq := rest } b = t := (beatEffect_of_decode (by exact hc) b).trans ht
  rw [← effect] at ho ⊢
  exact beatPushes_of ((busy_iff s).2 (by rw [hc]; nofun)) hq ho

/-- Settles O43: the beat is the fault E_MALFORMED without draining, behind the EOS that closes the OUT frame. -/
theorem decodePayloadTooShort : Obligations.DecodePayloadTooShort := by
  intro s e rest hc hq he
  exact beatPushes_of_decodeBeat hc hq (by rw [decodeBeat, if_pos he, decodeEos]; rfl) rfl

/-- A payload byte that gives fewer symbols than are to come (R200). -/
theorem beatPushes_of_fewer {s : State} {d : Byte} {rest : List Beat} (hc : s.cur = .decode) (hq : s.inq = dataBeat d :: rest)
    (hl : (readBits s.node s.k s.ptr (byteBits d)).1.length < s.remain.toNat) :
    BeatPushes s (dataBeats (readBits s.node s.k s.ptr (byteBits d)).1)
      (unpacked { s with inq := rest } (readBits s.node s.k s.ptr (byteBits d)).1 (readBits s.node s.k s.ptr (byteBits d)).2) :=
  beatPushes_of_decodeBeat hc hq
    ((walkBits_eq (byteBits d) (s := { s with inq := rest }) (Nat.one_le_of_lt hl)).trans (if_pos hl)) rfl

/-- A payload byte that gives the symbols that are to come, or more (R201). -/
theorem beatPushes_of_enough {s : State} {d : Byte} {rest : List Beat} (hc : s.cur = .decode) (hq : s.inq = dataBeat d :: rest)
    (h1 : 1 ≤ s.remain.toNat) (hl : s.remain.toNat ≤ (readBits s.node s.k s.ptr (byteBits d)).1.length) :
    BeatPushes s (dataBeats ((readBits s.node s.k s.ptr (byteBits d)).1.take s.remain.toNat) ++ [eosBeat])
      (unpackedAll { s with inq := rest } ((readBits s.node s.k s.ptr (byteBits d)).1.take s.remain.toNat)) :=
  beatPushes_of_decodeBeat hc hq
    ((walkBits_eq (byteBits d) (s := { s with inq := rest }) h1).trans (if_neg (Nat.not_lt.2 hl))) (List.append_assoc _ _ _)

/-- Settles O41: with K = 1 the walk gives the symbol once for each of the eight bits. -/
theorem decodeOfOneSymbolRepeatsIt : Obligations.DecodeOfOneSymbolRepeatsIt := by
  intro s d rest hc hq hk hp hl hr
  have walk : readBits s.node s.k s.ptr (byteBits d) = (List.replicate 8 (s.nodeAt 1).sym, 1#9) := by
    rw [hk, hp]
    exact readBits_single hl hr _
  constructor
  · intro h8
    have beat := beatPushes_of_fewer hc hq (by rwa [walk])
    rw [walk, unpacked, dataBeats, List.map_replicate, ← hp] at beat
    exact beat
  · intro h1 h8
    have beat := beatPushes_of_enough hc hq h1 (by rwa [walk])
    rw [walk, unpackedAll, dataBeats, List.take_replicate, Nat.min_eq_left h8, List.map_replicate] at beat
    exact beat

/-- Settles O42: the walk gives the bytes and the end pointer; in a state of a run the step keeps what R203 says of PTR. -/
theorem decodeStaysInsideTheTree : Obligations.DecodeStaysInsideTheTree := by
  intro s d rest hs hc hq
  obtain ⟨-, -, hu⟩ := (operation_decode hc).1 hs.operation
  set r := readBits s.node s.k s.ptr (byteBits d)
  refine ⟨r.1, r.2, reads_readBits s (byteBits d) s.ptr, readBits_length_le (byteBits d) s.ptr, fun hl => ?_,
    fun hl => beatPushes_of_enough hc hq hu.remainPos hl⟩
  have kept : operation (decodeBeat { s with inq := rest } (dataBeat d)) :=
    (decodeBeat_operation (s := { s with inq := rest }) hs.tables
      (operation_ports hs.operation s.host rest s.outq s.sent s.cfg.outDepth s.err s.faults) hc (dataBeat d)).2
  have effect : decodeBeat { s with inq := rest } (dataBeat d) = unpacked { s with inq := rest } r.1 r.2 :=
    (walkBits_eq (byteBits d) (s := { s with inq := rest }) hu.remainPos).trans (if_pos hl)
  rw [effect] at kept
  obtain ⟨-, -, hu'⟩ := (operation_decode (by exact hc)).1 kept
  refine ⟨_, hu', ?_, rfl, beatPushes_of_fewer hc hq hl⟩
  rw [unpacked_remain (s := { s with inq := rest }) hl]
  exact Nat.sub_add_cancel hl.le

/-! ## A whole frame (R200 to R202, R205) -/

/-- The state in which DECODE and its draining leave the block when the frame gave these symbols: the first REMAIN of them are
pushed, and with too few it is E_MALFORMED. -/
def decodedFrame (s : State) (rest : List Beat) (symbols : List Byte) : State := { clearState s with
  inq := rest, outq := s.outq ++ dataBeats (symbols.take s.remain.toNat) ++ [eosBeat], phase := .idle, cur := .none,
  err := if s.remain.toNat ≤ symbols.length then .ok else .malformed,
  faults := if s.remain.toNat ≤ symbols.length then s.faults else s.faults ||| 0x10#8 }

/-- Once the symbols to come are there, what the rest of the frame would give does not matter (R205). -/
theorem decodedFrame_of_enough {s : State} {as : List Byte} (h : s.remain.toNat ≤ as.length) (rest : List Beat)
    (bs : List Byte) : decodedFrame s rest (as ++ bs) = { unpackedAll s (as.take s.remain.toNat) with
      inq := rest, cur := .none } := by
  have hl : s.remain.toNat ≤ (as ++ bs).length := by rw [List.length_append]; omega
  rw [decodedFrame, if_pos hl, if_pos hl, List.take_append_of_le_length h]
  rfl

/-- Symbols given by a beat count among those of the frame. -/
theorem decodedFrame_of_fewer {s : State} {as : List Byte} (h : as.length < s.remain.toNat) (rest q : List Beat)
    (p : Index) (bs : List Byte) :
    decodedFrame s rest (as ++ bs) = decodedFrame (unpacked { s with inq := q } as p) rest bs := by
  have hr := unpacked_remain (s := { s with inq := q }) h p
  set u := unpacked { s with inq := q } as p
  change u.remain.toNat = s.remain.toNat - as.length at hr
  have htake : (as ++ bs).take s.remain.toNat = as ++ bs.take u.remain.toNat := by
    rw [hr, List.take_append, List.take_of_length_le h.le]
  have hle : s.remain.toNat ≤ (as ++ bs).length ↔ u.remain.toNat ≤ bs.length := by rw [List.length_append]; omega
  have hout : u.outq = s.outq ++ dataBeats as := rfl
  simp only [decodedFrame, htake, hle, hout, dataBeats_append, List.append_assoc]
  rfl

/-- No symbols at all are too few. -/
theorem decodedFrame_nil {s : State} (h1 : 1 ≤ s.remain.toNat) (rest : List Beat) : decodedFrame s rest [] = { clearState s with
    inq := rest, outq := s.outq ++ [eosBeat], phase := .idle, cur := .none, err := .malformed, faults := s.faults ||| 0x10#8 } := by
  have hl : ¬ s.remain.toNat ≤ ([] : List Byte).length := Nat.not_le.2 h1
  rw [decodedFrame, if_neg hl, if_neg hl, List.take_nil, dataBeats, List.map_nil, List.append_nil]

/-- The beats of a frame, from any node and any REMAIN on: one step each, until REMAIN is 0 DECODE's and then draining. -/
theorem runs_decode (junk : Byte) (rest : List Beat) : ∀ (payload : List Byte) {s : State}, s.cur = .decode →
    s.host.script = [] → 1 ≤ s.remain.toNat → s.room (s.remain.toNat + 1) = true → s.inq = frame payload junk ++ rest →
    runs (payload.length + 1) s
      (decodedFrame s rest (readBits s.node s.k s.ptr (payload.flatMap byteBits)).1)
  | [], s, hc, hs, h1, hroom, hq => by
    have beat := decodePayloadTooShort s ⟨true, junk⟩ rest hc hq rfl
    rw [List.flatMap_nil, readBits_nil, decodedFrame_nil h1]
    exact runs_one (step_of_beatStep hs (beat.whole (room_mono (Nat.le_add_left _ _) hroom)))
  | d :: payload, s, hc, hs, h1, hroom, hq => by
    rw [List.flatMap_cons, readBits_append]
    by_cases hl : (readBits s.node s.k s.ptr (byteBits d)).1.length < s.remain.toNat
    · have beat := beatPushes_of_fewer hc hq hl
      set r := readBits s.node s.k s.ptr (byteBits d)
      have hrem := unpacked_remain (s := { s with inq := frame payload junk ++ rest }) hl r.2
      have hroom' : s.room ((dataBeats r.1).length + (s.remain.toNat - r.1.length + 1)) = true := by
        rw [dataBeats_length]
        exact room_mono (by omega) hroom
      rw [decodedFrame_of_fewer hl rest (frame payload junk ++ rest) r.2]
      refine runs_succ (step_of_beatStep hs (beat.whole (room_mono (Nat.le_add_right _ _) hroom'))) ?_
      refine runs_decode junk rest payload hc hs ?_ ?_ rfl
      · exact hrem ▸ Nat.sub_pos_of_lt hl
      · exact hrem ▸ room_of_pushed (s := s) rfl rfl hroom'
    · have hle := Nat.le_of_not_lt hl
      have beat := beatPushes_of_enough hc hq h1 hle
      rw [decodedFrame_of_enough hle]
      refine runs_succ (step_of_beatStep hs (beat.whole (room_mono ?_ hroom))) ?_
      · rw [List.length_append, dataBeats_length]
        exact Nat.succ_le_succ (List.length_take_le _ _)
      · exact runs_drain junk rest payload rfl hs rfl

/-! ## The packing undone (R207) -/

/-- A byte with a code: its code leads from the root, over nodes above K, to its leaf (R160, R163). -/
theorem readBits_code {s : State} (hw : s.tablesWf = true) (hs : Symbols s) (hb : TreeBuilt s) (hf : CodesFilled s) {b : Byte}
    (hcode : (s.codeAt b).len ≠ 0#8) (bits : List Bit) :
    (readBits s.node s.k (rootPtr s) ((s.codeAt b).bits ++ bits)).1 = b :: (readBits s.node s.k (rootPtr s) bits).1 := by
  obtain ⟨i, i1, i2, rfl⟩ : ∃ i, 1 ≤ i ∧ i ≤ s.k.toNat ∧ (s.nodeAt i).sym = b := by
    by_contra hno
    push Not at hno
    exact hcode (by rw [hf.others b hno]; rfl)
  set code := (s.codeAt (s.nodeAt i).sym).bits
  have hne : code ≠ [] := by
    have hlen := hf.leaves i i1 i2
    rw [← hf.exact] at hlen
    exact List.length_pos_iff.1 hlen
  have down : (descend s.node (rootPtr s) code).toNat = i ∧ ∀ before, before <+: code → before ≠ [] → before ≠ code →
      s.k.toNat < (descend s.node (rootPtr s) before).toNat := by
    rcases Nat.lt_or_eq_of_le hs.kPos with h2 | h1
    · obtain ⟨leaf, above⟩ := codesLeadFromRootToLeaf s i code hw hs hb h2 i1 i2 (hf.walks h2 i i1 i2)
      exact ⟨leaf, fun before h _ => above before h⟩
    · obtain rfl : i = 1 := Nat.le_antisymm (h1 ▸ i2) i1
      have hcode1 : code = [true] := hf.single h1.symm
      rw [hcode1, (rootPtr_inside hs.kMax).1 h1.symm]
      refine ⟨congrArg BitVec.toNat (hb.child_single h1.symm true), fun before h hn hn' => absurd ?_ hn'⟩
      exact h.eq_of_length_le (List.length_pos_iff.2 hn)
  obtain ⟨leaf, above⟩ := down
  have path := readBits_path code (rootPtr s) (bits := bits) hne above (by rw [leaf]; exact i2)
  rw [leaf] at path
  exact path

/-- The codes of bytes give these bytes, and the walk is at the root again. -/
theorem readBits_codeBits {s : State} (hw : s.tablesWf = true) (hs : Symbols s) (hb : TreeBuilt s) (hf : CodesFilled s)
    (bits : List Bit) : ∀ bytes : List Byte, (∀ b ∈ bytes, (s.codeAt b).len ≠ 0#8) →
    (readBits s.node s.k (rootPtr s) (codeBits s bytes ++ bits)).1 = bytes ++ (readBits s.node s.k (rootPtr s) bits).1
  | [], _ => rfl
  | b :: bytes, hcodes => by
    rw [codeBits_cons, List.append_assoc, readBits_code hw hs hb hf (hcodes b List.mem_cons_self),
      readBits_codeBits hw hs hb hf bits bytes fun c hc => hcodes c (List.mem_cons_of_mem _ hc)]
    rfl

/-- The packed bytes hold the bits and then at most the zeros of the last byte (R99). -/
theorem packAll_bits (bits : List Bit) : ∃ zeros, (packAll bits).flatMap byteBits = bits ++ zeros := by
  obtain ⟨whole, left, rfl, hl, -⟩ := exists_bytes_append bits
  rw [packAll_eq _ _ hl, List.flatMap_append]
  by_cases hnil : left = []
  · exact ⟨[], by rw [hnil]; simp⟩
  · refine ⟨List.replicate (8 - left.length) false, ?_⟩
    rw [flushBytes_of_ne_nil hnil, List.flatMap_singleton, byteBits_pack8_padZeros hl.le, padZeros, List.append_assoc]

section Packed

variable {s : State} {codes : Table Code} {bytes : List Byte} (hw : s.tablesWf = true) (hs : Symbols s) (hb : TreeBuilt s)
  (hg : genCodes { s with code := [] } = some codes)

include hw hs hb hg

/-- The table that GENCODE derives from a tree holds the codes of that tree, whatever stands in CODE meanwhile. -/
theorem codesFilled_of_genCodes : ({ s with code := codes } : State).tablesWf = true ∧
    Symbols { s with code := codes } ∧ TreeBuilt { s with code := codes } ∧ CodesFilled { s with code := codes } := by
  have symbols : ∀ ct, Symbols { s with code := ct } := fun _ => ⟨hs.kPos, hs.kMax, hs.list, hs.total, hs.totalMax⟩
  have tree : ∀ ct, TreeBuilt { s with code := ct } := fun _ =>
    ⟨hb.nn, hb.children, hb.parents, hb.root, hb.weights, hb.rootSum, hb.leaves, hb.single, hb.above⟩
  obtain ⟨wf, wn, -⟩ := (tablesWf_iff s).1 hw
  exact ⟨(tablesWf_iff _).2 ⟨wf, wn, genCodes_wf (symbols []) (tree []) rfl hg⟩, symbols codes, tree codes,
    genCodes_codesFilled (symbols []) (tree []) rfl hg rfl rfl rfl⟩

/-- The walk over the packed codes of bytes, and over whatever follows, begins with these bytes. -/
theorem readBits_packAll (hcodes : ∀ b ∈ bytes, (Table.read Code.absent codes b.toNat).len ≠ 0#8) (extra : List Byte) :
    ∃ more, (readBits s.node s.k (rootPtr s)
      ((packAll (codeBits { s with code := codes } bytes) ++ extra).flatMap byteBits)).1 = bytes ++ more := by
  obtain ⟨hw', hs', hb', hf⟩ := codesFilled_of_genCodes hw hs hb hg
  obtain ⟨zeros, hz⟩ := packAll_bits (codeBits { s with code := codes } bytes)
  rw [List.flatMap_append, hz, List.append_assoc]
  exact ⟨_, readBits_codeBits hw' hs' hb' hf _ bytes hcodes⟩

end Packed

/-- Settles O44: DECODE begins at the root with TOTAL bytes to come, and its walk retraces each code to its leaf. -/
theorem decodeUndoesThePacking : Obligations.DecodeUndoesThePacking := by
  intro s junk rest hr hp hs hroom hw hsym hb
  have hcur : s.cur = .none := ((ready_iff s).1 hr).1
  have hexec := decodeIsAccepted s hr hp
  have frameRuns : ∀ payload, s.inq = frame payload junk ++ rest → runs (payload.length + 1)
      { s with cur := .decode, remain := s.total, ptr := rootPtr s }
      (decodedFrame { s with remain := s.total } rest (readBits s.node s.k (rootPtr s) (payload.flatMap byteBits)).1) :=
    fun payload hq => runs_decode junk rest payload (s := { s with cur := .decode, remain := s.total, ptr := rootPtr s })
      rfl hs hsym.total_pos hroom hq
  constructor
  · intro codes bytes extra hg hcodes hlen hq
    have hrun := frameRuns _ hq
    obtain ⟨more, walk⟩ := readBits_packAll hw hsym hb hg hcodes extra
    have hle : s.total.toNat ≤ (bytes ++ more).length := by rw [List.length_append]; omega
    rw [walk, decodedFrame, if_pos hle, if_pos hle, ← hlen, List.take_left, ← hcur] at hrun
    exact ⟨_, _, hexec, hrun⟩
  · intro payload hq
    have hrun := frameRuns payload hq
    refine ⟨_, _, _, hexec, reads_readBits s (payload.flatMap byteBits) (rootPtr s), fun hl => ?_, fun hl => ?_⟩
    · rw [decodedFrame, if_pos hl, if_pos hl, ← hcur] at hrun
      exact hrun
    · rw [decodedFrame, if_neg (Nat.not_le.2 hl), if_neg (Nat.not_le.2 hl), List.take_of_length_le hl.le, ← hcur] at hrun
      exact hrun

end Sys2Proof.Safety
end

section
/-! PROOFS. The container (R216 to R229): what WRHDR pushes, what each beat of RDHDR does with the field it may complete, and a
written header read back. -/

namespace Sys2Proof.Safety

open Sys2Proof Sys2Proof.Machine

/-! ## WRHDR (R216) -/

/-- While a finite OUTQ could hold the header, WRHDR waits for room (R84 (b)). -/
theorem headerStep_of_fits {s : State} (hr : s.room (headerBytes s).length = false)
    (hf : s.fits (headerBytes s).length = true) : headerStep s = none := by
  simp [headerStep, hr, hf]

/-- While OUTQ is full, WRHDR waits, whether or not its header is split (R84 (b), R73). -/
theorem headerStep_of_full {s : State} (hr : s.room 1 = false) : headerStep s = none := by
  have hroom : s.room (headerBytes s).length = false := by
    rw [← Bool.not_eq_true]
    intro h
    rw [room_mono (by rw [headerBytes_length]; omega) h] at hr
    cases hr
  simp [headerStep, hroom, hr]

/-- Settles O28: the header's length is fixed by K, and in CODED WRHDR is its step, or nothing while that waits. -/
theorem wrhdrPushesTheHeader : Obligations.WrhdrPushesTheHeader := by
  refine ⟨fun s => ⟨rfl, headerBytes_length s⟩, fun v => ⟨rfl, rfl⟩, fun s hr hp => ?_⟩
  have hlen := headerBytes_length s
  rw [exec_wrhdr_of_coded hr hp, ← hlen]
  refine ⟨fun hroom => ?_, fun hroom hfits => ?_, fun hfull => ?_, fun hsplit hone => ?_⟩
  · rw [headerStep_of_room hroom]; rfl
  · rw [headerStep_of_fits hroom hfits]; rfl
  · rw [headerStep_of_full hfull]; rfl
  · rw [headerStep_of_split hsplit hone, Option.getD_some]
    obtain ⟨hlast, e⟩ | ⟨hmore, e⟩ := pushHeaderBeat_cases s <;> rw [e]
    · exact ⟨fun h => absurd h (by omega), fun _ => rfl⟩
    · exact ⟨fun _ => rfl, fun h => absurd h (by omega)⟩

/-! ## RDHDR, acceptance (R223) -/

/-- Settles O30: IDLE is RDHDR's one legal phase. -/
theorem rdhdrIsAccepted : Obligations.RdhdrIsAccepted := by
  intro s hr hp
  rw [exec, execRdhdr, accept_of_legal hr (by rw [hp]; rfl)]
  rfl

/-! ## One beat (R224) -/

/-- A beat of RDHDR pushes nothing, so it never waits for OUTQ (R224). -/
theorem beatStep_of_rdhdr {s : State} {b : Beat} {rest : List Beat} (hc : s.cur = .rdhdr) (hq : s.inq = b :: rest) :
    beatStep s = some (rdhdrBeat { s with inq := rest } b) := by
  rw [beatStep_quiet (.inr (.inl hc)) hq]
  simp only [beatEffect, hc]

/-- How many bytes the K field or a record has (R97, R98). -/
def fieldSize (s : State) : Nat := if s.hstage = 0#1 then 4 else 5

theorem fieldSize_of_count {s : State} (h : s.hstage = 0#1) : fieldSize s = 4 := if_pos h

theorem fieldSize_of_record {s : State} (h : s.hstage = 1#1) : fieldSize s = 5 := if_neg (by rw [h]; decide)

/-- What RDHDR does with the complete field in HBUF: the K field (R225), or record HI (R226). -/
def useField (s : State) : State := if s.hstage = 0#1 then rdhdrCount s else rdhdrRecord s

/-- A data byte joins HBUF, and the field is used if that completes it (R224). -/
theorem rdhdrBeat_dataBeat (s : State) (d : Byte) : rdhdrBeat s (dataBeat d) =
    if s.hbuf.length + 1 = fieldSize s then useField { s with hbuf := s.hbuf ++ [d] }
    else { s with hbuf := s.hbuf ++ [d] } := by
  rw [rdhdrBeat, if_neg (by exact Bool.false_ne_true)]
  simp only [rdhdrData, fieldSize, useField, List.length_append, List.length_singleton]
  obtain h | h := BitVec.eq_zero_or_eq_one s.hstage
  · simp [h, dataBeat]
  · simp [h, dataBeat]

theorem beatStep_of_field_incomplete {s : State} {d : Byte} {rest : List Beat} (hc : s.cur = .rdhdr)
    (hq : s.inq = dataBeat d :: rest) (hl : s.hbuf.length + 1 < fieldSize s) :
    beatStep s = some { s with inq := rest, hbuf := s.hbuf ++ [d] } := by
  rw [beatStep_of_rdhdr hc hq, rdhdrBeat_dataBeat, if_neg (by exact hl.ne)]

theorem beatStep_of_field_complete {s : State} {d : Byte} {rest : List Beat} (hc : s.cur = .rdhdr)
    (hq : s.inq = dataBeat d :: rest) (hl : s.hbuf.length + 1 = fieldSize s) :
    beatStep s = some (useField { s with inq := rest, hbuf := s.hbuf ++ [d] }) := by
  rw [beatStep_of_rdhdr hc hq, rdhdrBeat_dataBeat, if_pos (by exact hl)]

/-- Settles O31: an EOS is the fault E_MALFORMED without draining, and a byte that leaves its field short joins HBUF. -/
theorem rdhdrTakesUpBytes : Obligations.RdhdrTakesUpBytes := by
  constructor
  · intro s e rest hc hq he
    rw [beatStep_of_rdhdr hc hq, rdhdrBeat, if_pos he]
    rfl
  · intro s d rest hc hq hl
    refine beatStep_of_field_incomplete hc hq ?_
    obtain ⟨h0, hl⟩ | ⟨h1, hl⟩ := hl
    · rw [fieldSize_of_count h0]; omega
    · rw [fieldSize_of_record h1]; omega

/-! ## The K field (R225) -/

theorem rdhdrCount_of_illegal {s : State} (h : s32 s.cfg.endian s.hbuf < 1 ∨ 256 < s32 s.cfg.endian s.hbuf) :
    rdhdrCount s = raiseFault .malformed true s := if_pos h

theorem rdhdrCount_of_legal {s : State} (h1 : 1 ≤ s32 s.cfg.endian s.hbuf) (h2 : s32 s.cfg.endian s.hbuf ≤ 256) :
    rdhdrCount s = { s with k := BitVec.ofInt 9 (s32 s.cfg.endian s.hbuf), hstage := 1#1, hi := 1#9, hbuf := [] } :=
  if_neg (by omega)

/-- Settles O32: the fourth byte completes the K field, whose legal values K holds. -/
theorem rdhdrReadsTheCount : Obligations.RdhdrReadsTheCount := by
  intro s d rest hc h0 hl hq
  have hbeat := beatStep_of_field_complete hc hq (by rw [fieldSize_of_count h0, hl])
  rw [useField, if_pos (by exact h0)] at hbeat
  constructor
  · intro hk
    rw [rdhdrCount_of_illegal (by exact hk)] at hbeat
    exact hbeat
  · intro k1 k2
    rw [rdhdrCount_of_legal (by exact k1) (by exact k2)] at hbeat
    refine ⟨_, hbeat, ?_, rfl⟩
    show ((BitVec.ofInt 9 (s32 s.cfg.endian (s.hbuf ++ [d]))).toNat : Int) = _
    rw [BitVec.toNat_ofInt]
    omega

/-! ## A record (R226, R227) -/

theorem recordRefused_iff (sym : Byte) (f : Int) (s : State) : recordRefused sym f s = true ↔
    f < 1 ∨ (s.hprev ≠ noRecordYet ∧ sym.toNat ≤ s.hprev.toNat) ∨ (s.cfg.maxLen : Int) < s.total.toNat + f := by
  simp [recordRefused, or_assoc]

/-- A frequency of 1 or more, a byte value above the previous one and a sum within MAX_LEN pass the three checks. -/
theorem recordRefused_of_legal {sym : Byte} {f : Int} {s : State} (hf : 1 ≤ f)
    (hprev : s.hprev = noRecordYet ∨ s.hprev.toNat < sym.toNat) (hmax : (s.total.toNat : Int) + f ≤ s.cfg.maxLen) :
    recordRefused sym f s = false := by
  rw [← Bool.not_eq_true, recordRefused_iff]
  rintro (h | ⟨hne, hle⟩ | h)
  · omega
  · exact hprev.elim hne (Nat.not_lt.2 hle)
  · omega

/-- A record in HBUF is its byte value and its frequency field (R98, R226). -/
theorem useField_of_record {s : State} {sym : Byte} {field : List Byte} {f : Int} (h1 : s.hstage = 1#1)
    (hb : s.hbuf = sym :: field) (hf : s32 s.cfg.endian field = f) :
    useField s = if recordRefused sym f s then raiseFault .malformed true s else seedRecord sym (BitVec.ofInt 32 f) s := by
  rw [useField, if_neg (by rw [h1]; decide)]
  simp only [rdhdrRecord, hb, List.headD_cons, List.tail_cons, hf]

@[simp] theorem seedRecord_node (sym : Byte) (f : Word) (s : State) :
    (seedRecord sym f s).node = putNode s.node s.hi.toNat (leafNode sym f) := by
  unfold seedRecord; simp only; split <;> rfl

@[simp] theorem seedRecord_total (sym : Byte) (f : Word) (s : State) : (seedRecord sym f s).total = s.total + f := by
  unfold seedRecord; simp only; split <;> rfl

/-- After a record that is not the last HI moves on (R227). -/
theorem seedRecord_of_ne {s : State} (h : s.hi ≠ s.k) (sym : Byte) (f : Word) : seedRecord sym f s = { s with
    node := (seedRecord sym f s).node, total := (seedRecord sym f s).total, hprev := sym.setWidth 9, hbuf := [],
    hi := s.hi + 1 } := by
  rw [seedRecord_node, seedRecord_total]; exact if_neg h

/-- After record K the header is complete (R227). -/
theorem seedRecord_of_eq {s : State} (h : s.hi = s.k) (sym : Byte) (f : Word) : seedRecord sym f s = { s with
    node := (seedRecord sym f s).node, total := (seedRecord sym f s).total, hprev := 0#9, hbuf := [], hi := 0#9, hstage := 0#1,
    nn := s.k.setWidth 10, phase := .hdrRead, cur := .none, err := .ok } := by
  rw [seedRecord_node, seedRecord_total]; exact if_pos h

/-- Settles O33: the fifth byte completes the record, and the three checks decide whether it is seeded. -/
theorem rdhdrTakesARecord : Obligations.RdhdrTakesARecord := by
  intro s sym field d rest f hc h1 hbuf hlen hq hw hi1 hcfg hf
  have hbeat := beatStep_of_field_complete hc hq (by rw [fieldSize_of_record h1, hbuf, List.length_cons, hlen])
  rw [useField_of_record (s := { s with inq := rest, hbuf := s.hbuf ++ [d] }) h1
    (congrArg (· ++ [d]) hbuf) hf.symm] at hbeat
  constructor
  · intro h
    rw [(recordRefused_iff _ _ { s with inq := rest, hbuf := s.hbuf ++ [d] }).2 h, if_pos rfl] at hbeat
    exact hbeat
  · intro f1 hprev hmax
    rw [recordRefused_of_legal (s := { s with inq := rest, hbuf := s.hbuf ++ [d] }) f1 hprev hmax,
      if_neg Bool.false_ne_true] at hbeat
    have hmaxLen := maxLen_lt hcfg
    have hfreq : ((BitVec.ofInt 32 f).toNat : Int) = f := by rw [BitVec.toNat_ofInt]; omega
    have htable : Table.wf Node.zero 1 512 s.node = true := ((tablesWf_iff s).1 hw).2.1
    refine ⟨_, BitVec.ofInt 32 f, hbeat, hfreq, ?_, fun i hi => ?_, ?_, fun hk => seedRecord_of_ne (by exact hk) _ _,
      fun hk => seedRecord_of_eq (by exact hk) _ _⟩
    · rw [State.nodeAt, seedRecord_node]
      exact nodeIn_putNode_same htable _ hi1 s.hi.isLt
    · rw [State.nodeAt, seedRecord_node]
      exact nodeIn_putNode_other _ _ hi
    · rw [seedRecord_total]
      show ((s.total + BitVec.ofInt 32 f).toNat : Int) = _
      rw [BitVec.toNat_add, Nat.mod_eq_of_lt (by omega)]
      omega

/-! ## Whole fields -/

/-- The bytes that complete a field, one step each. -/
theorem runs_field (rest : List Beat) : ∀ (bytes : List Byte) {s : State}, bytes ≠ [] → s.cur = .rdhdr →
    s.host.script = [] → s.hbuf.length + bytes.length = fieldSize s → s.inq = dataBeats bytes ++ rest →
    runs bytes.length s (useField { s with inq := rest, hbuf := s.hbuf ++ bytes })
  | [], _, hne, _, _, _, _ => absurd rfl hne
  | [_], _, _, hc, hs, hl, hq => runs_one (step_of_beatStep hs (beatStep_of_field_complete hc hq hl))
  | d :: e :: bytes, s, _, hc, hs, hl, hq => by
    rw [List.length_cons, List.length_cons] at hl
    have hstep := step_of_beatStep hs (beatStep_of_field_incomplete hc hq (by omega))
    have hl' : (s.hbuf ++ [d]).length + (bytes.length + 1) = fieldSize s := by
      rw [List.length_append, List.length_singleton]; omega
    have hrun := runs_field rest (e :: bytes) (s := { s with inq := dataBeats (e :: bytes) ++ rest, hbuf := s.hbuf ++ [d] })
      (List.cons_ne_nil _ _) hc hs hl' rfl
    rw [List.append_assoc] at hrun
    exact runs_succ hstep hrun

/-! ## A written header (R229) -/

theorem weightSum_mono (t : Table Node) : Monotone (weightSum t) :=
  monotone_nat_of_le_succ fun n => by rw [weightSum_succ]; exact Nat.le_add_right _ _

/-- NODE and TOTAL as the first `n` records of the header of `w` leave them (R227). -/
structure LeavesRead (w : State) (n : Nat) (t : Table Node) (total : Word) : Prop where
  table  : Table.wf Node.zero 1 512 t = true
  total  : total.toNat = weightSum w.node n
  leaves : ∀ i, 1 ≤ i → i ≤ n → nodeIn t i = leafNode (w.nodeAt i).sym (w.nodeAt i).weight
  above  : ∀ i, n < i → nodeIn t i = Node.zero

theorem leavesRead_zero (w : State) : LeavesRead w 0 [] 0#32 where
  table := rfl
  total := rfl
  leaves i h1 h2 := by omega
  above i _ := nodeIn_nil i

/-- One record more is seeded. -/
theorem LeavesRead.snoc {w : State} {n : Nat} {t : Table Node} {total : Word} (h : LeavesRead w n t total) (hn : n + 1 < 512)
    (hsum : weightSum w.node (n + 1) < 2 ^ 32) :
    LeavesRead w (n + 1) (putNode t (n + 1) (leafNode (w.nodeAt (n + 1)).sym (w.nodeAt (n + 1)).weight))
      (total + (w.nodeAt (n + 1)).weight) where
  table := putNode_wf h.table _ _
  total := by
    rw [weightSum_succ] at hsum ⊢
    rw [BitVec.toNat_add, h.total]
    exact Nat.mod_eq_of_lt hsum
  leaves i h1 h2 := by
    obtain h2 | rfl := Nat.lt_or_eq_of_le h2
    · rw [nodeIn_putNode_other _ _ (by omega), h.leaves i h1 (by omega)]
    · exact nodeIn_putNode_same h.table _ h1 hn
  above i hi := by rw [nodeIn_putNode_other _ _ (by omega), h.above i (by omega)]

/-- RDHDR in `u`, begun in `s`, has read the K field and the first `n` records of the header of `w`, and record `n + 1` is to
come. -/
structure RecordsRead (w s : State) (n : Nat) (u : State) : Prop where
  frame    : u = { s with
    inq := u.inq, node := u.node, total := u.total, hprev := u.hprev, hi := u.hi, k := w.k, cur := .rdhdr, hstage := 1#1,
    hbuf := [] }
  hi       : u.hi.toNat = n + 1
  previous : u.hprev = noRecordYet ∨ u.hprev.toNat < (w.nodeAt (n + 1)).sym.toNat
  leaves   : LeavesRead w n u.node u.total

/-- The state after `u` in which record `n + 1` of the header of `w` has been read, `tail` being what follows it. -/
def afterRecord (w : State) (n : Nat) (tail : List Beat) (u : State) : State :=
  seedRecord (w.nodeAt (n + 1)).sym (w.nodeAt (n + 1)).weight { u with inq := tail, hbuf := recordBytes w (n + 1) }

/-- The state in which RDHDR, begun in `s`, leaves the block when it has read a header with K = `k` and these leaves (R227). -/
def headerRead (s : State) (k : BitVec 9) (t : Table Node) (total : Word) (rest : List Beat) : State := { s with
  inq := rest, node := t, total := total, k := k, nn := k.setWidth 10, hstage := 0#1, hi := 0#9, hbuf := [], hprev := 0#9,
  phase := .hdrRead, cur := .none, err := .ok }

/-- After record K the header is complete (R227). -/
theorem RecordsRead.last {w s u : State} {n : Nat} (h : RecordsRead w s n u) (hn : n + 1 = w.k.toNat) (tail : List Beat) :
    afterRecord w n tail u = headerRead s w.k (afterRecord w n tail u).node (afterRecord w n tail u).total tail := by
  have hk : u.k = w.k := by rw [h.frame]
  have heq : u.hi = u.k := BitVec.eq_of_toNat_eq (by rw [h.hi, hk, hn])
  have hafter : afterRecord w n tail u = { u with
      inq := tail, node := (afterRecord w n tail u).node, total := (afterRecord w n tail u).total, hprev := 0#9, hbuf := [],
      hi := 0#9, hstage := 0#1, nn := u.k.setWidth 10, phase := .hdrRead, cur := .none, err := .ok } :=
    seedRecord_of_eq (by exact heq) _ _
  generalize afterRecord w n tail u = v at hafter
  rw [hafter, h.frame]
  rfl

/-- RDHDR reads the K field of the header of `w`, its four bytes one step each, and record 1 is to come (R223, R225). -/
theorem runs_count {w s : State} {tail : List Beat} (hsym : Symbols w) (he : s.cfg = w.cfg) (hs : s.host.script = [])
    (hn : s.node = []) (ht : s.total = 0#32)
    (hq : s.inq = dataBeats (intBytes w.cfg.endian (w.k.setWidth 32)) ++ tail) :
    ∃ u, runs 4 { s with cur := .rdhdr, hstage := 0#1, hbuf := [], hi := 0#9, hprev := noRecordYet } u ∧
      RecordsRead w s 0 u ∧ u.inq = tail := by
  have h1 := hsym.kPos
  have h2 := hsym.kMax
  have hval : s32 s.cfg.endian (intBytes w.cfg.endian (w.k.setWidth 32)) = w.k.toNat := by
    rw [he, s32_intBytes, BitVec.toInt_setWidth, Int.bmod_eq_of_le (by omega) (by omega)]
  have hlen := intBytes_length w.cfg.endian (w.k.setWidth 32)
  have hrun := runs_field tail (intBytes w.cfg.endian (w.k.setWidth 32))
    (s := { s with cur := .rdhdr, hstage := 0#1, hbuf := [], hi := 0#9, hprev := noRecordYet })
    (List.ne_nil_of_length_pos (by omega)) rfl hs (by rw [hlen]; rfl) hq
  rw [useField, if_pos rfl, rdhdrCount_of_legal (by exact hval ▸ (by omega)) (by exact hval ▸ (by omega)), hlen] at hrun
  refine ⟨_, hrun, ⟨?_, rfl, .inl rfl, ?_⟩, rfl⟩
  · simp [hval]
  · simp only [hn, ht]
    exact leavesRead_zero w

section WrittenHeader

variable {w s : State} (hsym : Symbols w) (hcfg : w.cfg.wf = true)

include hsym hcfg

/-- The weights of a Symbol list are together within MAX_LEN, so within the signed range of the frequency field (R41, R100). -/
theorem weightSum_le {n : Nat} (hn : n ≤ w.k.toNat) :
    weightSum w.node n ≤ w.cfg.maxLen ∧ weightSum w.node n < 2 ^ 31 := by
  have hle := weightSum_mono w.node hn
  have htotal := hsym.total
  have hmax := hsym.totalMax
  have hlt := maxLen_lt hcfg
  omega

theorem weight_toInt {n : Nat} (hn : n + 1 ≤ w.k.toNat) :
    (w.nodeAt (n + 1)).weight.toInt = (w.nodeAt (n + 1)).weight.toNat := by
  have hsum := (weightSum_le hsym hcfg hn).2
  rw [weightSum_succ] at hsum
  refine BitVec.toInt_eq_toNat_of_lt ?_
  rw [State.nodeAt]
  omega

/-- Record `n + 1` of the header passes the three checks of R226. -/
theorem RecordsRead.accepted {n : Nat} {u : State} (h : RecordsRead w s n u) (he : u.cfg = w.cfg) (hn : n + 1 ≤ w.k.toNat) :
    recordRefused (w.nodeAt (n + 1)).sym (w.nodeAt (n + 1)).weight.toInt u = false := by
  have hpos : 1 ≤ (w.nodeAt (n + 1)).weight.toNat := hsym.list.positive (n + 1) (by omega) hn
  have hmax : u.total.toNat + (w.nodeAt (n + 1)).weight.toNat ≤ u.cfg.maxLen := by
    rw [h.leaves.total, State.nodeAt, ← weightSum_succ, he]
    exact (weightSum_le hsym hcfg hn).1
  rw [weight_toInt hsym hcfg hn]
  exact recordRefused_of_legal (by omega) h.previous (by omega)

/-- The leaves after record `n + 1`, whether or not it is the last. -/
theorem RecordsRead.leaves_afterRecord {n : Nat} {u : State} (h : RecordsRead w s n u) (hn : n + 1 ≤ w.k.toNat)
    (tail : List Beat) : LeavesRead w (n + 1) (afterRecord w n tail u).node (afterRecord w n tail u).total := by
  rw [afterRecord, seedRecord_node, seedRecord_total]
  simp only [h.hi]
  exact h.leaves.snoc (by rw [← h.hi]; exact u.hi.isLt) ((weightSum_le hsym hcfg hn).2.trans (by norm_num))

/-- After a record that is not the last the next one is to come (R227). -/
theorem RecordsRead.succ {n : Nat} {u : State} (h : RecordsRead w s n u) (hn : n + 1 < w.k.toNat) (tail : List Beat) :
    RecordsRead w s (n + 1) (afterRecord w n tail u) ∧ (afterRecord w n tail u).inq = tail := by
  have hk : u.k = w.k := by rw [h.frame]
  have hne : u.hi ≠ u.k := fun e => by have := h.hi; rw [e, hk] at this; omega
  have hmax := hsym.kMax
  have hleaves := h.leaves_afterRecord hsym hcfg hn.le tail
  have hasc := hsym.list.ascending (n + 1) (n + 2) (by omega) (by omega) hn
  have hafter : afterRecord w n tail u = { u with
      inq := tail, node := (afterRecord w n tail u).node, total := (afterRecord w n tail u).total,
      hprev := (w.nodeAt (n + 1)).sym.setWidth 9, hbuf := [], hi := u.hi + 1 } := seedRecord_of_ne (by exact hne) _ _
  refine ⟨⟨?_, ?_, .inr ?_, hleaves⟩, by rw [hafter]⟩
  · generalize afterRecord w n tail u = v at hafter
    rw [hafter, h.frame]
  · rw [hafter]
    exact (toNat_add_one (by rw [h.hi]; omega)).trans (by rw [h.hi])
  · rw [hafter]
    show ((w.nodeAt (n + 1)).sym.setWidth 9).toNat < _
    rw [BitVec.toNat_setWidth, Nat.mod_eq_of_lt (by have := (w.nodeAt (n + 1)).sym.isLt; omega)]
    exact hasc

variable (he : s.cfg = w.cfg) (hs : s.host.script = [])

include he hs

/-- The record that comes next is read, its five bytes one step each (R226, R227). -/
theorem RecordsRead.runs_record {n : Nat} {u : State} {tail : List Beat} (h : RecordsRead w s n u) (hn : n + 1 ≤ w.k.toNat)
    (hq : u.inq = dataBeats (recordBytes w (n + 1)) ++ tail) : runs 5 u (afterRecord w n tail u) := by
  have hf := h.frame
  have hcur : u.cur = .rdhdr := by rw [hf]
  have hstage : u.hstage = 1#1 := by rw [hf]
  have hbuf : u.hbuf = [] := by rw [hf]
  have hcfgu : u.cfg = w.cfg := by rw [hf, ← he]
  have hval : s32 u.cfg.endian (intBytes w.cfg.endian (w.nodeAt (n + 1)).weight) = (w.nodeAt (n + 1)).weight.toInt := by
    rw [hcfgu, s32_intBytes]
  have hlen : (recordBytes w (n + 1)).length = 5 := by rw [recordBytes, List.length_cons, intBytes_length]
  have hrun := runs_field tail (recordBytes w (n + 1)) (List.cons_ne_nil _ _) hcur (by rw [hf]; exact hs)
    (by rw [hbuf, hlen, fieldSize_of_record hstage]; rfl) hq
  have huse := useField_of_record (s := { u with inq := tail, hbuf := recordBytes w (n + 1) }) hstage rfl hval
  have accepted : recordRefused (w.nodeAt (n + 1)).sym (w.nodeAt (n + 1)).weight.toInt
      { u with inq := tail, hbuf := recordBytes w (n + 1) } = false := h.accepted hsym hcfg hcfgu hn
  rw [accepted, if_neg Bool.false_ne_true, BitVec.ofInt_toInt] at huse
  rw [hbuf, List.nil_append, hlen] at hrun
  rw [afterRecord, ← huse]
  exact hrun

/-- Records `n + 1` to K of the header of `w`, five steps each. -/
theorem RecordsRead.runs_records (rest : List Beat) : ∀ (m : Nat) {n : Nat} {u : State}, RecordsRead w s n u →
    n + 1 + m = w.k.toNat → u.inq = dataBeats ((List.range' (n + 1) (m + 1)).flatMap (recordBytes w)) ++ rest →
    ∃ t total, runs (5 * (m + 1)) u (headerRead s w.k t total rest) ∧ LeavesRead w w.k.toNat t total := by
  intro m
  induction m with
  | zero =>
    intro n u h hn hq
    have hrun := h.runs_record hsym hcfg he hs hn.le (tail := rest) (by simpa using hq)
    have hleaves := h.leaves_afterRecord hsym hcfg hn.le rest
    rw [h.last hn rest] at hrun
    exact ⟨_, _, hrun, hn ▸ hleaves⟩
  | succ m ih =>
    intro n u h hn hq
    rw [List.range'_succ, List.flatMap_cons, dataBeats_append, List.append_assoc] at hq
    have hrun := h.runs_record hsym hcfg he hs (by omega) hq
    obtain ⟨hnext, hq'⟩ := h.succ hsym hcfg (by omega)
      (dataBeats ((List.range' (n + 2) (m + 1)).flatMap (recordBytes w)) ++ rest)
    obtain ⟨t, total, hruns, hleaves⟩ := ih hnext (by omega) hq'
    refine ⟨t, total, ?_, hleaves⟩
    rw [Nat.mul_succ, Nat.add_comm]
    exact runs_add hrun hruns

end WrittenHeader

/-- Settles O34: the K field is within 1..256, each record passes the three checks since the leaves are a Symbol list, and the
last one completes the header. -/
theorem writtenHeaderIsReadBack : Obligations.WrittenHeaderIsReadBack := by
  intro w s rest hsym hcfg he hr hp hcl hs hq
  obtain ⟨hc, -⟩ := (ready_iff s).1 hr
  obtain ⟨-, hn, -, -, -, ht, -, -, -, hstage, hhi, hbuf, hprev⟩ := (cleared_iff s).1 hcl
  obtain ⟨m, hm⟩ : ∃ m, 1 + m = w.k.toNat := ⟨w.k.toNat - 1, by have := hsym.kPos; omega⟩
  rw [headerBytes, dataBeats_append, List.append_assoc, leafIndices, ← hm, Nat.add_comm 1 m] at hq
  obtain ⟨u, hcount, hu, hqu⟩ := runs_count hsym he hs hn ht hq
  obtain ⟨t, total, hrecords, hleaves⟩ := hu.runs_records hsym hcfg he hs rest m (by omega) hqu
  have htotal : total = w.total := BitVec.eq_of_toNat_eq (by rw [hleaves.total, hsym.total])
  have hrun := runs_add hcount hrecords
  rw [Nat.add_comm m 1, hm] at hrun
  refine ⟨_, _, rdhdrIsAccepted s hr hp, hrun, ?_, ?_, hleaves.leaves, hleaves.above⟩
  · simp only [headerRead, hstage, hhi, hbuf, hprev, hc, htotal]
  · exact (BitVec.toNat_setWidth _ _).trans (Nat.mod_eq_of_lt (by have := hsym.kMax; omega))

end Sys2Proof.Safety
end

section
/-! PROOFS. Acceptance in a wrong phase (R242, R243), and the sequencer's own commands, which are legal wherever the port is open
(R248, R250, R252, R253). -/

namespace Sys2Proof.Safety

open Sys2Proof Sys2Proof.Machine

/-! ## The legal phases (R242) -/

/-- The phases the acceptance step asks for are those of the table, row by row. -/
theorem legalIn_iff (i : Instr) (p : Phase) : legalIn i p = true ↔ (i, p) ∈ legalPairs := by
  cases i <;> cases p <;> decide

/-- Every command goes through the same check of its phase, before it is performed (R240, R243). -/
theorem exec_of_illegal {i : Instr} {s : State} (hr : s.ready = true) (hl : legalIn i s.phase = false) :
    exec i s = .next (sequenceError s) := by
  cases i <;>
    simp only [exec, execClear, execScan, execBuild, execGencode, execWrhdr, execEncode, execRdhdr, execDecode, execHalt,
      execDrain, accept_of_illegal hr hl]

/-- Settles O4: a pair that is not in the table is one the acceptance step refuses, whatever the command. -/
theorem wrongPhaseOnlyRecordsItsFault : Obligations.WrongPhaseOnlyRecordsItsFault := by
  intro i s hr hp
  rw [← legalIn_iff, Bool.not_eq_true] at hp
  exact exec_of_illegal hr hp

/-! ## CLEAR, HALT, DRAIN -/

/-- CLEAR and HALT are legal in every phase but HALTED (R242). -/
theorem legalIn_of_ready {s : State} (hr : s.ready = true) :
    legalIn .clear s.phase = true ∧ legalIn .halt s.phase = true := by
  obtain ⟨-, hp⟩ := (ready_iff s).1 hr
  exact ⟨bne_iff_ne.2 hp, bne_iff_ne.2 hp⟩

/-- Settles O8: CLEAR is CLEARSTATE, and the cleared tables read as cleared entries. -/
theorem clearDropsTheOperation : Obligations.ClearDropsTheOperation := by
  intro s hr
  have hexec : exec .clear s = .next { clearState s with phase := .idle, err := .ok } := by
    rw [exec, execClear, accept_of_legal hr (legalIn_of_ready hr).1]
  exact ⟨_, hexec, rfl, clearState_freqAt s, clearState_nodeAt s, clearState_codeAt s⟩

/-- Settles O9: HALT is accepted wherever the port is open. -/
theorem haltKeepsEverythingElse : Obligations.HaltKeepsEverythingElse := by
  intro s hr
  rw [exec, execHalt, accept_of_legal hr (legalIn_of_ready hr).2]

/-- Settles O11: DRAIN is accepted wherever the port is open. -/
theorem drainIsAccepted : Obligations.DrainIsAccepted := fun _ hr => exec_drain_of_ready hr

/-- Settles O12: a draining beat pushes nothing, so it never waits. -/
theorem drainingDiscardsOneBeat : Obligations.DrainingDiscardsOneBeat := fun _ _ _ hc hq => beatStep_of_drain hc hq

end Sys2Proof.Safety
end

section
/-! PROOFS. HALTED (R250, R251, R310): no word is taken and no beat happens, so but for reset only the ports change. -/

namespace Sys2Proof.Safety

open Sys2Proof Sys2Proof.Machine

section RunOver

variable {s : State} (h : runOver s)

include h

/-- In HALTED no WRHDR word waits for room: the port is closed (R61, R251). -/
theorem runOver.headerWaits_eq : s.headerWaits = false := by
  rw [← Bool.not_eq_true]
  intro hw
  obtain ⟨-, -, hp⟩ := ready_of_headerWaits hw
  rw [h.1] at hp
  cases hp

/-- In HALTED the host's next action is the head of its script. -/
theorem runOver.script_of_hostTurn {a : Action} {as : List Action} (ht : hostTurn s = some (a, as)) :
    s.host.script = a :: as := by
  obtain ⟨-, hs⟩ | ⟨hw, -⟩ := hostTurn_some ht
  · exact hs
  · rw [h.headerWaits_eq] at hw; cases hw

/-- In HALTED the block's turn changes nothing but the host's script (R251). -/
theorem runOver.turn_eq (as : List Action) : turn as s = withScript as s := by
  rw [turn_of_quiet as h.headerWaits_eq, blockTurn_of_idle (by exact h.2)]

end RunOver

/-- Only the ports change from `s` to `t`: the host's side and the two queues, INQ at its tail only. -/
def PortsOnly (s t : State) : Prop :=
  t = { s with host := t.host, inq := t.inq, outq := t.outq } ∧ ∃ more, t.inq = s.inq ++ more

/-- What leaves INQ as it is need only be an update of the host's side and OUTQ. -/
theorem PortsOnly.of_inq_kept (s : State) (host : HostSide) (o : List Beat) :
    PortsOnly s { s with host := host, outq := o } := ⟨rfl, [], (List.append_nil _).symm⟩

/-- Everything a step can do in HALTED: of R83's actions only those at the other ports are enabled, and reset (R250, R251). -/
theorem step_of_runOver {s t : State} (h : runOver s) (hr : ∀ as, s.host.script ≠ .reset :: as) (hs : step s = .next t) :
    PortsOnly s t := by
  obtain rfl | ⟨as, -, rfl⟩ | ⟨w, as, -, -, hready, -⟩ | ⟨b, as, -, -, rfl⟩ | ⟨b, rest, as, -, -, rfl⟩ |
    ⟨addr, as, -, rfl⟩ | ⟨as, ht, -⟩ | ⟨as, -, ho⟩ := step_cases hs
  · rw [h.turn_eq]; exact .of_inq_kept s _ _
  · rw [h.turn_eq]; exact .of_inq_kept s _ _
  · exact absurd h.1 ((ready_iff s).1 hready).2
  · exact ⟨rfl, [b], rfl⟩
  · exact .of_inq_kept s _ rest
  · exact .of_inq_kept s _ _
  · exact absurd (h.script_of_hostTurn ht) (hr as)
  · rw [handOver_of_idle h.2] at ho; cases ho

/-- Settles O10: what is no port of the block, PHASE and CUR among it, is kept by every step but reset. -/
theorem onlyResetLeavesHalted : Obligations.OnlyResetLeavesHalted := by
  intro s t h hr hs
  obtain ⟨kept, hinq⟩ := step_of_runOver h hr hs
  refine ⟨?_, kept, hinq⟩
  rw [kept]
  exact h

end Sys2Proof.Safety
end

section
/-! PROOFS. PHASE moves along the graph (R242, R244): what each beat, WRHDR's step and each command does to it. -/

namespace Sys2Proof.Safety

open Sys2Proof Sys2Proof.Machine

/-- From `s` to `t` PHASE stays, moves along one of the two paths, or goes back to IDLE: the graph of R244 without HALT. -/
def OnGraph (s t : State) : Prop := t.phase = s.phase ∨ (s.phase, t.phase) ∈ pathMoves ∨ t.phase = .idle

theorem OnGraph.of_kept {s t : State} (h : t.phase = s.phase) : OnGraph s t := .inl h

theorem OnGraph.of_idle {s t : State} (h : t.phase = .idle) : OnGraph s t := .inr (.inr h)

theorem OnGraph.of_move {s t : State} (p q : Phase) (h : (p, q) ∈ pathMoves) (hs : s.phase = p) (ht : t.phase = q) :
    OnGraph s t := .inr (.inl (by rwa [hs, ht]))

/-! ## A beat (R74) -/

/-- The loop of R200 leaves PHASE alone until the last byte is produced, and that ends the operation (R201). -/
theorem walkBits_onGraph (bits : List Bit) : ∀ s : State, OnGraph s (walkBits bits s) := by
  induction bits with
  | nil => exact fun s => .of_kept rfl
  | cons b bs ih =>
    intro s
    simp only [walkBits]
    split
    · split
      · exact .of_idle rfl
      · exact ih _
    · exact ih _

/-- A record leaves PHASE alone, but for the last one, which completes the header (R227). -/
theorem seedRecord_onGraph {s : State} (hp : s.phase = .idle) (sym : Byte) (f : Word) : OnGraph s (seedRecord sym f s) := by
  by_cases hk : s.hi = s.k
  · rw [seedRecord_of_eq hk]; exact .of_move .idle .hdrRead (by decide) hp rfl
  · rw [seedRecord_of_ne hk]; exact .of_kept rfl

/-- SCAN and RDHDR run in IDLE (R242), so that their end is an edge of the graph; ENCODE, DECODE and every fault end in IDLE. -/
theorem beatEffect_onGraph {s : State} (h : operation s) (b : Beat) : OnGraph s (beatEffect s b) := by
  unfold beatEffect
  cases hc : s.cur with
  | none => exact .of_kept rfl
  | scan =>
    obtain ⟨hp, -⟩ := (operation_scan hc).1 h
    obtain ⟨e, dr, -, h⟩ | ⟨-, h⟩ | ⟨-, h⟩ := scanBeat_cases s b <;> simp only [h]
    · exact .of_idle rfl
    · exact .of_kept rfl
    · exact .of_move .idle .scanned (by decide) hp rfl
  | encode =>
    obtain h | ⟨bits, h⟩ | h := encodeBeat_cases s b <;> simp only [h]
    · exact .of_idle rfl
    · exact .of_kept rfl
    · exact .of_idle rfl
  | rdhdr =>
    obtain ⟨hp, -⟩ := (operation_rdhdr hc).1 h
    obtain ⟨dr, h⟩ | ⟨-, -, h⟩ | ⟨-, k, -, -, h⟩ | ⟨-, sym, f, -, h⟩ := rdhdrBeat_cases s b <;> simp only [h]
    · exact .of_idle rfl
    · exact .of_kept rfl
    · exact .of_kept rfl
    · exact seedRecord_onGraph hp _ _
  | decode =>
    simp only [decodeBeat]
    split
    · exact .of_idle rfl
    · exact walkBits_onGraph _ s
  | drain =>
    simp only [drainBeat]
    split <;> exact .of_kept rfl

/-- A popped beat moves PHASE along the graph, whatever becomes of the beats it pushes. -/
theorem beatEffect_onGraph_of_pop {s : State} (h : operation s) (rest : List Beat) (b : Beat) :
    OnGraph s (beatEffect { s with inq := rest } b) :=
  beatEffect_onGraph (s := { s with inq := rest })
    (operation_ports h s.host rest s.outq s.sent s.cfg.outDepth s.err s.faults) b

theorem blockTurn_onGraph {s : State} (h : operation s) : OnGraph s (blockTurn s) := by
  obtain e | ⟨-, e⟩ := blockTurn_cases s
  · obtain ⟨b, rest, -, -, e, -⟩ := beatStep_some e
    rw [e]; exact beatEffect_onGraph_of_pop h rest b
  · rw [e]; exact .of_kept rfl

/-! ## WRHDR (R216) -/

/-- WRHDR's step leaves PHASE at CODED until its last push (R73). -/
theorem headerStep_onGraph {s t : State} (hp : s.phase = .coded) (h : headerStep s = some t) : OnGraph s t := by
  obtain ⟨-, rfl⟩ | ⟨-, -, rfl⟩ := headerStep_some h
  · exact .of_move .coded .hdrWritten (by decide) hp rfl
  · obtain ⟨-, e⟩ | ⟨-, e⟩ := pushHeaderBeat_cases s <;> rw [e]
    · exact .of_move .coded .hdrWritten (by decide) hp rfl
    · exact .of_kept rfl

theorem turn_onGraph {s : State} (h : operation s) (as : List Action) : OnGraph s (turn as s) := by
  obtain ⟨-, e⟩ | ⟨hw, e⟩ := turn_cases as s <;> rw [e]
  · exact blockTurn_onGraph (operation_withScript h as)
  · obtain ⟨-, -, hp⟩ := ready_of_headerWaits hw
    obtain ⟨-, e⟩ | ⟨t, ht, -, e⟩ | ⟨t, ht, -, e⟩ := headerTurn_cases (withScript as s) <;> rw [e]
    · exact .of_kept rfl
    · exact (headerStep_onGraph (by exact hp) ht :)
    · exact (headerStep_onGraph (by exact hp) ht :)

/-! ## The commands (R242) -/

/-- A command moves PHASE along the graph from the phase it is legal in; HALT alone leads to HALTED. -/
theorem exec_onGraph {i : Instr} {s t : State} (h : exec i s = .next t) :
    OnGraph s t ∨ (i = .halt ∧ t.phase = .halted) := by
  cases i with
  | clear => obtain ⟨-, ⟨-, rfl⟩ | ⟨-, rfl⟩⟩ := execClear_next h; exacts [.inl (.of_idle rfl), .inl (.of_kept rfl)]
  | scan => obtain ⟨-, ⟨-, rfl⟩ | ⟨-, rfl⟩⟩ := execScan_next h <;> exact .inl (.of_kept rfl)
  | build =>
    obtain ⟨-, ⟨hp | hp, rfl⟩ | ⟨-, rfl⟩⟩ := execBuild_next h
    · exact .inl (.of_move .scanned .builtC (by decide) hp (if_pos hp))
    · exact .inl (.of_move .hdrRead .builtD (by decide) hp (if_neg (by rw [hp]; nofun)))
    · exact .inl (.of_kept rfl)
  | gencode =>
    obtain ⟨-, ⟨hp, ct, -, rfl⟩ | ⟨-, rfl⟩⟩ := execGencode_next h
    · exact .inl (.of_move .builtC .coded (by decide) hp rfl)
    · exact .inl (.of_kept rfl)
  | wrhdr =>
    obtain ⟨-, ⟨hp, rfl⟩ | ⟨-, rfl⟩⟩ := execWrhdr_next h
    · obtain hs | ⟨-, hs⟩ := headerStep_getD_cases s
      · exact .inl (headerStep_onGraph hp hs)
      · rw [hs]; exact .inl (.of_kept rfl)
    · exact .inl (.of_kept rfl)
  | encode => obtain ⟨-, ⟨-, rfl⟩ | ⟨-, rfl⟩⟩ := execEncode_next h <;> exact .inl (.of_kept rfl)
  | rdhdr => obtain ⟨-, ⟨-, rfl⟩ | ⟨-, rfl⟩⟩ := execRdhdr_next h <;> exact .inl (.of_kept rfl)
  | decode => obtain ⟨-, ⟨-, rfl⟩ | ⟨-, rfl⟩⟩ := execDecode_next h <;> exact .inl (.of_kept rfl)
  | halt => obtain ⟨-, ⟨-, rfl⟩ | ⟨-, rfl⟩⟩ := execHalt_next h; exacts [.inr ⟨rfl, rfl⟩, .inl (.of_kept rfl)]
  | drain => obtain ⟨-, ⟨-, rfl⟩ | ⟨-, rfl⟩⟩ := execDrain_next h <;> exact .inl (.of_kept rfl)

/-! ## Every step -/

/-- Everything a step can do to PHASE in a run. -/
theorem step_onGraph {s t : State} (h : operation s) (hs : step s = .next t) :
    OnGraph s t ∨ (t.phase = .halted ∧ ∃ as, s.host.script = .issue (encode .halt) :: as) := by
  obtain rfl | ⟨as, -, rfl⟩ | ⟨w, as, hscr, -, -, ⟨-, -, rfl⟩ | ⟨i, hd, he⟩⟩ | ⟨b, as, -, -, rfl⟩ |
    ⟨b, rest, as, -, -, rfl⟩ | ⟨addr, as, -, rfl⟩ | ⟨as, -, rfl⟩ | ⟨as, -, ho⟩ := step_cases hs
  · exact .inl (turn_onGraph h _)
  · exact .inl (turn_onGraph h as)
  · exact .inl (.of_kept rfl)
  · refine (exec_onGraph (s := withScript as s) he).imp_right ?_
    rintro ⟨rfl, hp⟩
    exact ⟨hp, as, by rw [hscr, eq_encode_of_decode hd]⟩
  · exact .inl (.of_kept rfl)
  · exact .inl (.of_kept rfl)
  · exact .inl (.of_kept rfl)
  · exact .inl (.of_idle rfl)
  · obtain ⟨b, rest, as', -, -, -, -, -, -, rfl⟩ := handOver_some ho
    exact .inl (beatEffect_onGraph_of_pop h rest b)

/-- Settles O57: by the cases of a step; in a run SCAN and RDHDR are in progress in IDLE only. -/
theorem phaseMovesAlongTheGraph : Obligations.PhaseMovesAlongTheGraph := by
  intro s t h hs hne
  obtain (hkept | hmove | hidle) | hhalt := step_onGraph h.operation hs
  · exact absurd hkept hne
  · exact .inl hmove
  · exact .inr (.inl hidle)
  · exact .inr (.inr hhalt)

end Sys2Proof.Safety
end

section
/-! PROOFS. A host that goes through a program (R61, R62, R84, R114, R115): its next word is held while a frame is worked on, so
each command runs as it does alone. -/

namespace Sys2Proof.Safety

open Sys2Proof Sys2Proof.Machine

/-! ## A word held while the block works (R61, R84) -/

/-- The host has nothing left to do, or a word comes next. -/
def WordNext (as : List Action) : Prop := as = [] ∨ ∃ w bs, as = .issue w :: bs

/-- What a beat does, it does beside a host with another script. -/
theorem beatStep_withScript {s t : State} (h : beatStep s = some t) (as : List Action) :
    beatStep (withScript as s) = some (withScript as t) := by
  obtain ⟨b, rest, hb, hq, rfl, hroom⟩ := beatStep_some h
  obtain ⟨out, ho, hi, hqueues⟩ := beatEffect_queues s rest b
  obtain ⟨-, hh⟩ := beatEffect_frame { s with inq := rest } b
  have he : beatEffect { withScript as s with inq := rest } b = withScript as (beatEffect { s with inq := rest } b) := by
    refine (hqueues { s.host with script := as } rest s.outq).trans ?_
    generalize beatEffect { s with inq := rest } b = e at ho hi hh ⊢
    rw [← ho, ← hi, withScript, hh]
  rw [← he]
  refine beatStep_of_room hb hq ?_
  rw [he]
  exact hroom

/-- A beat is a step for a host that is done, and for one that holds its next word: BUSY closes the port. -/
theorem step_of_beat_before_word {s t : State} (h : beatStep s = some t) {as : List Action} (has : WordNext as) :
    step (withScript as s) = .next (withScript as t) := by
  have hbeat := beatStep_withScript h as
  obtain rfl | ⟨w, bs, rfl⟩ := has
  · exact step_of_beatStep rfl hbeat
  · obtain ⟨b, rest, hb, -⟩ := beatStep_some h
    have hr : (withScript (.issue w :: bs) s).ready = false := by
      rw [← Bool.not_eq_true, ready_iff]
      exact fun hr => (busy_iff s).1 hb hr.1
    rw [(wordIsHeldWhenNotAccepted.1 _ w bs rfl hr).1, blockTurn_of_beatStep hbeat]

/-- A run of the block alone takes at most one beat a step. -/
theorem runs_inq_length : ∀ {n : Nat} {s t : State}, s.host.script = [] → runs n s t →
    s.inq.length ≤ t.inq.length + n
  | 0, _, _, _, h => by cases h; exact le_rfl
  | n + 1, s, t, hs, h => by
    obtain ⟨s', hstep, hr⟩ := runs_succ_iff.1 h
    rw [step_of_quiet hs] at hstep
    cases hstep
    have ih := runs_inq_length (by rw [(blockTurn_frame s).2, hs]) hr
    obtain hq | ⟨-, b, hq⟩ := blockTurn_inq s
    · rw [← hq]; omega
    · rw [hq, List.length_cons]; omega

/-- A run of the block alone that takes a beat in every step never leaves the port open, so it is the same while the host holds
its next word. -/
theorem runs_before_word {as : List Action} (has : WordNext as) : ∀ {n : Nat} {s t : State}, s.host.script = [] → runs n s t →
    s.inq.length = t.inq.length + n → runs n (withScript as s) (withScript as t)
  | 0, _, _, _, h, _ => by cases h; exact runs_zero _
  | n + 1, s, t, hs, h, hlen => by
    obtain ⟨s', hstep, hr⟩ := runs_succ_iff.1 h
    rw [step_of_quiet hs] at hstep
    cases hstep
    have hs' : (blockTurn s).host.script = [] := by rw [(blockTurn_frame s).2, hs]
    have hle := runs_inq_length hs' hr
    obtain hbeat | ⟨-, e⟩ := blockTurn_cases s
    · obtain ⟨b, hq⟩ : ∃ b, s.inq = b :: (blockTurn s).inq := by
        obtain hq | ⟨-, hq⟩ := blockTurn_inq s
        · rw [hq] at hle; omega
        · exact hq
      rw [hq, List.length_cons] at hlen
      exact runs_succ (step_of_beat_before_word hbeat has) (runs_before_word has hs' hr (by omega))
    · rw [e] at hle; omega

/-! ## The actions of a program (R114, R115) -/

/-- A host that pushes beats into an unbounded INQ. -/
theorem runs_pushIn (as : List Action) : ∀ (beats : List Beat) {s : State}, s.cfg.inDepth = none →
    s.host.script = beats.map .pushIn ++ as → runs beats.length s (withScript as { s with inq := s.inq ++ beats })
  | [], s, _, hs => by
    rw [List.append_nil, ← (show s.host.script = as from hs)]
    exact runs_zero s
  | b :: beats, s, hd, hs => by
    have hgo : HostGoesOn s (.pushIn b) (beats.map .pushIn ++ as) :=
      ⟨nofun, nofun, .inl ⟨headerWaits_of_head hs nofun, hs⟩⟩
    have hstep := hgo.step_eq (show s.inRoom = true by rw [State.inRoom, hd])
    have hrest := runs_pushIn as beats (s := { withScript (beats.map .pushIn ++ as) s with inq := s.inq ++ [b] }) hd rfl
    refine runs_succ hstep ?_
    rw [List.append_cons s.inq b beats]
    exact hrest

/-- The actions `as` of the host lead the block from `s` to `t`, the word that comes after them still being to be taken. -/
def Performs (as : List Action) (s t : State) : Prop :=
  ∀ more, WordNext more → ∃ n, runs n (withScript (as ++ more) s) (withScript more t)

/-- What follows begins with a word. -/
theorem Performs.trans {as bs : List Action} {w : Byte} {s t u : State} (h₁ : Performs as s t)
    (h₂ : Performs (.issue w :: bs) t u) : Performs (as ++ .issue w :: bs) s u := by
  intro more hmore
  obtain ⟨n, hn⟩ := h₁ (.issue w :: bs ++ more) (.inr ⟨w, bs ++ more, rfl⟩)
  obtain ⟨m, hm⟩ := h₂ more hmore
  rw [List.append_assoc]
  exact ⟨n + m, runs_add hn hm⟩

/-- With unbounded queues no word waits for room. -/
theorem headerWaits_of_unbounded {s : State} (h : s.cfg.outDepth = none) : s.headerWaits = false := by
  rw [← Bool.not_eq_true, headerWaits_iff, room_unbounded h]
  rintro ⟨-, -, -, hr⟩
  cases hr

section Word

variable {s t : State} {w : Byte} {i : Instr} (hd : decode w = .ok i) (hr : s.ready = true) (hu : unbounded s.cfg)
  (hexec : ∀ as, exec i (withScript as s) = .next (withScript as t))

include hd hr hu hexec

/-- A word that the port takes is one step. -/
theorem step_of_performed_word (as : List Action) : step (withScript (.issue w :: as) s) = .next (withScript as t) :=
  (step_of_word (s := withScript (.issue w :: as) s) rfl hr (headerWaits_of_unbounded hu.2) hd).trans (hexec as)

/-- A command that leaves its work to no beat. -/
theorem performs_word : Performs [.issue w] s t :=
  fun more _ => ⟨1, runs_one (step_of_performed_word hd hr hu hexec more)⟩

/-- A stream command with the beats the host pushes for it, as it runs alone: each step takes one beat. -/
theorem performs_stream {u : State} {beats : List Beat} {n : Nat}
    (hrun : runs n (withScript [] { t with inq := t.inq ++ beats }) u)
    (hlen : t.inq.length + beats.length = u.inq.length + n) : Performs (.issue w :: beats.map .pushIn) s u := by
  intro more hmore
  have hcfg : t.cfg = s.cfg := (exec_frame (hexec [])).1
  have hpush := runs_pushIn more beats (s := withScript (beats.map .pushIn ++ more) t) (by rw [withScript_cfg, hcfg, hu.1]) rfl
  have hbeats := runs_before_word hmore rfl hrun (by rw [← hlen]; exact List.length_append)
  exact ⟨_, runs_succ (step_of_performed_word hd hr hu hexec _) (runs_add hpush hbeats)⟩

end Word

end Sys2Proof.Safety
end

section
/-! PROOFS. The round trip (R311, R115): RDHDR seeds the leaves that SCAN seeded, so COMPRESS and DECOMPRESS go through the same
tree and the same codes. -/

namespace Sys2Proof.Safety

open Sys2Proof Sys2Proof.Machine

/-! ## Where an operation begins and what it leaves (R50, R51) -/

/-- The block in IDLE, with nothing in its queues, which are unbounded: where COMPRESS and DECOMPRESS begin. -/
structure AtRest (s : State) : Prop where
  sound     : Sound s
  ready     : s.ready = true
  phase     : s.phase = .idle
  unbounded : unbounded s.cfg
  inq       : s.inq = []
  outq      : s.outq = []

/-- The host has pushed these beats into an empty INQ and has nothing left to do. -/
def fedWith (beats : List Beat) (s : State) : State := { withScript [] s with inq := beats }

section AtRest

variable {s : State} (h : AtRest s)

include h

theorem AtRest.cur : s.cur = .none := ((ready_iff s).1 h.ready).1

theorem AtRest.sent : s.sent = 0 := h.sound.sent_eq_zero (headerWaits_of_unbounded h.unbounded.2)

theorem AtRest.cleared : Cleared s := by
  obtain ⟨-, -, ht, -⟩ := operation_of_ready h.sound.operation h.ready
  rw [h.phase] at ht
  exact ht

theorem AtRest.sound_fedWith (beats : List Beat) : Sound (fedWith beats s) := by
  refine (h.sound.withScript_of_sent h.sent []).queues rfl ?_ h.sound.outDepth
  rw [withScript_cfg, h.unbounded.1]
  trivial

/-- Neither the script nor ERR, unless it is E_IO, is anything an operation begins with. -/
theorem AtRest.restart (as : List Action) : AtRest { withScript as s with err := .ok } where
  sound :=
    { cfg := h.sound.cfg
      tables := h.sound.tables
      inDepth := h.sound.inDepth
      outDepth := h.sound.outDepth
      record := ⟨nofun, h.sound.record.2⟩
      operation := operation_ports h.sound.operation { s.host with script := as } s.inq s.outq s.sent s.cfg.outDepth .ok s.faults
      partSent := partSent_of_zero h.sent }
  ready := h.ready
  phase := h.phase
  unbounded := h.unbounded
  inq := h.inq
  outq := h.outq

end AtRest

/-- `t` has the parameters, CUR and FAULTS of `s` and no more or less of a split WRHDR, and its host has received the same: what a
completed operation leaves as it was and CLEARSTATE does not write. -/
structure SameRecord (s t : State) : Prop where
  cfg    : t.cfg = s.cfg
  host   : { t.host with script := [] } = { s.host with script := [] }
  cur    : t.cur = s.cur
  faults : t.faults = s.faults
  sent   : t.sent = s.sent

/-- An operation that begins at rest and ends with CLEARSTATE leaves the state it began in, but for OUTQ and ERR (R50, R180,
R201). -/
theorem SameRecord.completed {s t : State} (h : SameRecord s t) (hs : AtRest s) (out : List Beat) :
    withScript [] { clearState t with inq := [], outq := out, phase := .idle, err := .ok } =
      { s with host := { s.host with script := [] }, outq := out, err := .ok } := by
  have e : withScript [] { clearState t with inq := [], outq := out, phase := .idle, err := .ok } = { clearState s with
      host := { s.host with script := [] }, inq := [], outq := out, phase := .idle, err := .ok } := by
    simp only [withScript, clearState, h.cfg, h.host, h.cur, h.faults, h.sent]
  rw [e, hs.cleared, ← hs.inq, ← hs.phase]

/-- Every run keeps the invariant. -/
theorem runs_sound : ∀ {n : Nat} {s t : State}, Sound s → runs n s t → Sound t
  | 0, _, _, h, hr => by cases hr; exact h
  | _ + 1, _, _, h, hr => by
    obtain ⟨_, hs, hr⟩ := runs_succ_iff.1 hr
    exact runs_sound (step_sound h hs) hr

/-! ## Seeded leaves (R125, R227) -/

/-- `t` is a state in which the leaves are seeded, on either path. -/
structure Seeded (t : State) : Prop where
  tables  : t.tablesWf = true
  symbols : Symbols t
  leaves  : LeavesOnly t
  code    : t.code = []

/-- GENCODE's walks all end on a well-formed tree (R43, R162). -/
theorem exists_genCodes {s : State} (hw : s.tablesWf = true) (hs : Symbols s) (hb : TreeBuilt s) :
    ∃ ct, genCodes s = some ct := by
  obtain ⟨-, -, wc⟩ := (tablesWf_iff s).1 hw
  by_cases h1 : s.k.toNat = 1
  · exact ⟨_, if_pos h1⟩
  · have hk := hs.kPos
    obtain ⟨ct, hg, -⟩ := genCodes_many hs hb (by omega) wc
    exact ⟨ct, hg⟩

/-- GENCODE's table depends on the nodes, K and the table before (R160, R161). -/
theorem genCodes_congr {s t : State} (hn : t.node = s.node) (hk : t.k = s.k) (hc : t.code = s.code) :
    genCodes t = genCodes s := by
  simp only [genCodes, State.nodeAt, hn, hk, hc]

section Seeded

variable {t : State} (h : Seeded t)

include h

theorem Seeded.built_tables : (built t).tablesWf = true := by
  obtain ⟨wf, wn, wc⟩ := (tablesWf_iff t).1 h.tables
  exact (tablesWf_iff _).2 ⟨wf, buildTree_wf wn _, wc⟩

theorem Seeded.built_symbols (as : List Action) : Symbols (withScript as (built t)) :=
  buildTree_symbols h.tables h.symbols h.leaves rfl rfl rfl rfl

theorem Seeded.built_treeBuilt (as : List Action) : TreeBuilt (withScript as (built t)) :=
  buildTree_treeBuilt h.tables h.symbols h.leaves rfl rfl rfl rfl

/-- GENCODE completes after BUILD (R161). -/
theorem Seeded.exists_genCodes_built : ∃ ct, genCodes (built t) = some ct :=
  exists_genCodes h.built_tables (h.built_symbols (built t).host.script) (h.built_treeBuilt (built t).host.script)

/-- BUILD keeps byte value and weight of every leaf (R41). -/
theorem Seeded.built_leaf {i : Nat} (h1 : 1 ≤ i) (h2 : i ≤ t.k.toNat) :
    ((built t).nodeAt i).sym = (t.nodeAt i).sym ∧ ((built t).nodeAt i).weight = (t.nodeAt i).weight :=
  (h.symbols.leaves h.tables h.leaves).buildTree_leaf h.symbols.kMax (h.symbols.total ▸ t.total.isLt) h1 h2

/-- The table of GENCODE gives every leaf's byte value a code (R44). -/
theorem Seeded.leaf_hasCode {ct : Table Code} (hg : genCodes (built t) = some ct) {i : Nat} (h1 : 1 ≤ i) (h2 : i ≤ t.k.toNat) :
    ((codedWith (built t) ct).codeAt (t.nodeAt i).sym).len ≠ 0#8 := by
  have filled : CodesFilled (codedWith (built t) ct) :=
    genCodes_codesFilled (h.built_symbols (built t).host.script) (h.built_treeBuilt (built t).host.script) h.code hg rfl rfl rfl
  have hlen := filled.leaves i h1 h2
  have hsym : ((codedWith (built t) ct).nodeAt i).sym = (t.nodeAt i).sym := (h.built_leaf h1 h2).1
  intro hz
  rw [hsym, hz] at hlen
  exact absurd hlen (by decide)

/-- A table with the leaves of the built tree, and nothing else, is the table BUILD began with. -/
theorem Seeded.node_eq {u : State} (hu : u.tablesWf = true)
    (leaf : ∀ i, 1 ≤ i → i ≤ t.k.toNat → u.nodeAt i = leafNode ((built t).nodeAt i).sym ((built t).nodeAt i).weight)
    (above : ∀ i, t.k.toNat < i → u.nodeAt i = Node.zero) : u.node = t.node := by
  obtain ⟨-, wu, -⟩ := (tablesWf_iff u).1 hu
  obtain ⟨-, wt, -⟩ := (tablesWf_iff t).1 h.tables
  refine nodeTable_ext wu wt fun i => ?_
  rcases Nat.eq_zero_or_pos i with rfl | h1
  · simp
  · by_cases h2 : i ≤ t.k.toNat
    · obtain ⟨hs, hw⟩ := h.built_leaf h1 h2
      exact ((leaf i h1 h2).trans (by rw [hs, hw])).trans (h.leaves.leaves i h1 h2).symm
    · exact (above i (by omega)).trans (h.leaves.above i (by omega)).symm

end Seeded

/-! ## The commands of the two programs (R115) -/

section Command

variable {s : State} (hc : s.cur = .none) (hu : unbounded s.cfg)

include hc hu

theorem performs_build (hp : s.phase = .scanned ∨ s.phase = .hdrRead) : Performs [.issue 0x03#8] s (built s) := by
  have hr : s.ready = true := (ready_iff s).2 ⟨hc, by obtain hp | hp := hp <;> rw [hp] <;> nofun⟩
  exact performs_word (by decide) hr hu fun as => exec_build_of_legal (s := withScript as s) hr hp

theorem performs_gencode (hp : s.phase = .builtC) {ct : Table Code} (hg : genCodes s = some ct) :
    Performs [.issue 0x04#8] s (codedWith s ct) := by
  have hr : s.ready = true := (ready_iff s).2 ⟨hc, by rw [hp]; nofun⟩
  exact performs_word (by decide) hr hu fun as => exec_gencode_of_genCodes (s := withScript as s) hr hp hg

theorem performs_wrhdr (hp : s.phase = .coded) : Performs [.issue 0x05#8] s (writeHeader s) := by
  have hr : s.ready = true := (ready_iff s).2 ⟨hc, by rw [hp]; nofun⟩
  refine performs_word (i := .wrhdr) (by decide) hr hu fun as => ?_
  have hroom : (withScript as s).room (headerBytes (withScript as s)).length = true := room_unbounded hu.2 _
  rw [exec_wrhdr_of_coded (by exact hr) (by exact hp), headerStep_of_room hroom]
  rfl

/-- ENCODE with its frame (R181). -/
theorem performs_encode (hp : s.phase = .hdrWritten) (hi : s.inq = []) {bytes : List Byte}
    (hcodes : ∀ b ∈ bytes, (s.codeAt b).len ≠ 0#8) : Performs (.issue 0x06#8 :: pushFrame bytes) s
      (withScript [] { clearState s with
        inq := [], outq := s.outq ++ dataBeats (packAll (codeBits s bytes)) ++ [eosBeat], phase := .idle, err := .ok }) := by
  have hr : s.ready = true := (ready_iff s).2 ⟨hc, by rw [hp]; nofun⟩
  obtain ⟨s₁, hex, hrun⟩ := encodePacksAWholeFrame (fedWith (frame bytes 0#8) s) bytes 0#8 [] hr hp rfl
    (room_unbounded hu.2 _) (List.append_nil _).symm hcodes
  rw [encodeIsAccepted (fedWith (frame bytes 0#8) s) hr hp] at hex
  cases hex
  refine performs_stream (t := { s with cur := .encode, acc := [] }) (beats := frame bytes 0#8) (n := bytes.length + 1)
    (by decide) hr hu (fun as => encodeIsAccepted (withScript as s) hr hp) ?_ ?_
  · rw [hi]; exact hrun
  · rw [hi]; simp [frame]

end Command

/-! ## COMPRESS (R115) -/

/-- `t` is what SCAN leaves of `s` after a frame of these bytes (R125, R129). -/
structure ScannedFrom (bytes : List Byte) (s t : State) : Prop extends Seeded t where
  record : SameRecord s t
  phase  : t.phase = .scanned
  inq    : t.inq = []
  outq   : t.outq = s.outq
  total  : t.total.toNat = bytes.length
  covers : ∀ b ∈ bytes, ∃ i, 1 ≤ i ∧ i ≤ t.k.toNat ∧ (t.nodeAt i).sym = b

/-- SCAN with its frame. -/
theorem performs_scan {s : State} {bytes : List Byte} (h : AtRest s) (h1 : 1 ≤ bytes.length)
    (hm : bytes.length ≤ s.cfg.maxLen) : ∃ t, Performs (.issue 0x02#8 :: pushFrame bytes) s t ∧ ScannedFrom bytes s t := by
  have hx := h.sound_fedWith (frame bytes 0#8)
  have hcl : Cleared (fedWith (frame bytes 0#8) s) := (cleared_iff _).2 ((cleared_iff s).1 h.cleared :)
  obtain ⟨s₁, t, hex, hrun, ht, -, htotal, -, hleaves, -⟩ :=
    scanOfAFrameCountsIt (fedWith (frame bytes 0#8) s) bytes 0#8 [] h.ready h.phase hcl h.sound.cfg rfl h1 hm
      (List.append_nil _).symm
  have hsound : Sound t := runs_sound (exec_sound (i := .scan) hx h.sent nofun hex) hrun
  rw [scanIsAccepted (fedWith (frame bytes 0#8) s) h.ready h.phase] at hex
  cases hex
  have hcur : t.cur = .none := (congrArg State.cur ht).trans h.cur
  have hphase : t.phase = .scanned := congrArg State.phase ht
  obtain ⟨⟨hsym, hleaf, hcode⟩, -⟩ : tablesIn .scanned t ∧ _ := hphase ▸ (operation_none hcur).1 hsound.operation
  refine ⟨t, ?_, ⟨⟨hsound.tables, hsym, hleaf, hcode⟩, ?_, hphase, (congrArg State.inq ht :), (congrArg State.outq ht :),
    htotal, fun b hb => ?_⟩⟩
  · refine performs_stream (t := { s with cur := .scan }) (beats := frame bytes 0#8) (n := bytes.length + 1) (by decide) h.ready
      h.unbounded (fun as => scanIsAccepted (withScript as s) h.ready h.phase) ?_ ?_
    · rw [h.inq]; exact hrun
    · rw [ht, h.inq]; simp [frame]
  · constructor <;> rw [ht] <;> rfl
  · have hmem : leafNode b (BitVec.ofNat 32 (bytes.count b)) ∈ (leafIndices t.k.toNat).map t.nodeAt := by
      rw [hleaves]
      exact List.mem_map_of_mem (List.mem_filter.2 ⟨mem_byteValues b, decide_eq_true hb⟩)
    obtain ⟨i, him, hnode⟩ := List.mem_map.1 hmem
    obtain ⟨i1, i2⟩ := mem_leafIndices.1 him
    exact ⟨i, i1, i2, by rw [hnode]; rfl⟩

/-- The container of an input whose leaves and codes are those of `c`: header and packed codes (R96, R99). -/
def containerOf (c : State) (bytes : List Byte) : List Byte := headerBytes c ++ packAll (codeBits c bytes)

section Compress

variable {bytes : List Byte} {s t : State} {ct : Table Code} (h : ScannedFrom bytes s t) (hg : genCodes (built t) = some ct)

include h hg

/-- Every byte that was scanned has a code. -/
theorem ScannedFrom.hasCode {b : Byte} (hb : b ∈ bytes) : ((codedWith (built t) ct).codeAt b).len ≠ 0#8 := by
  obtain ⟨i, i1, i2, rfl⟩ := h.covers b hb
  exact h.leaf_hasCode hg i1 i2

/-- COMPRESS leaves its container on OUT and the block at rest. -/
theorem ScannedFrom.performs_compress (hs : AtRest s) (hscan : Performs (.issue 0x02#8 :: pushFrame bytes) s t) :
    Performs (compressScript bytes) s { s with
      host := { s.host with script := [] }, outq := dataBeats (containerOf (codedWith (built t) ct) bytes) ++ [eosBeat],
      err := .ok } := by
  have hc : t.cur = .none := h.record.cur.trans hs.cur
  have hu : unbounded t.cfg := by rw [h.record.cfg]; exact hs.unbounded
  have build := performs_build hc hu (.inl h.phase)
  have gencode := performs_gencode (s := built t) hc hu (if_pos h.phase) hg
  have wrhdr := performs_wrhdr (s := codedWith (built t) ct) hc hu rfl
  have encode := performs_encode (s := writeHeader (codedWith (built t) ct)) hc hu rfl h.inq fun b hb => h.hasCode hg hb
  have hout : (writeHeader (codedWith (built t) ct)).outq = dataBeats (headerBytes (codedWith (built t) ct)) := by
    rw [writeHeader, pushOut_outq, codedWith, built, h.outq, hs.outq, List.nil_append]
  have hscript : compressScript bytes = (((.issue 0x02#8 :: pushFrame bytes ++ [.issue 0x03#8]) ++ [.issue 0x04#8]) ++
      [.issue 0x05#8]) ++ .issue 0x06#8 :: pushFrame bytes := by
    simp [compressScript]
  rw [hout] at encode
  rw [hscript, containerOf, dataBeats_append, ← h.record.completed hs]
  exact (((hscan.trans build).trans gencode).trans wrhdr).trans encode

end Compress

/-! ## DECOMPRESS (R115) -/

/-- `t` is what RDHDR leaves of `s` after a header with the leaves of `u`, the payload being still in INQ (R227, R229). -/
structure ReadFrom (payload : List Byte) (u s t : State) : Prop extends Seeded t where
  record : SameRecord s t
  phase  : t.phase = .hdrRead
  inq    : t.inq = frame payload 0#8
  outq   : t.outq = s.outq
  node   : t.node = u.node
  k      : t.k = u.k
  total  : t.total = u.total

/-- RDHDR with a frame that begins with the header of a coded tree over the leaves of `u` (R229). -/
theorem performs_rdhdr {s u : State} (h : AtRest s) (hu : Seeded u) (hcfg : u.cfg = s.cfg) (ct : Table Code)
    (payload : List Byte) : ∃ t,
      Performs (.issue 0x07#8 :: pushFrame (headerBytes (codedWith (built u) ct) ++ payload)) s t ∧ ReadFrom payload u s t := by
  have hw : Symbols (codedWith (built u) ct) := buildTree_symbols hu.tables hu.symbols hu.leaves rfl rfl rfl rfl
  set beats := frame (headerBytes (codedWith (built u) ct) ++ payload) 0#8 with hbeats
  have hq : beats = dataBeats (headerBytes (codedWith (built u) ct)) ++ frame payload 0#8 := by
    rw [hbeats, frame, dataBeats_append, List.append_assoc, frame]
  have hx := h.sound_fedWith beats
  have hcl : Cleared (fedWith beats s) := (cleared_iff _).2 ((cleared_iff s).1 h.cleared :)
  obtain ⟨s₁, t, hex, hrun, ht, -, hleaf, habove⟩ := writtenHeaderIsReadBack _ (fedWith beats s) (frame payload 0#8) hw
    (by exact hcfg ▸ h.sound.cfg) hcfg.symm h.ready h.phase hcl rfl hq
  have hsound : Sound t := runs_sound (exec_sound (i := .rdhdr) hx h.sent nofun hex) hrun
  rw [rdhdrIsAccepted (fedWith beats s) h.ready h.phase] at hex
  cases hex
  have hcur : t.cur = .none := (congrArg State.cur ht).trans h.cur
  have hphase : t.phase = .hdrRead := congrArg State.phase ht
  obtain ⟨⟨hsym, hleaves, hcode, -⟩, -⟩ : tablesIn .hdrRead t ∧ _ := hphase ▸ (operation_none hcur).1 hsound.operation
  refine ⟨t, ?_, ⟨⟨hsound.tables, hsym, hleaves, hcode⟩, ?_, hphase, (congrArg State.inq ht :), (congrArg State.outq ht :),
    hu.node_eq hsound.tables hleaf habove, (congrArg State.k ht :), (congrArg State.total ht :)⟩⟩
  · refine performs_stream (beats := beats) (n := 4 + 5 * u.k.toNat)
      (t := { s with cur := .rdhdr, hstage := 0#1, hbuf := [], hi := 0#9, hprev := 256#9 })
      (by decide) h.ready h.unbounded (fun as => rdhdrIsAccepted (withScript as s) h.ready h.phase) ?_ ?_
    · rw [h.inq]; exact hrun
    · have hlen : (headerBytes (codedWith (built u) ct)).length = 4 + 5 * u.k.toNat := headerBytes_length _
      rw [ht, h.inq, hq, List.length_append, dataBeats_length, hlen]
      simp [Nat.add_comm]
  · constructor <;> rw [ht] <;> rfl

/-- DECODE of the payload, once the tree is built again, leaves the input on OUT and the block at rest (R207). -/
theorem ReadFrom.runs_decode {s t u : State} {bytes : List Byte} {ct : Table Code}
    (h : ReadFrom (packAll (codeBits (codedWith (built u) ct) bytes)) u s t) (hs : AtRest s) (hcode : u.code = [])
    (hg : genCodes (built u) = some ct) (hcodes : ∀ b ∈ bytes, ((codedWith (built u) ct).codeAt b).len ≠ 0#8)
    (hlen : bytes.length = u.total.toNat) : ∃ m, runs m (withScript [.issue 0x08#8] (built t))
      { s with host := { s.host with script := [] }, outq := dataBeats bytes ++ [eosBeat], err := .ok } := by
  have hu : unbounded t.cfg := by rw [h.record.cfg]; exact hs.unbounded
  have hp : (built t).phase = .builtD := if_neg (by rw [h.phase]; nofun)
  have hr : (built t).ready = true := (ready_iff _).2 ⟨h.record.cur.trans hs.cur, by rw [hp]; nofun⟩
  have hgt : genCodes { withScript [] (built t) with code := [] } = some ct := by
    have hnode : (built t).node = (built u).node := by rw [built, built, h.node, h.k]
    rw [← hg]
    exact genCodes_congr hnode h.k hcode.symm
  have hq : t.inq = frame (packAll (codeBits (codedWith (built u) ct) bytes) ++ []) 0#8 ++ [] := by
    rw [List.append_nil, List.append_nil, h.inq]
  obtain ⟨s₁, n, hex, hrun⟩ := (decodeUndoesThePacking (withScript [] (built t)) 0#8 [] hr hp rfl (room_unbounded hu.2 _)
    h.built_tables (h.built_symbols []) (h.built_treeBuilt [])).1 ct bytes [] hgt hcodes (hlen.trans (by rw [← h.total]; rfl)) hq
  have hstep : step (withScript [.issue 0x08#8] (built t)) = .next s₁ :=
    (step_of_word (s := withScript [.issue 0x08#8] (built t)) rfl hr (headerWaits_of_unbounded hu.2) (by decide)).trans hex
  have hout : (built t).outq ++ dataBeats bytes ++ [eosBeat] = dataBeats bytes ++ [eosBeat] := by
    rw [built, h.outq, hs.outq, List.nil_append]
  rw [← h.record.completed hs, ← hout]
  exact ⟨n + 1, runs_succ hstep hrun⟩

/-! ## The round trip (R311) -/

/-- Settles O45: the header carries the leaves, the leaves determine the tree, and the tree the codes. -/
theorem decompressUndoesCompress : Obligations.DecompressUndoesCompress := by
  intro s bytes hsound hr hp hu hi ho h1 hm hscript
  have h : AtRest s := ⟨hsound, hr, hp, hu, hi, ho⟩
  obtain ⟨u, hscan, hscanned⟩ := performs_scan h h1 hm
  obtain ⟨ct, hg⟩ := hscanned.exists_genCodes_built
  obtain ⟨n, hn⟩ := hscanned.performs_compress hg h hscan [] (.inl rfl)
  rw [List.append_nil, ← hscript, withScript_self] at hn
  refine ⟨n, containerOf (codedWith (built u) ct) bytes, hn, ?_⟩
  rintro r rfl
  have hrest := h.restart (decompressScript (containerOf (codedWith (built u) ct) bytes))
  obtain ⟨t, hread, hreadFrom⟩ := performs_rdhdr hrest hscanned.toSeeded hscanned.record.cfg ct
    (packAll (codeBits (codedWith (built u) ct) bytes))
  have build := performs_build (hreadFrom.record.cur.trans h.cur) (by rw [hreadFrom.record.cfg]; exact hu) (.inr hreadFrom.phase)
  obtain ⟨k, hk⟩ := (hread.trans build) [.issue 0x08#8] (.inr ⟨_, _, rfl⟩)
  obtain ⟨m, hm⟩ := hreadFrom.runs_decode hrest hscanned.code hg (fun b hb => hscanned.hasCode hg hb) hscanned.total.symm
  rw [List.append_assoc] at hk
  exact ⟨k + m, runs_add hk hm⟩

end Sys2Proof.Safety
end

section
/-! PROOFS. What a beat that raises a fault leaves (R273 to R276); and reset (R290, R291). -/

namespace Sys2Proof.Safety

open Sys2Proof Sys2Proof.Machine

/-! ## Faults of a beat (R273) -/

/-- FAULTS stays, and ERR stays or becomes 0. -/
def NoFault (s t : State) : Prop := t.faults = s.faults ∧ (t.err = s.err ∨ t.err = .ok)

/-- The beat `b` raises a fault: draining if it is data, not draining if it is an EOS. `v` is `s` with whatever the beat
has pushed or taken up. -/
def Faulted (b : Beat) (s t : State) : Prop :=
  ∃ e v, e ≠ .ok ∧ v.faults = s.faults ∧ v.inq = s.inq ∧ t = raiseFault e (!b.eos) v

theorem Faulted.of_raise {b : Beat} {s t v : State} {e : Err} {dr : Bool} (he : e ≠ .ok) (hdr : (!b.eos) = dr)
    (hf : v.faults = s.faults) (hi : v.inq = s.inq) (ht : t = raiseFault e dr v) : Faulted b s t :=
  ⟨e, v, he, hf, hi, by rw [hdr]; exact ht⟩

theorem scanBeat_fault (s : State) (b : Beat) : NoFault s (scanBeat s b) ∨ Faulted b s (scanBeat s b) := by
  cases hb : b.eos with
  | true =>
    rw [scanBeat, if_pos hb, scanEos_eq]
    split
    · exact .inr (.of_raise (e := .empty) (v := s) nofun (by rw [hb]; rfl) rfl rfl rfl)
    · exact .inl ⟨rfl, .inr rfl⟩
  | false =>
    rw [scanBeat, if_neg (by rw [hb]; nofun)]
    by_cases ht : s.total.toNat = s.cfg.maxLen
    · rw [scanData_of_full ht]
      exact .inr (.of_raise (e := .overflow) nofun (by rw [hb]; rfl) rfl rfl rfl)
    · rw [scanData_of_room ht]
      exact .inl ⟨rfl, .inl rfl⟩

theorem encodeBeat_fault (s : State) (b : Beat) : NoFault s (encodeBeat s b) ∨ Faulted b s (encodeBeat s b) := by
  cases hb : b.eos with
  | true =>
    rw [encodeBeat, if_pos hb]
    exact .inl ⟨rfl, .inr rfl⟩
  | false =>
    rw [encodeBeat, if_neg (by rw [hb]; nofun), encodeData]
    split
    · exact .inr (.of_raise (e := .noCode) (v := pushOut [eosBeat] s) nofun (by rw [hb]; rfl) rfl rfl rfl)
    · exact .inl ⟨rfl, .inl rfl⟩

/-- A field that is complete is used, or refused with the data beat that completed it (R225, R226). -/
theorem useField_fault {b : Beat} (hb : b.eos = false) (s : State) : NoFault s (useField s) ∨ Faulted b s (useField s) := by
  have refused : ∀ t, t = raiseFault .malformed true s → Faulted b s t :=
    fun t => .of_raise (e := .malformed) nofun (by rw [hb]; rfl) rfl rfl
  unfold useField
  split
  · unfold rdhdrCount
    simp only
    split
    · exact .inr (refused _ rfl)
    · exact .inl ⟨rfl, .inl rfl⟩
  · unfold rdhdrRecord
    simp only
    split
    · exact .inr (refused _ rfl)
    · unfold seedRecord
      simp only
      split
      · exact .inl ⟨rfl, .inr rfl⟩
      · exact .inl ⟨rfl, .inl rfl⟩

theorem rdhdrBeat_fault (s : State) (b : Beat) : NoFault s (rdhdrBeat s b) ∨ Faulted b s (rdhdrBeat s b) := by
  cases hb : b.eos with
  | true =>
    rw [rdhdrBeat, if_pos hb]
    exact .inr (.of_raise (e := .malformed) nofun (by rw [hb]; rfl) rfl rfl rfl)
  | false =>
    have hdata : b = dataBeat b.data := by rw [dataBeat, ← hb]
    rw [hdata, rdhdrBeat_dataBeat, ← hdata]
    split
    · exact useField_fault hb { s with hbuf := s.hbuf ++ [b.data] }
    · exact .inl ⟨rfl, .inl rfl⟩

/-- No bit of a payload is a fault (R203). -/
theorem walkBits_noFault (bits : List Bit) : ∀ s : State, NoFault s (walkBits bits s) := by
  induction bits with
  | nil => exact fun s => ⟨rfl, .inl rfl⟩
  | cons b bs ih =>
    intro s
    simp only [walkBits]
    split
    · split
      · exact ⟨rfl, .inr rfl⟩
      · exact ih _
    · exact ih _

theorem decodeBeat_fault (s : State) (b : Beat) : NoFault s (decodeBeat s b) ∨ Faulted b s (decodeBeat s b) := by
  cases hb : b.eos with
  | true =>
    rw [decodeBeat, if_pos hb]
    exact .inr (.of_raise (e := .malformed) (v := pushOut [eosBeat] s) nofun (by rw [hb]; rfl) rfl rfl rfl)
  | false =>
    rw [decodeBeat, if_neg (by rw [hb]; nofun)]
    exact .inl (walkBits_noFault _ s)

/-- Everything a beat can do to the fault record, and what else it does when it raises a fault. -/
theorem beatEffect_fault (s : State) (b : Beat) : NoFault s (beatEffect s b) ∨ Faulted b s (beatEffect s b) := by
  unfold beatEffect
  split
  · exact .inl ⟨rfl, .inl rfl⟩
  · exact scanBeat_fault s b
  · exact encodeBeat_fault s b
  · exact rdhdrBeat_fault s b
  · exact decodeBeat_fault s b
  · unfold drainBeat
    split <;> exact .inl ⟨rfl, .inl rfl⟩

/-- Settles O46: a beat that sets a bit of FAULTS, or ERR to a new code, ends with the fault procedure. -/
theorem faultEntryDropsTheOperation : Obligations.FaultEntryDropsTheOperation := by
  intro s t b rest hq ht hnew
  obtain ⟨b', rest', -, hq', rfl, -⟩ := beatStep_some ht
  rw [hq] at hq'
  cases hq'
  obtain ⟨hf, he⟩ | ⟨e, v, he, hf, hi, hv⟩ := beatEffect_fault { s with inq := rest } b
  · obtain hn | ⟨hn, h0⟩ := hnew
    · exact absurd hf hn
    · exact absurd he (by rw [not_or]; exact ⟨hn, h0⟩)
  · rw [hv]
    refine ⟨he, congrArg (setFaultBit · e) hf, rfl, rfl, ?_, hi⟩
    rw [raiseFault_cur]
    cases b.eos <;> rfl

/-! ## Reset (R290, R291) -/

/-- A reset that the host takes next is performed. -/
theorem HostResets.hostTurn_eq {s : State} {as : List Action} (h : HostResets s as) : hostTurn s = some (.reset, as) := by
  obtain hs | ⟨hw, w, hs⟩ := h
  · exact hostTurn_of_head hs (headerWaits_of_head hs nofun)
  · simp [hostTurn, hs, hw]

/-- Settles O52: reset is always enabled. -/
theorem resetWorksFromEveryState : Obligations.ResetWorksFromEveryState := fun s _ h =>
  step_of_hostTurn h.hostTurn_eq (rfl : enabled .reset s = true)

end Sys2Proof.Safety
end

section
/-! PROOFS. No step of a run stops, and what waits for OUTQ ends while the host pops (R293, R305, R309, log 6). -/

namespace Sys2Proof.Safety

open Sys2Proof Sys2Proof.Machine

/-! ## Every step answers a next state (R293) -/

/-- What the port takes is performed, or its phase is wrong (R240, R243). -/
theorem accept_answers {i : Instr} {s : State} {f : State → Host.Outcome State Fault Refusal} (hr : s.ready = true)
    (hf : legalIn i s.phase = true → ∃ t, f s = .next t) : ∃ t, accept i s f = .next t := by
  cases hl : legalIn i s.phase with
  | false => exact ⟨_, accept_of_illegal hr hl⟩
  | true =>
    rw [accept_of_legal hr hl]
    exact hf hl

/-- Only GENCODE could fail, and in BUILT_C its tree is well formed (R43, log 8). -/
theorem exec_answers {s : State} (hw : s.tablesWf = true) (h : operation s) (hr : s.ready = true) (i : Instr) :
    ∃ t, exec i s = .next t := by
  cases i with
  | gencode =>
    rw [exec, execGencode]
    refine accept_answers hr fun hl => ?_
    obtain ⟨-, -, ht, -⟩ := operation_of_ready h hr
    rw [show s.phase = .builtC by simpa [legalIn] using hl] at ht
    obtain ⟨hs, hb, -⟩ := ht
    obtain ⟨ct, hg⟩ := exists_genCodes hw hs hb
    simp only [hg]
    exact ⟨_, rfl⟩
  | clear | scan | build | wrhdr | encode | rdhdr | decode | halt | drain =>
    simp only [exec, execClear, execScan, execBuild, execWrhdr, execEncode, execRdhdr, execDecode, execHalt, execDrain]
    exact accept_answers hr fun _ => ⟨_, rfl⟩

theorem step_answers {s : State} (h : Sound s) : ∃ t, step s = .next t := by
  cases ht : hostTurn s with
  | none => exact ⟨turn s.host.script s, by simp [step, stepOnce, ht]⟩
  | some p =>
    obtain ⟨a, as⟩ := p
    cases he : enabled a s with
    | false => exact ⟨_, step_of_held ht he⟩
    | true =>
      rw [step_of_hostTurn ht he]
      cases a with
      | issue w =>
        rw [performAction, issueWord]
        cases decode w with
        | error e => exact ⟨_, rfl⟩
        | ok i =>
          exact exec_answers (s := withScript as s) h.tables (operation_withScript h.operation as) (by exact he) i
      | pushIn b | popOut | inspect addr | reset | beatStep => exact ⟨_, rfl⟩

/-! ## A stream command ends (R305, R309) -/

/-- An EOS ends every stream command (R95). -/
theorem beatEffect_cur_of_eos {s : State} {b : Beat} (hb : b.eos = true) : (beatEffect s b).cur = .none := by
  unfold beatEffect
  split
  · assumption
  · rw [scanBeat, if_pos hb, scanEos_eq]
    split <;> rfl
  · rw [encodeBeat, if_pos hb]
    rfl
  · rw [rdhdrBeat, if_pos hb]
    rfl
  · rw [decodeBeat, if_pos hb]
    rfl
  · rw [drainBeat, if_pos hb]

/-- With an unbounded OUTQ every beat is a step of the block alone, and an EOS is the last one. -/
theorem step_of_unbounded_beat {s : State} {b : Beat} {rest : List Beat} (hc : s.cur ≠ .none) (hs : s.host.script = [])
    (hd : s.cfg.outDepth = none) (hq : s.inq = b :: rest) : ∃ t, step s = .next t ∧ t.cfg = s.cfg ∧ t.host = s.host ∧
      t.inq = rest ∧ (b.eos = true → t.cur = .none) := by
  obtain ⟨-, -, hi, -⟩ := beatEffect_ports { s with inq := rest } b
  obtain ⟨hcfg, hhost⟩ := beatEffect_frame { s with inq := rest } b
  exact ⟨_, step_of_beatStep hs (beatStep_of_room ((busy_iff s).2 hc) hq (room_unbounded hd _)), hcfg, hhost, hi,
    beatEffect_cur_of_eos⟩

/-- A stream command ends with the EOS of its frame at the latest. -/
theorem runs_to_end_of_frame (junk : Byte) (rest : List Beat) : ∀ (bytes : List Byte) {s : State}, s.cur ≠ .none →
    s.host.script = [] → s.cfg.outDepth = none → s.inq = frame bytes junk ++ rest →
    ∃ n t, runs n s t ∧ t.cur = .none ∧ rest <:+ t.inq
  | [], s, hc, hs, hd, hq => by
    obtain ⟨t, hstep, -, -, hi, hend⟩ := step_of_unbounded_beat hc hs hd hq
    exact ⟨1, t, runs_one hstep, hend rfl, by rw [hi]; exact List.suffix_rfl⟩
  | d :: bytes, s, hc, hs, hd, hq => by
    obtain ⟨t, hstep, hcfg, hhost, hi, -⟩ := step_of_unbounded_beat hc hs hd hq
    by_cases ht : t.cur = .none
    · exact ⟨1, t, runs_one hstep, ht, by rw [hi]; exact List.suffix_append _ _⟩
    · obtain ⟨n, u, hr, hu⟩ := runs_to_end_of_frame junk rest bytes ht (hhost ▸ hs) (hcfg ▸ hd) hi
      exact ⟨n + 1, u, runs_succ hstep hr, hu⟩

/-! ## A WRHDR ends (R73, R84 (b), log 6) -/

/-- `u` is `s` once WRHDR has written the rest of its header: it is in OUTQ or with the host, behind what stood in OUTQ. -/
def HeaderWritten (s u : State) : Prop :=
  u = { s with phase := .hdrWritten, err := .ok, sent := 0, host := u.host, outq := u.outq } ∧
  u.host.popped ++ u.outq = s.host.popped ++ s.outq ++ (dataBeats (headerBytes s)).drop s.sent

/-- Pops and pushes before that change no beat and no order of beats. -/
theorem HeaderWritten.of_beats {s u : State} {host : HostSide} {outq : List Beat} {sent : Nat}
    (h : HeaderWritten { s with host := host, outq := outq, sent := sent } u)
    (hb : host.popped ++ outq ++ (dataBeats (headerBytes s)).drop sent =
      s.host.popped ++ s.outq ++ (dataBeats (headerBytes s)).drop s.sent) : HeaderWritten s u :=
  ⟨h.1, h.2.trans hb⟩

/-- A WRHDR word is at CMD, in CODED, before a host that pops; a header that is split is not yet pushed to its end. -/
structure AtCmd (m : Nat) (s : State) : Prop where
  script : s.host.script = .issue (encode .wrhdr) :: List.replicate m .popOut
  ready  : s.ready = true
  phase  : s.phase = .coded
  depth  : s.cfg.outDepth ≠ some 0
  split  : s.sent ≠ 0 → s.fits (headerBytes s).length = false
  left   : s.sent < (headerBytes s).length

section AtCmd

variable {m : Nat} {s : State} (h : AtCmd m s)

include h

/-- With room the header is written whole. -/
theorem AtCmd.step_of_room (hroom : s.room (headerBytes s).length = true) :
    ∃ u, step s = .next u ∧ HeaderWritten s u := by
  have hw : s.headerWaits = false := by
    rw [← Bool.not_eq_true, headerWaits_iff, hroom]
    rintro ⟨-, -, -, hr⟩
    cases hr
  have h0 : s.sent = 0 := by
    by_contra hs
    exact absurd (fits_of_room hroom) (by rw [h.split hs]; nofun)
  have hstep := step_of_word h.script h.ready hw (decode_encode .wrhdr)
  rw [exec_wrhdr_of_coded (by exact h.ready) (by exact h.phase), headerStep_of_room (by exact hroom)] at hstep
  refine ⟨_, hstep, ?_, ?_⟩
  · rw [← h0]; rfl
  · rw [h0, List.drop_zero, List.append_assoc]; rfl

/-- Without room the word waits. -/
theorem AtCmd.headerWaits (hroom : s.room (headerBytes s).length = false) : s.headerWaits = true :=
  (headerWaits_iff s).2 ⟨⟨_, h.script⟩, h.ready, h.phase, hroom⟩

/-- A host that pops behind the word has no action to take while OUTQ is empty. -/
theorem AtCmd.held (hw : s.headerWaits = true) (ho : s.outq = []) {a : Action} {as : List Action}
    (ht : hostTurn s = some (a, as)) : enabled a s = false := by
  obtain ⟨hn, -⟩ | ⟨-, -, bs, hs, -⟩ := hostTurn_some ht
  · rw [hw] at hn; cases hn
  · have hbs : List.replicate m Action.popOut = a :: bs := (List.cons.inj (h.script.symm.trans hs)).2
    have ha : a = .popOut := List.eq_of_mem_replicate (hbs ▸ List.mem_cons_self)
    rw [ha]
    exact enabled_popOut_of_nil ho

/-- At an empty OUTQ a header without room is one that is split, and its next beat is pushed. -/
theorem AtCmd.step_of_split (hroom : s.room (headerBytes s).length = false) (ho : s.outq = []) :
    (∃ u, step s = .next u ∧ HeaderWritten s u) ∨
    (∃ b, AtCmd m { s with outq := [b], sent := s.sent + 1 } ∧
      (dataBeats (headerBytes s)).drop s.sent = b :: (dataBeats (headerBytes s)).drop (s.sent + 1) ∧
      step s = .next { s with outq := [b], sent := s.sent + 1 }) := by
  have hw := h.headerWaits hroom
  have hf : s.fits (headerBytes s).length = false := by
    rw [← Bool.not_eq_true]
    exact fun hf => absurd (room_of_fits ho hf) (by rw [hroom]; nofun)
  have h1 : s.room 1 = true := by
    refine room_of_fits ho ?_
    cases hd : s.cfg.outDepth with
    | none => simp [State.fits, hd]
    | some d =>
      have hd0 : d ≠ 0 := fun hd0 => h.depth (by rw [hd, hd0])
      exact (fits_iff hd 1).2 (Nat.one_le_iff_ne_zero.2 hd0)
  have hstep := step_of_headerWaits hw fun a as => h.held hw ho
  have hbeat := headerStep_of_split hf h1
  rw [headerTurn, hbeat] at hstep
  obtain ⟨-, e⟩ | ⟨hlt, e⟩ := pushHeaderBeat_cases s
  · rw [e] at hstep
    refine .inl ⟨_, hstep, rfl, ?_⟩
    rw [List.append_assoc]; rfl
  · rw [e, ho, List.nil_append] at hstep
    have hlen : s.sent < (dataBeats (headerBytes s)).length := by rw [dataBeats_length]; exact h.left
    have hdrop := List.drop_eq_getElem_cons hlen
    rw [hdrop] at hstep ⊢
    exact .inr ⟨_, ⟨h.script, h.ready, h.phase, h.depth, fun _ => hf, hlt⟩, rfl, hstep.trans (congrArg _ (if_pos h.phase))⟩

/-- While the word waits, the host pops behind it. -/
theorem AtCmd.step_pop (hroom : s.room (headerBytes s).length = false) (hm : 1 ≤ m) {b : Beat} {rest : List Beat}
    (ho : s.outq = b :: rest) : ∃ host, AtCmd (m - 1) { s with outq := rest, host := host } ∧
      host.popped = s.host.popped ++ [b] ∧ step s = .next { s with outq := rest, host := host } := by
  have hs := h.script
  rw [show m = m - 1 + 1 by omega, List.replicate_succ] at hs
  have hgo : HostGoesOn s .popOut (.issue (encode .wrhdr) :: List.replicate (m - 1) .popOut) :=
    ⟨nofun, nofun, .inr ⟨h.headerWaits hroom, _, _, hs, rfl⟩⟩
  exact ⟨_, ⟨rfl, h.ready, h.phase, h.depth, h.split, h.left⟩, rfl, step_of_pop hgo ho⟩

end AtCmd

/-- WRHDR ends while the host pops: each step pops a beat, pushes one of a header that is split, or writes the header to its
end. -/
theorem AtCmd.runs_to_headerWritten : ∀ (k : Nat) {m : Nat} {s : State}, AtCmd m s →
    2 * ((headerBytes s).length - s.sent) + s.outq.length ≤ k → k ≤ m → ∃ n u, runs n s u ∧ HeaderWritten s u
  | 0, m, s, h, hk, _ => by
    have := h.left
    omega
  | k + 1, m, s, h, hk, hm => by
    cases hroom : s.room (headerBytes s).length with
    | true =>
      obtain ⟨u, hstep, hu⟩ := h.step_of_room hroom
      exact ⟨1, u, runs_one hstep, hu⟩
    | false =>
      cases ho : s.outq with
      | cons b rest =>
        rw [ho, List.length_cons] at hk
        obtain ⟨host, hnext, hpopped, hstep⟩ := h.step_pop hroom (by omega) ho
        obtain ⟨n, u, hr, hu⟩ := AtCmd.runs_to_headerWritten k hnext (by exact Nat.le_of_succ_le_succ hk) (by omega)
        refine ⟨n + 1, u, runs_succ hstep hr, HeaderWritten.of_beats (sent := s.sent) hu ?_⟩
        rw [ho, hpopped, List.append_assoc s.host.popped]
        rfl
      | nil =>
        obtain ⟨u, hstep, hu⟩ | ⟨b, hnext, hdrop, hstep⟩ := h.step_of_split hroom ho
        · exact ⟨1, u, runs_one hstep, hu⟩
        · have hleft : s.sent + 1 < (headerBytes s).length := hnext.left
          obtain ⟨n, u, hr, hu⟩ := AtCmd.runs_to_headerWritten k hnext
            (by show 2 * ((headerBytes s).length - (s.sent + 1)) + 1 ≤ k; omega) (by omega)
          refine ⟨n + 1, u, runs_succ hstep hr, HeaderWritten.of_beats (host := s.host) hu ?_⟩
          rw [ho, hdrop, List.append_nil, List.append_assoc]
          rfl

/-- Settles O60: a stream command ends as it does with an unbounded OUTQ, which a finite one mirrors while the host pops. -/
theorem noStepOfARunStops : Obligations.NoStepOfARunStops := by
  refine ⟨fun s h => step_answers h, fun s bytes junk rest h hc hq hd => ?_, fun s h hr hp hd => ?_⟩
  · obtain ⟨n, t, hrun, ht⟩ := runs_to_end_of_frame junk rest bytes
      (s := { withScript [] s with cfg := { s.cfg with outDepth := none } }) hc rfl rfl hq
    have hsound := h.withScript_of_sent (h.sent_of_busy ((busy_iff s).2 hc)) []
    obtain ⟨enough, hrest⟩ := hostActionsCommuteWithBeats.2 (withScript [] s) t n hsound rfl hd hrun
    refine ⟨enough, fun m hm => ?_⟩
    obtain ⟨n', u, hu, hblock, -⟩ := hrest m hm
    refine ⟨n', u, hu, ?_⟩
    rw [hblock]
    exact ht
  · have hsplit : s.sent ≠ 0 → s.fits (headerBytes s).length = false ∧ s.sent < (headerBytes s).length := fun h0 => by
      obtain ⟨-, -, -, hf, hlt⟩ := h.partSent h0
      exact ⟨hf, hlt⟩
    have hleft : s.sent < (headerBytes s).length := by
      by_cases h0 : s.sent = 0
      · rw [h0, headerBytes_length]; omega
      · exact (hsplit h0).2
    refine ⟨2 * ((headerBytes s).length - s.sent) + s.outq.length, fun m hm => ?_⟩
    have hat : AtCmd m (withScript (.issue (encode .wrhdr) :: List.replicate m .popOut) s) :=
      ⟨rfl, hr, hp, hd, fun h0 => (hsplit h0).1, hleft⟩
    exact hat.runs_to_headerWritten _ le_rfl hm

end Sys2Proof.Safety
end
